-- ==== Sys2Proof/Word.lean ====
section
/-! DEFINITION. The words of YCCK-CSC, the four components, and a fixed group of four like things. -/

namespace Sys2Proof

/-- A register, a data-port address or a sample's binary32 pattern (00_scope.md R10, R16). -/
abbrev Word := BitVec 32

/-- One byte of the data space (20_memory.md R70). -/
abbrev Byte := BitVec 8

/-- The four components of a command, `component0` to `component3` (00_scope.md R23). -/
inductive Component where
  | component0
  | component1
  | component2
  | component3
  deriving DecidableEq, Repr

/-- The four components in ascending component number. -/
def Component.all : List Component :=
  [.component0, .component1, .component2, .component3]

/-- Four like things, one for each component: descriptors, shadow bases, lane registers. -/
structure Quad (α : Type) where
  c0 : α
  c1 : α
  c2 : α
  c3 : α
  deriving DecidableEq, Repr

/-- The entry of component `c`. -/
def Quad.get {α : Type} (q : Quad α) : Component → α
  | .component0 => q.c0
  | .component1 => q.c1
  | .component2 => q.c2
  | .component3 => q.c3

/-- `q` with the entry of component `c` replaced. -/
def Quad.set {α : Type} (q : Quad α) (c : Component) (v : α) : Quad α :=
  match c with
  | .component0 => { q with c0 := v }
  | .component1 => { q with c1 := v }
  | .component2 => { q with c2 := v }
  | .component3 => { q with c3 := v }

/-- The same entry for every component. -/
def Quad.const {α : Type} (v : α) : Quad α := ⟨v, v, v, v⟩

end Sys2Proof
end

