-- ==== Sys2Proof/Machine/Binary32.lean ====
section
/-! DEFINITION. Exact IEEE 754 binary32 arithmetic on patterns (00_scope.md R16 to R22). Every finite binary32 value is an
integer multiple of 2^-149, so exact values are integers (or ratios of integers) in that unit, rounded once. -/

namespace Sys2Proof.Machine

/-- Bit 31 (00_scope.md R16). -/
def signBit (u : Word) : Bool := u.extractLsb' 31 1 == 1#1

/-- Bits 30:23, the biased exponent (00_scope.md R16). -/
def exponentField (u : Word) : Nat := (u.extractLsb' 23 8).toNat

/-- Bits 22:0, the fraction (00_scope.md R16). -/
def fractionField (u : Word) : Nat := (u.extractLsb' 0 23).toNat

/-- Exponent 0xFF and a nonzero fraction (00_scope.md R22). -/
def isNaN (u : Word) : Bool := exponentField u == 255 && fractionField u != 0

/-- Exponent 0xFF and a zero fraction. -/
def isInfinite (u : Word) : Bool := exponentField u == 255 && fractionField u == 0

/-- Neither an infinity nor a NaN (00_scope.md R22). -/
def isFinite (u : Word) : Bool := exponentField u != 255

/-- A zero of either sign. -/
def isZero (u : Word) : Bool := exponentField u == 0 && fractionField u == 0

/-- The ordered comparison `x > 0`: false for every NaN and for both zeros (00_scope.md R22). -/
def isPositive (u : Word) : Bool := !isNaN u && !signBit u && !isZero u

/-- The canonical NaN (00_scope.md R18). -/
def canonicalNaN : Word := 0x7FC00000#32

/-- The pattern of +infinity as a number: the least pattern above every finite one. -/
def infinityPattern : Nat := 0x7F800000

/-- `|x|` of a finite binary32 value, in units of 2^-149 (00_scope.md R16: exponent bias 127, 23 fraction bits). -/
def magnitude (u : Word) : Nat :=
  if exponentField u = 0 then fractionField u
  else (2 ^ 23 + fractionField u) * 2 ^ (exponentField u - 1)

/-- The exact value of a finite binary32, in units of 2^-149. -/
def unitValue (u : Word) : Int := if signBit u then -(magnitude u : Int) else (magnitude u : Int)

/-- A sign and a pattern without sign put together. -/
def withSign (negative : Bool) (pattern : Nat) : Word :=
  BitVec.ofNat 32 (if negative then 2 ^ 31 + pattern else pattern)

/-- `num / den` to the nearest integer, ties to even. -/
def roundDivEven (num den : Nat) : Nat :=
  let q := num / den
  let r := num % den
  if den < 2 * r || (2 * r == den && q % 2 == 1) then q + 1 else q

/-- How many low bits of `num / den` lie below a 24-bit significand. -/
def excessBits (num den : Nat) : Nat := (num / den).log2 + 1 - 24

/-- roundTiesToEven of the exact value `num / den` units of 2^-149 to a binary32 pattern without sign: subnormals kept,
overflow to infinity (00_scope.md R17). With `k` bits dropped and significand `m`, the pattern is `k * 2^23 + m`. -/
def roundPattern (num den : Nat) : Nat :=
  let k := excessBits num den
  min (k * 2 ^ 23 + roundDivEven num (den * 2 ^ k)) infinityPattern

/-- `-x`: the sign bit changed. -/
def fneg (a : Word) : Word := a ^^^ 0x80000000#32

/-- binary32 addition (00_scope.md R17, R18). An exact zero sum is -0 only when both operands have sign 1, as IEEE 754
states for roundTiesToEven. PRESUMED (log 19). -/
def fadd (a b : Word) : Word :=
  if isNaN a || isNaN b then canonicalNaN
  else if isInfinite a then
    if isInfinite b && signBit a != signBit b then canonicalNaN else a
  else if isInfinite b then b
  else
    let sum := unitValue a + unitValue b
    if sum = 0 then withSign (signBit a && signBit b) 0
    else withSign (decide (sum < 0)) (roundPattern sum.natAbs 1)

/-- binary32 subtraction: `fsub(a, b)` equals `fadd(a, -b)` (00_scope.md R17). -/
def fsub (a b : Word) : Word := fadd a (fneg b)

/-- binary32 multiplication (00_scope.md R17, R18). The sign of a result that is not NaN is the exclusive or of the
operands' signs, as IEEE 754 states. PRESUMED (log 19). -/
def fmul (a b : Word) : Word :=
  let negative := signBit a != signBit b
  if isNaN a || isNaN b then canonicalNaN
  else if isInfinite a || isInfinite b then
    if isZero a || isZero b then canonicalNaN else withSign negative infinityPattern
  else withSign negative (roundPattern (magnitude a * magnitude b) (2 ^ 149))

/-- binary32 division (00_scope.md R17, R18), the sign as for `fmul`. PRESUMED for the special cases that R17 does not
list (log 19). -/
def fdiv (a b : Word) : Word :=
  let negative := signBit a != signBit b
  if isNaN a || isNaN b then canonicalNaN
  else if isInfinite a then
    if isInfinite b then canonicalNaN else withSign negative infinityPattern
  else if isInfinite b then withSign negative 0
  else if isZero b then
    if isZero a then canonicalNaN else withSign negative infinityPattern
  else withSign negative (roundPattern (magnitude a * 2 ^ 149) (magnitude b))

/-- Rounding to an integral value, ties away from zero, the sign kept (00_scope.md R19). A magnitude of 2^23 or more is
integral already. -/
def roundTA (x : Word) : Word :=
  if isNaN x then canonicalNaN
  else if isInfinite x || isZero x then x
  else if 2 ^ 23 * 2 ^ 149 ≤ magnitude x then x
  else withSign (signBit x) (roundPattern ((magnitude x + 2 ^ 148) / 2 ^ 149 * 2 ^ 149) 1)

/-- The binary32 pattern nearest `num / den`, roundTiesToEven: the value `f:<decimal>` of 30_encoding.md R108, and the
rule of 00_scope.md R21 for the constants. -/
def nearestPattern (negative : Bool) (num den : Nat) : Word :=
  withSign negative (roundPattern (num * 2 ^ 149) den)

/-! The datapath constants of 00_scope.md R21. -/

/-- 1.402 -/
def C_1402 : Word := 0x3FB374BC#32

/-- 0.344136 -/
def C_0344136 : Word := 0x3EB03298#32

/-- 0.714136 -/
def C_0714136 : Word := 0x3F36D19E#32

/-- 1.772 -/
def C_1772 : Word := 0x3FE2D0E5#32

/-- 0.299 -/
def C_0299 : Word := 0x3E991687#32

/-- 0.587 -/
def C_0587 : Word := 0x3F1645A2#32

/-- 0.114 -/
def C_0114 : Word := 0x3DE978D5#32

/-- 0.168736 -/
def C_0168736 : Word := 0x3E2CC921#32

/-- 0.331264 -/
def C_0331264 : Word := 0x3EA99B6F#32

/-- 0.5 -/
def C_05 : Word := 0x3F000000#32

/-- 0.418688 -/
def C_0418688 : Word := 0x3ED65E46#32

/-- 0.081312 -/
def C_0081312 : Word := 0x3DA686E8#32

/-- 1 -/
def ONE : Word := 0x3F800000#32

end Sys2Proof.Machine
end

