-- ==== Sys2Proof/Config.lean ====
section
/-! DEFINITION. What an implementation fixes: the parameters of 00_scope.md R10 as plain data, and the one free
choice the spec leaves open (20_memory.md R88). -/

namespace Sys2Proof

/-- The two kinds of a data-port access (00_scope.md R10, `BusOk(addr, kind)`). -/
inductive AccessKind where
  | read
  | write
  deriving DecidableEq, Repr

/-- What the platform's bus does with a data-port access: completes it, ends it in a bus error (60_exceptions.md
R228), never answers it (70_reset_and_hazards.md R273), or routes it to something that is not ordinary memory
(20_memory.md R80, R82). -/
inductive BusAnswer where
  | ok
  | error
  | never
  | device
  deriving DecidableEq, Repr

/-- A range of data-space addresses on which the bus does not simply complete every access. -/
structure BusRegion where
  base : Nat
  size : Nat
  onRead : BusAnswer
  onWrite : BusAnswer
  deriving DecidableEq, Repr

/-- The OPEN parameters of 00_scope.md R10, and what 20_memory.md R94 leaves to the platform. They are an argument of every
meaning, not a field of State (10_state.md R59). `regions` gives `BusOk` and `BusResponds`: the first region that holds an
address answers an access to it, and an address in no region completes, one of the register window at `blkBase` too. DESIGN
CHOICE (log 2, log 26). `coherent` says whether
the data port is coherent with the host's caches (20_memory.md R94, 70_reset_and_hazards.md R266; log 16). -/
structure Platform where
  laneWidth : Nat
  blkBase : Nat
  regions : List BusRegion
  coherent : Bool
  deriving DecidableEq, Repr

/-- The suggested lane width of 00_scope.md R10. -/
def Config.suggestedLaneWidth : Nat := 8

/-- The argument at which the names without a platform (`exec`, `step`, `State.reset`, `core`) stand. DESIGN CHOICE, unsafe
(log 1): the spec leaves each parameter open. No region marks the window at address 0 as a device, so that data-port accesses
there complete on ordinary memory: DESIGN CHOICE, unsafe (log 26). -/
def Config.platform : Platform :=
  { laneWidth := Config.suggestedLaneWidth, blkBase := 0, regions := [], coherent := true }

/-- Free value (20_memory.md R88, log 8): whether the n-th host read of the data space sees, in the active word at an
address, the value the block writes during the command rather than the value at accept. -/
opaque Config.raceSeesNewValue : (n : Nat) → (wordAddr : Nat) → Bool

end Sys2Proof
end

