-- ==== Sys2Proof/Syntax.lean ====
section
/-! DEFINITION. The commands of YCCK-CSC (30_encoding.md R102) and the one format they are written in (R101). -/

namespace Sys2Proof

/-- The four commands, one constructor per row of the opcode map (30_encoding.md R102). A command word has no operand
fields (R105). -/
inductive Instr where
  | rgb2cmy
  | cmy2rgb
  | ycck2rgb
  | rgb2ycck
  deriving DecidableEq, Repr

/-- The fields of the format CMD32 (30_encoding.md R101): OPC in bits 3:0 and RSVD in bits 31:4. -/
structure CommandFields where
  opc : BitVec 4
  rsvd : BitVec 28
  deriving DecidableEq, Repr

/-- Every row of the opcode map, in its order. -/
def Instr.all : List Instr := [.rgb2cmy, .cmy2rgb, .ycck2rgb, .rgb2ycck]

end Sys2Proof
end

