-- ==== Sys2Proof/WellFormed.lean ====
section
/-! DEFINITION. Which command fields spell a command (30_encoding.md R101 to R104) and which parameter values a
platform may have (00_scope.md R10). -/

namespace Sys2Proof

/-- The reserved field is zero (30_encoding.md R101: "reserved; must be zero"). -/
def CommandFields.reservedClear (f : CommandFields) : Bool := f.rsvd == 0#28

/-- The operation code is one of the four of 30_encoding.md R102; 0x0 and 0x5 to 0xF are reserved (R104). -/
def CommandFields.opcodeMapped (f : CommandFields) : Bool :=
  f.opc == 1#4 || f.opc == 2#4 || f.opc == 3#4 || f.opc == 4#4

/-- The fields spell a command (30_encoding.md R103 gives every other word as illegal). -/
def CommandFields.wellFormed (f : CommandFields) : Bool := f.reservedClear && f.opcodeMapped

/-- The fields of a command's word (30_encoding.md R102). -/
def Instr.fields : Instr → CommandFields
  | .rgb2cmy => { opc := 1#4, rsvd := 0#28 }
  | .cmy2rgb => { opc := 2#4, rsvd := 0#28 }
  | .ycck2rgb => { opc := 3#4, rsvd := 0#28 }
  | .rgb2ycck => { opc := 4#4, rsvd := 0#28 }

/-- A command is well formed when its fields are. A command has no operand, so no operand is checked (R105). -/
def Instr.wellFormed (i : Instr) : Bool := i.fields.wellFormed

/-- LANE_WIDTH is an integer 1 <= W <= 65535 (00_scope.md R10). -/
def Platform.laneWidthInRange (p : Platform) : Bool :=
  decide (1 ≤ p.laneWidth) && decide (p.laneWidth ≤ 65535)

/-- The register window is 4-byte aligned, so that 10_state.md R46 (address) and 30_encoding.md R107 (offset) agree
(log 25). -/
def Platform.windowAligned (p : Platform) : Bool := p.blkBase % 4 == 0

/-- The parameter values a platform may have. -/
def Platform.wellFormed (p : Platform) : Bool := p.laneWidthInRange && p.windowAligned

end Sys2Proof
end

