-- ==== Sys2Proof/Decode.lean ====
section
/-! DEFINITION. Decoding a command word, and the encoder (30_encoding.md R100 to R106). -/

namespace Sys2Proof

/-- Why bytes spell no command. Each is an illegal encoding of 30_encoding.md R103, but for `truncated`: a command word
is always 32 bits (R100). -/
inductive DecodeError where
  /-- Fewer than four bytes were given. -/
  | truncated
  /-- RSVD, bits 31:4, is not zero. -/
  | reservedBitsSet (rsvd : BitVec 28)
  /-- OPC is 0x0 or in 0x5 to 0xF. -/
  | reservedOpcode (opc : BitVec 4)
  deriving DecidableEq, Repr

/-- OPC is bits 3:0 and RSVD bits 31:4 of a command word (30_encoding.md R101). -/
def commandFields (w : Word) : CommandFields :=
  { opc := w.extractLsb' 0 4, rsvd := w.extractLsb' 4 28 }

/-- The row of 30_encoding.md R102 that OPC selects. -/
def opcodeRow (opc : BitVec 4) : Except DecodeError Instr :=
  if opc = 1#4 then .ok .rgb2cmy
  else if opc = 2#4 then .ok .cmy2rgb
  else if opc = 3#4 then .ok .ycck2rgb
  else if opc = 4#4 then .ok .rgb2ycck
  else .error (.reservedOpcode opc)

/-- Decoding: RSVD must be 0, then OPC selects the row (30_encoding.md R106). -/
def decode (w : Word) : Except DecodeError Instr :=
  let f := commandFields w
  if f.reservedClear then opcodeRow f.opc else .error (.reservedBitsSet f.rsvd)

/-- The 32-bit value of four bytes, lowest address first (20_memory.md R72: byte k holds bits 8k+7:8k). -/
def wordOfBytes (b0 b1 b2 b3 : Byte) : Word := b3 ++ b2 ++ b1 ++ b0

/-- Byte `k` of a 32-bit value in little-endian order (20_memory.md R72). -/
def byteOfWord (w : Word) (k : Nat) : Byte := w.extractLsb' (8 * k) 8

/-- Decoding any bytes: the first four, little-endian, are the command word, and the rest is left over. -/
def decodeBytes : List Byte → Except DecodeError (Instr × List Byte)
  | b0 :: b1 :: b2 :: b3 :: rest => (decode (wordOfBytes b0 b1 b2 b3)).map fun i => (i, rest)
  | _ => .error .truncated

/-- The command word with the given fields: `RSVD[31:4] ++ OPC[3:0]` (30_encoding.md R101). -/
def wordOfFields (f : CommandFields) : Word := f.rsvd ++ f.opc

/-- The encoder: a command's word (30_encoding.md R102). -/
def encode (i : Instr) : Word := wordOfFields i.fields

/-- The encoder's word as the bytes a byte-addressed platform carries (20_memory.md R72). -/
def encodeBytes (i : Instr) : List Byte :=
  [byteOfWord (encode i) 0, byteOfWord (encode i) 1, byteOfWord (encode i) 2, byteOfWord (encode i) 3]

/-- The instruction the decoder reads from a table row's word, whose bits above `nbits` are 0 and which fits one command
word. -/
def decodeTableWord (nbits w : Nat) : Option Instr :=
  let bits := w % 2 ^ nbits
  if bits < 2 ^ 32 then
    let cmd := BitVec.ofNat 32 bits
    match decodeBytes [byteOfWord cmd 0, byteOfWord cmd 1, byteOfWord cmd 2, byteOfWord cmd 3] with
    | .ok (i, _) => some i
    | .error _ => none
  else none

theorem decode_rgb2cmy : decode 0x00000001#32 = .ok .rgb2cmy := by decide

theorem decode_cmy2rgb : decode 0x00000002#32 = .ok .cmy2rgb := by decide

theorem decode_ycck2rgb : decode 0x00000003#32 = .ok .ycck2rgb := by decide

theorem decode_rgb2ycck : decode 0x00000004#32 = .ok .rgb2ycck := by decide

end Sys2Proof
end

