-- ==== Sys2Proof/Machine/State.lean ====
section
/-! DEFINITION. The state of YCCK-CSC: every register and internal register of 10_state.md, the data space, the events the
outside world presents, and the state after reset. -/

namespace Sys2Proof.Machine

/-- `state` of 10_state.md R50. STATUS.BUSY is 1 exactly when it is `run`. -/
inductive EngineState where
  | idle
  | run
  deriving DecidableEq, Repr

/-- The error codes of 60_exceptions.md R221. Codes 10 to 15 are never produced (R227). -/
inductive ErrorCode where
  | none
  | illegalOp
  | lenMismatch
  | badMax
  | badHalf
  | badKScale
  | misaligned
  | range
  | overlap
  | bus
  deriving DecidableEq, Repr

/-- The data space as a list of (address, byte) pairs, addresses strictly rising, no entry equal to what an unlisted
address reads as. -/
abbrev Memory := List Host.Cell

/-- A data-port access that the bus has not answered (70_reset_and_hazards.md R273); `data` is what a write carries. -/
structure PendingAccess where
  kind : AccessKind
  addr : Word
  data : Word
  deriving DecidableEq, Repr

/-- What the outside world does, one atomic event each (60_exceptions.md R233). -/
inductive HostEvent where
  /-- A register-port read of `size` bytes at platform address `addr` (30_encoding.md R107). -/
  | portRead (size addr : Nat)
  /-- A register-port write of `size` bytes at platform address `addr` (30_encoding.md R107). -/
  | portWrite (size addr : Nat) (data : Word)
  /-- The outside world lets the engine take its next step before its next event. -/
  | engineTurn
  /-- The pseudo-instruction `wait` (30_encoding.md R109). -/
  | wait
  /-- A host read of `count` bytes of the data space at `addr`. -/
  | memRead (addr count : Nat)
  /-- A host write of bytes to the data space at `addr`. -/
  | memWrite (addr : Nat) (bytes : List Byte)
  /-- The reset input is asserted after `accesses` of the data accesses of the engine's step have completed; `landed` says
  whether a data-port write then in flight took effect (70_reset_and_hazards.md R262). -/
  | assertReset (accesses : Nat) (landed : Bool)
  /-- The reset input is released. -/
  | releaseReset
  /-- The host's caches write back their dirty words that hold any of `count` bytes from `addr` on: a clean by the host
  (20_memory.md R94), or an eviction. -/
  | cacheClean (addr count : Nat)
  /-- The host's caches drop their copies of words that hold any of `count` bytes from `addr` on: an invalidation
  (20_memory.md R94), or a replacement. -/
  | cacheInvalidate (addr count : Nat)
  deriving DecidableEq, Repr

/-- An aligned word that the host's caches hold a copy of, the bytes from `4 * index` on; `dirty` when the host wrote to it and
memory has not got it yet. A copy is of a whole word, so that the host sees a word old or new and never a mix (20_memory.md R79,
R88; log 16). -/
structure CachedWord where
  index : Nat
  value : Word
  dirty : Bool
  deriving DecidableEq, Repr

/-- What the last event returned to the host. -/
inductive Response where
  | none
  /-- The data of a register-port read. -/
  | data (value : Word)
  /-- A register-port write was performed. -/
  | written
  /-- The slave error of 10_state.md R46, without data. -/
  | slaveError
  /-- The bytes of a host read of the data space. -/
  | bytes (value : List Byte)
  deriving DecidableEq, Repr

structure State where
  /-- CMD as it reads (10_state.md R34). -/
  lastCmd : Word
  /-- STATUS.DONE (10_state.md R35). -/
  done : Bool
  /-- STATUS.ERR (10_state.md R35). -/
  err : Bool
  /-- STATUS.OVR (10_state.md R35). -/
  ovr : Bool
  /-- STATUS.ERRCODE (10_state.md R35). -/
  errCode : ErrorCode
  /-- IRQ_EN: DONE_IE, ERR_IE, OVR_IE in bits 0, 1, 2 (10_state.md R37). -/
  irqEn : BitVec 3
  /-- MAX_VALUE (10_state.md R38). -/
  maxValue : Word
  /-- HALF_VALUE (10_state.md R39). -/
  halfValue : Word
  /-- K_SCALE (10_state.md R40). -/
  kScale : Word
  /-- COMP0_BASE to COMP3_BASE (10_state.md R41). -/
  compBase : Quad Word
  /-- COMP0_LEN to COMP3_LEN (10_state.md R42). -/
  compLen : Quad Word
  /-- `i`, visible as PROGRESS (10_state.md R43, R55). -/
  progress : Word
  /-- ERR_ADDR (10_state.md R44). -/
  errAddr : Word
  /-- `state` (10_state.md R50). -/
  engine : EngineState
  /-- `op` (10_state.md R51). -/
  op : Instr
  /-- S_MAX (10_state.md R52). -/
  sMax : Word
  /-- S_HALF (10_state.md R52). -/
  sHalf : Word
  /-- S_KSCALE (10_state.md R52). -/
  sKScale : Word
  /-- S_BASE[0..3] (10_state.md R53). -/
  sBase : Quad Word
  /-- S_LEN (10_state.md R53). -/
  sLen : Word
  /-- S_NW (10_state.md R54). -/
  sNW : Word
  /-- lane[c][j], W registers for each component (10_state.md R56). -/
  lane : Quad (List Word)
  /-- The data space (20_memory.md R70). -/
  mem : Memory
  /-- The reset input is held (70_reset_and_hazards.md R261). -/
  resetHeld : Bool
  /-- The data-port access that the bus never answers, if the engine is stuck at one (log 11). -/
  outstanding : Option PendingAccess
  /-- The host's caches on a platform where the data port is not coherent with them (20_memory.md R94, log 16): word
  indices strictly rising. Not the block's. -/
  hostCache : List CachedWord
  /-- The model's own: the events still to come, oldest first (log 4). -/
  inputs : List HostEvent
  /-- The model's own: what the last event returned to the host (log 9). -/
  response : Response
  /-- The model's own: the data space at the accept of the running command (20_memory.md R88, log 8). -/
  memAtAccept : Memory
  /-- The model's own: how many host reads of the data space there were (log 8). -/
  freeCount : Nat
  deriving DecidableEq, Repr

/-- Why the machine stops with a fault. -/
inductive Fault where
  /-- A host write to a byte of an active region while BUSY (20_memory.md R89: "a model faults the run"). Raised by a host
  data-space write, and by a write-back of the host's caches to such a byte (70_reset_and_hazards.md R267, log 16). Safe. -/
  | hostWriteDuringBusy
  /-- A register-port access whose address is not in the 256-byte window (30_encoding.md R107). Raised by a register-port
  event. Safe (log 14). -/
  | outsideRegisterWindow
  /-- A host data-space access that passes 2^32 (20_memory.md R70). Raised by a host data-space event. Safe (log 23). -/
  | outsideDataSpace
  deriving DecidableEq, Repr

/-- Why the machine gives a step no meaning. -/
inductive Refusal where
  /-- The instruction has no meaning yet. Raised by exec's arms only. Safe. -/
  | notModelled (mnemonic : String)
  /-- A register-port access while reset is held (70_reset_and_hazards.md R261: "a model refuses"). Raised by a
  register-port event. Safe (log 13). -/
  | portAccessDuringReset
  /-- A data-port access to an address that a region of the platform answers as a device, the block's own window where a region
  says so included (20_memory.md R80, R82; 93 P14: "A model may `refuse` such a configuration"). Raised by an engine step. Safe
  (log 15; log 26 for a window that no region names). -/
  | deviceAccess (addr : Word)
  deriving DecidableEq, Repr

/-- The state right after a reset of a block with given parameters (10_state.md R31 and R60, 70_reset_and_hazards.md R260).
The values the spec leaves unspecified (op, the shadows, the lane registers) are zero or the first command: DESIGN CHOICE (log
6). Nothing of the data space is listed: DESIGN CHOICE (log 7). -/
def State.resetOn (p : Platform) : State where
  lastCmd := 0#32
  done := false
  err := false
  ovr := false
  errCode := .none
  irqEn := 0#3
  maxValue := 0#32
  halfValue := 0#32
  kScale := 0#32
  compBase := Quad.const 0#32
  compLen := Quad.const 0#32
  progress := 0#32
  errAddr := 0#32
  engine := .idle
  op := .rgb2cmy
  sMax := 0#32
  sHalf := 0#32
  sKScale := 0#32
  sBase := Quad.const 0#32
  sLen := 0#32
  sNW := 0#32
  lane := Quad.const (List.replicate p.laneWidth 0#32)
  mem := []
  resetHeld := false
  outstanding := .none
  hostCache := []
  inputs := []
  response := .none
  memAtAccept := []
  freeCount := 0

/-- The state right after reset at the parameters of Config (log 1). -/
def State.reset : State := State.resetOn Config.platform

end Sys2Proof.Machine
end

