-- ==== Sys2Proof/Machine/Ops.lean ====
section
/-! DEFINITION. The named operations every command shares: the data space byte by byte and word by word, the bus, the lane
registers, and the one exceptional transfer of the block with the recovery from it. -/

namespace Sys2Proof.Machine

/-! ### The data space -/

/-- What an address with no entry reads as. DESIGN CHOICE, unsafe (log 7): the spec gives memory no contents at power-on;
95_test_vectors.md L3 takes "Memory not listed is 0". -/
def unlistedByte : Byte := 0#8

/-- The canonical form above address `lo`: addresses strictly rising, inside the data space of 2^32 bytes (20_memory.md
R70), no entry equal to `unlistedByte`. -/
def Memory.wfFrom (lo : Nat) : Memory → Bool
  | [] => true
  | (a, b) :: rest => decide (lo ≤ a) && decide (a < 2 ^ 32) && (b != unlistedByte) && Memory.wfFrom (a + 1) rest

/-- The canonical form of a memory. -/
def Memory.wf (mem : Memory) : Bool := Memory.wfFrom 0 mem

/-- One byte of the data space. -/
def Memory.readByte : Memory → Nat → Byte
  | [], _ => unlistedByte
  | (a, b) :: rest, x => if x = a then b else Memory.readByte rest x

/-- An entry put before entries of higher addresses; the unlisted byte is not listed. -/
def Memory.consByte (x : Nat) (v : Byte) (rest : Memory) : Memory :=
  if v = unlistedByte then rest else (x, v) :: rest

/-- One byte of the data space written, the canonical form kept. -/
def Memory.writeByte : Memory → Nat → Byte → Memory
  | [], x, v => Memory.consByte x v []
  | (a, b) :: rest, x, v =>
    if x < a then Memory.consByte x v ((a, b) :: rest)
    else if x = a then Memory.consByte x v rest
    else (a, b) :: Memory.writeByte rest x v

/-- The address of byte `k` of the word at `addr`. An address is 32 bits wide (00_scope.md R10); no word the block accesses
passes 2^32 (40_command_engine.md R150), and one that did would wrap (log 17). -/
def byteAddress (addr : Word) (k : Nat) : Nat := (addr + BitVec.ofNat 32 k).toNat

/-- The 32-bit value of the four bytes at `addr`, little-endian (00_scope.md R14, 20_memory.md R72). -/
def Memory.readWord (mem : Memory) (addr : Word) : Word :=
  wordOfBytes (mem.readByte (byteAddress addr 0)) (mem.readByte (byteAddress addr 1))
    (mem.readByte (byteAddress addr 2)) (mem.readByte (byteAddress addr 3))

/-- A 32-bit value written to the four bytes at `addr`, little-endian (00_scope.md R14, 20_memory.md R72). -/
def Memory.writeWord (mem : Memory) (addr v : Word) : Memory :=
  (((mem.writeByte (byteAddress addr 0) (byteOfWord v 0)).writeByte (byteAddress addr 1) (byteOfWord v 1)).writeByte
    (byteAddress addr 2) (byteOfWord v 2)).writeByte (byteAddress addr 3) (byteOfWord v 3)

/-- Consecutive bytes written from `addr` upwards. -/
def Memory.writeBytes : Memory → Nat → List Byte → Memory
  | mem, _, [] => mem
  | mem, addr, b :: rest => Memory.writeBytes (mem.writeByte addr b) (addr + 1) rest

/-! ### The bus -/

/-- The region holds the address. -/
def regionHolds (r : BusRegion) (addr : Word) : Bool :=
  decide (r.base ≤ addr.toNat) && decide (addr.toNat < r.base + r.size)

/-- What the region's bus does with an access of the given kind. -/
def regionAnswer (r : BusRegion) : AccessKind → BusAnswer
  | .read => r.onRead
  | .write => r.onWrite

/-- What the platform's bus does with a data-port access: the first region that holds the address says, and an address in no
region completes on ordinary memory (00_scope.md R10, log 2). An address of the block's own register window is no exception:
20_memory.md R82 leaves the effect of such an access to the platform, which says it by a region, and where no region says
`device` it completes on ordinary memory. DESIGN CHOICE, unsafe (log 26). -/
def busAnswer (p : Platform) (addr : Word) (kind : AccessKind) : BusAnswer :=
  match p.regions.find? (regionHolds · addr) with
  | some r => regionAnswer r kind
  | none => .ok

/-- The platform predicate `BusOk(addr, kind)` (00_scope.md R10): the access does not end in a bus error. -/
def busOk (p : Platform) (addr : Word) (kind : AccessKind) : Bool := busAnswer p addr kind != .error

/-- The parameter `BusResponds` (00_scope.md R10): no access waits for ever. -/
def busResponds (p : Platform) : Bool :=
  p.regions.all fun r => r.onRead != .never && r.onWrite != .never

/-! ### The lane registers -/

/-- lane[c][j] (10_state.md R56). -/
def State.laneReg (s : State) (c : Component) (j : Nat) : Word := (s.lane.get c).getD j 0#32

/-- `lane[c][j] <- v` (10_state.md R56). -/
def State.setLaneReg (s : State) (c : Component) (j : Nat) (v : Word) : State :=
  { s with lane := s.lane.set c ((s.lane.get c).set j v) }

/-! ### Plain updates -/

/-- The data space replaced. -/
def State.setMem (s : State) (mem : Memory) : State := { s with mem := mem }

/-- The events still to come replaced. -/
def State.setInputs (s : State) (inputs : List HostEvent) : State := { s with inputs := inputs }

/-- What the event returns to the host. -/
def State.setResponse (s : State) (r : Response) : State := { s with response := r }

/-- The engine waits for an access that the bus never answers (70_reset_and_hazards.md R273: "the block stays BUSY for
ever"). -/
def State.setOutstanding (s : State) (a : PendingAccess) : State := { s with outstanding := some a }

/-! ### The exceptional transfer -/

/-- `raise Error(code, info)` (00_scope.md R15), the one exceptional transfer of the block: it goes to IDLE, sets ERR and
ERRCODE and records ERR_ADDR, which is 0 for a rejection (60_exceptions.md R224, R230) and the failing address for an abort
(R231). PROGRESS stays where it is, and DONE stays as it is, which is 0 in both cases. There is no vector and no saved
program counter (R220, R234). -/
def raiseError (code : ErrorCode) (addr : Word) (s : State) : State :=
  { s with engine := .idle, err := true, errCode := code, errAddr := addr }

/-- The recovery (60_exceptions.md R235): what writing 1 to STATUS.ERR clears (10_state.md R36). -/
def clearError (s : State) : State := { s with err := false, errCode := .none, errAddr := 0#32 }

/-- Completion (40_command_engine.md R149): IDLE and DONE in one update. -/
def complete (s : State) : State := { s with engine := .idle, done := true }

/-- A CMD write while BUSY is dropped and sets OVR, and changes nothing else (40_command_engine.md R132). -/
def overrun (s : State) : State := { s with ovr := true }

end Sys2Proof.Machine
end

