-- ==== Sys2Proof/Machine/Flags.lean ====
section
/-! DEFINITION. The flags of STATUS, how they are read and cleared, and the interrupt output (10_state.md R35 to R37, R48;
60_exceptions.md R221, R236). -/

namespace Sys2Proof.Machine

/-- ERRCODE as STATUS bits 11:8 read it (60_exceptions.md R221). -/
def errorCodeBits : ErrorCode → BitVec 4
  | .none => 0#4
  | .illegalOp => 1#4
  | .lenMismatch => 2#4
  | .badMax => 3#4
  | .badHalf => 4#4
  | .badKScale => 5#4
  | .misaligned => 6#4
  | .range => 7#4
  | .overlap => 8#4
  | .bus => 9#4

/-- STATUS.BUSY is 1 exactly when state = RUN (10_state.md R50). -/
def busy (s : State) : Bool := s.engine == .run

/-- A one-bit field. -/
def flagBit (b : Bool) : BitVec 1 := BitVec.ofBool b

/-- STATUS as it reads: `zext_32(ERRCODE ++ 0b0000 ++ OVR ++ ERR ++ DONE ++ BUSY)` (40_command_engine.md R154). -/
def statusWord (s : State) : Word :=
  (errorCodeBits s.errCode ++ 0#4 ++ flagBit s.ovr ++ flagBit s.err ++ flagBit s.done ++ flagBit (busy s)).setWidth 32

/-- Writing 1 to STATUS.DONE. -/
def clearDone (s : State) : State := { s with done := false }

/-- Writing 1 to STATUS.OVR. -/
def clearOverrun (s : State) : State := { s with ovr := false }

/-- A STATUS write (10_state.md R36): bits 1, 2 and 3 clear DONE, ERR (with ERRCODE and ERR_ADDR) and OVR; every other bit
is ignored. -/
def writeStatus (v : Word) (s : State) : State :=
  let s := if v.getLsbD 1 then clearDone s else s
  let s := if v.getLsbD 2 then clearError s else s
  if v.getLsbD 3 then clearOverrun s else s

/-- The interrupt output (60_exceptions.md R236). -/
def irq (s : State) : Bool :=
  (s.done && s.irqEn.getLsbD 0) || (s.err && s.irqEn.getLsbD 1) || (s.ovr && s.irqEn.getLsbD 2)

end Sys2Proof.Machine
end

