-- ==== Sys2Proof/Machine/Operands.lean ====
section
/-! DEFINITION. The operands of a command: what the accept latches and checks (40_command_engine.md R131 to R144), which
components each command reads and writes (R157), and where an element lies (R150). -/

namespace Sys2Proof.Machine

/-- The immutable Precision Context a running command reads: S_MAX, S_HALF, S_KSCALE (10_state.md R52). -/
structure Precision where
  sMax : Word
  sHalf : Word
  sKScale : Word
  deriving DecidableEq, Repr

/-- The Precision Context of the running command. -/
def State.precision (s : State) : Precision := ⟨s.sMax, s.sHalf, s.sKScale⟩

/-- What a command's rules fix (40_command_engine.md R146, R157): the components read and written in ascending order,
whether BAD_KSCALE is checked (R140), and the element function. -/
structure CommandShape where
  reads : List Component
  writes : List Component
  checksKScale : Bool
  element : Precision → Quad Word → Word × Word × Word

/-- kScale = fdiv(1, fmul(max, max)), the product first (40_command_engine.md R134). -/
def kScaleOf (maxValue : Word) : Word := fdiv ONE (fmul maxValue maxValue)

/-- The shadows latched at accept, and kScale computed and shown (40_command_engine.md R133, R134). -/
def latchShadows (s : State) : State :=
  { s with
    sMax := s.maxValue
    sHalf := s.halfValue
    sBase := s.compBase
    sLen := s.compLen.c0
    sKScale := kScaleOf s.maxValue
    kScale := kScaleOf s.maxValue }

/-- The part of the accept before its checks (40_command_engine.md R131): LAST_CMD, the flags cleared but for OVR, PROGRESS
0, the shadows. -/
def beginAccept (w : Word) (s : State) : State :=
  latchShadows
    { s with
      lastCmd := w
      done := false
      err := false
      errCode := .none
      errAddr := 0#32
      progress := 0#32 }

/-- The four length registers are equal (40_command_engine.md R137). -/
def lengthsEqual (s : State) : Bool :=
  s.compLen.c0 == s.compLen.c1 && s.compLen.c1 == s.compLen.c2 && s.compLen.c2 == s.compLen.c3

/-- S_MAX is finite and positive (40_command_engine.md R138). -/
def maxLegal (s : State) : Bool := isFinite s.sMax && isPositive s.sMax

/-- S_HALF is finite (40_command_engine.md R139). -/
def halfLegal (s : State) : Bool := isFinite s.sHalf

/-- S_KSCALE is finite and positive (40_command_engine.md R140). -/
def kScaleLegal (s : State) : Bool := isFinite s.sKScale && isPositive s.sKScale

/-- Every buffer base is 4-byte aligned (40_command_engine.md R141). -/
def basesAligned (s : State) : Bool :=
  Component.all.all fun c => (s.sBase.get c).toNat % 4 == 0

/-- Every region ends inside the data space (40_command_engine.md R142), on unbounded integers. -/
def regionsInRange (s : State) : Bool :=
  Component.all.all fun c => decide ((s.sBase.get c).toNat + 4 * s.sLen.toNat ≤ 2 ^ 32)

/-- The pairs c < d of different components. -/
def componentPairs : List (Component × Component) :=
  [(.component0, .component1), (.component0, .component2), (.component0, .component3),
   (.component1, .component2), (.component1, .component3), (.component2, .component3)]

/-- |a - b| on unbounded integers (40_command_engine.md R135). -/
def absDiff (a b : Word) : Nat := (a.toNat - b.toNat) + (b.toNat - a.toNat)

/-- No two regions share a byte (40_command_engine.md R143). -/
def regionsDisjoint (s : State) : Bool :=
  componentPairs.all fun (c, d) => decide (4 * s.sLen.toNat ≤ absDiff (s.sBase.get c) (s.sBase.get d))

/-- `Check(w)` for a legal command word: the first failing check in the order of 40_command_engine.md R135, on the latched
shadows and the length registers. ILLEGAL_OP comes before all of them (R136) and is the decoder's refusal. -/
def checkCommand (checksKScale : Bool) (s : State) : ErrorCode :=
  if !lengthsEqual s then .lenMismatch
  else if !maxLegal s then .badMax
  else if !halfLegal s then .badHalf
  else if checksKScale && !kScaleLegal s then .badKScale
  else if s.sLen == 0#32 then .none
  else if !basesAligned s then .misaligned
  else if !regionsInRange s then .range
  else if !regionsDisjoint s then .overlap
  else .none

/-- S_NW = floor(S_LEN / W) * W (10_state.md R54). -/
def laneEnd (laneWidth : Nat) (len : Word) : Word := BitVec.ofNat 32 (len.toNat / laneWidth * laneWidth)

/-- The part of the accept after checks that pass (40_command_engine.md R131): op and S_NW, then DONE at once for a zero
length (R144), else RUN. -/
def startCommand (p : Platform) (i : Instr) (s : State) : State :=
  let s := { s with op := i, sNW := laneEnd p.laneWidth s.sLen }
  if s.sLen = 0#32 then { s with done := true }
  else { s with engine := .run, memAtAccept := s.mem }

/-- The accept of a legal command word (40_command_engine.md R131). -/
def accept (p : Platform) (i : Instr) (checksKScale : Bool) (s : State) : State :=
  let s := beginAccept (encode i) s
  let code := checkCommand checksKScale s
  if code = .none then startCommand p i s else raiseError code 0#32 s

/-- The accept of an illegal command word: rejected with ILLEGAL_OP (30_encoding.md R103, 40_command_engine.md R136). -/
def acceptIllegal (w : Word) (s : State) : State := raiseError .illegalOp 0#32 (beginAccept w s)

/-- EA(c, k) = S_BASE[c] + 4*k, computed on 32 bits (40_command_engine.md R150). -/
def elementAddress (s : State) (c : Component) (k : Nat) : Word := s.sBase.get c + BitVec.ofNat 32 (4 * k)

/-- The address lies in Region(c) = [S_BASE[c], S_BASE[c] + 4*S_LEN) (20_memory.md R71). -/
def inRegion (s : State) (c : Component) (addr : Nat) : Bool :=
  decide ((s.sBase.get c).toNat ≤ addr) && decide (addr < (s.sBase.get c).toNat + 4 * s.sLen.toNat)

/-- The component whose active region holds the address, while a command runs (20_memory.md R88). -/
def activeComponent (s : State) (addr : Nat) : Option Component :=
  if busy s then Component.all.find? (inRegion s · addr) else none

end Sys2Proof.Machine
end

