-- ==== Sys2Proof/Machine/Engine.lean ====
section
/-! DEFINITION. The engine's steps, shared by the four commands (40_command_engine.md R145 to R149, 20_memory.md R84). -/

namespace Sys2Proof.Machine

/-- How a read or write phase ends: all its accesses performed, one ended in a bus error (60_exceptions.md R229), one never
answered (70_reset_and_hazards.md R273), or one that reaches a device (20_memory.md R80). -/
inductive PhaseResult where
  | done (s : State)
  | busError (s : State) (addr : Word)
  | unanswered (s : State) (access : PendingAccess)
  | device (addr : Word)
  deriving DecidableEq, Repr

/-- m: W elements while `i < S_NW` (a lane step), else one (a scalar step) (40_command_engine.md R145). -/
def stepSize (p : Platform) (s : State) : Nat :=
  if s.progress.toNat < s.sNW.toNat then p.laneWidth else 1

/-- Components ascending, and elements ascending within each (20_memory.md R84). -/
def accessOrder (components : List Component) (m : Nat) : List (Component × Nat) :=
  components.flatMap fun c => (List.range m).map fun j => (c, j)

/-- The read phase: `lane[c][j] <- f32(MemRead(EA(c, i+j), 4))` in order (40_command_engine.md R147). -/
def readPhase (p : Platform) : List (Component × Nat) → State → PhaseResult
  | [], s => .done s
  | (c, j) :: rest, s =>
    let addr := elementAddress s c (s.progress.toNat + j)
    match busAnswer p addr .read with
    | .ok => readPhase p rest (s.setLaneReg c j (s.mem.readWord addr))
    | .error => .busError s addr
    | .never => .unanswered s ⟨.read, addr, 0#32⟩
    | .device => .device addr

/-- The input values of element j in the lane registers. -/
def laneInputs (s : State) (j : Nat) : Quad Word :=
  ⟨s.laneReg .component0 j, s.laneReg .component1 j, s.laneReg .component2 j, s.laneReg .component3 j⟩

/-- `(lane[0][j], lane[1][j], lane[2][j]) <- F_op(...)` (40_command_engine.md R147). -/
def computeElement (element : Precision → Quad Word → Word × Word × Word) (s : State) (j : Nat) : State :=
  let y := element s.precision (laneInputs s j)
  ((s.setLaneReg .component0 j y.1).setLaneReg .component1 j y.2.1).setLaneReg .component2 j y.2.2

/-- The compute phase over the m elements of a step (40_command_engine.md R147). -/
def computePhase (element : Precision → Quad Word → Word × Word × Word) (m : Nat) (s : State) : State :=
  (List.range m).foldl (computeElement element) s

/-- The writes of a step in order, each an address and a lane register's value (40_command_engine.md R147). -/
def stepWrites (components : List Component) (m : Nat) (s : State) : List (Word × Word) :=
  (accessOrder components m).map fun (c, j) => (elementAddress s c (s.progress.toNat + j), s.laneReg c j)

/-- The write phase: `MemWrite(EA(c, i+j), 4, bits(lane[c][j]))` in order (40_command_engine.md R147). -/
def writePhase (p : Platform) : List (Word × Word) → State → PhaseResult
  | [], s => .done s
  | (addr, v) :: rest, s =>
    match busAnswer p addr .write with
    | .ok => writePhase p rest (s.setMem (s.mem.writeWord addr v))
    | .error => .busError s addr
    | .never => .unanswered s ⟨.write, addr, v⟩
    | .device => .device addr

/-- The end of a step (40_command_engine.md R147): `i <- i + m`, and completion when `i = S_LEN` (R149). -/
def finishStep (m : Nat) (s : State) : State :=
  let s := { s with progress := s.progress + BitVec.ofNat 32 m }
  if s.progress = s.sLen then complete s else s

/-- What follows a phase: the rest of the step, the abort with code BUS (60_exceptions.md R228, R231), the wait for a bus
that never answers (70_reset_and_hazards.md R273), or the refusal of a device access (log 15). -/
def afterPhase (r : PhaseResult) (rest : State → Host.Outcome State Fault Refusal) :
    Host.Outcome State Fault Refusal :=
  match r with
  | .done s => rest s
  | .busError s addr => .next (raiseError .bus addr s)
  | .unanswered s access => .next (s.setOutstanding access)
  | .device addr => .refused (.deviceAccess addr)

/-- `Step(m)` of 40_command_engine.md R147, a lane step or a scalar step (R148): no write before every read (20_memory.md
R84). -/
def engineStep (p : Platform) (shape : CommandShape) (s : State) : Host.Outcome State Fault Refusal :=
  let m := stepSize p s
  afterPhase (readPhase p (accessOrder shape.reads m) s) fun s =>
    let s := computePhase shape.element m s
    afterPhase (writePhase p (stepWrites shape.writes m s) s) fun s => .next (finishStep m s)

/-- The next event of a command (log 3): its accept while IDLE (40_command_engine.md R131), its next engine step while RUN
(R145). An engine stuck at an access that the bus never answers stays as it is (70_reset_and_hazards.md R273). -/
def runCommand (p : Platform) (i : Instr) (shape : CommandShape) (s : State) : Host.Outcome State Fault Refusal :=
  match s.engine with
  | .idle => .next (accept p i shape.checksKScale s)
  | .run => if s.outstanding.isSome then .next s else engineStep p shape s

end Sys2Proof.Machine
end

