-- ==== Sys2Proof/Machine/CmykBridge.lean ====
section
/-! DEFINITION. The CMYK Bridge commands RGB2CMY and CMY2RGB (41_cmyk_bridge.md). -/

namespace Sys2Proof.Machine

/-- F_RGB2CMY (41_cmyk_bridge.md R170). -/
def elementRgb2cmy (p : Precision) (x : Quad Word) : Word × Word × Word :=
  (fsub p.sMax x.c0, fsub p.sMax x.c1, fsub p.sMax x.c2)

/-- RGB2CMY reads and writes components 0 to 2 (40_command_engine.md R157) and does not check kScale (R140). -/
def shapeRgb2cmy : CommandShape :=
  { reads := [.component0, .component1, .component2]
    writes := [.component0, .component1, .component2]
    checksKScale := false
    element := elementRgb2cmy }

/-- RGB2CMY, command word 0x00000001 (41_cmyk_bridge.md R170). -/
def execRgb2cmyOn (p : Platform) (s : State) : Host.Outcome State Fault Refusal := runCommand p .rgb2cmy shapeRgb2cmy s

/-- RGB2CMY at the parameters of Config (log 1). -/
def execRgb2cmy (s : State) : Host.Outcome State Fault Refusal := execRgb2cmyOn Config.platform s

/-- F_CMY2RGB (41_cmyk_bridge.md R171). -/
def elementCmy2rgb (p : Precision) (x : Quad Word) : Word × Word × Word :=
  (fsub p.sMax x.c0, fsub p.sMax x.c1, fsub p.sMax x.c2)

/-- CMY2RGB reads and writes components 0 to 2 (40_command_engine.md R157) and does not check kScale (R140). -/
def shapeCmy2rgb : CommandShape :=
  { reads := [.component0, .component1, .component2]
    writes := [.component0, .component1, .component2]
    checksKScale := false
    element := elementCmy2rgb }

/-- CMY2RGB, command word 0x00000002 (41_cmyk_bridge.md R171). -/
def execCmy2rgbOn (p : Platform) (s : State) : Host.Outcome State Fault Refusal := runCommand p .cmy2rgb shapeCmy2rgb s

/-- CMY2RGB at the parameters of Config (log 1). -/
def execCmy2rgb (s : State) : Host.Outcome State Fault Refusal := execCmy2rgbOn Config.platform s

end Sys2Proof.Machine
end

