-- ==== Sys2Proof/Machine/RgbToYcck.lean ====
section
/-! DEFINITION. The RGB-to-encoded command RGB2YCCK (43_rgb_to_ycck.md). -/

namespace Sys2Proof.Machine

/-- Stage A then Stage B's reconstruction of one sample: both subtractions are performed (43_rgb_to_ycck.md R202, R203). -/
def reconstruct (sMax x : Word) : Word := fsub sMax (fsub sMax x)

/-- Luma, products first, sums left to right (43_rgb_to_ycck.md R204). -/
def encodedLuma (r g b : Word) : Word := fadd (fadd (fmul C_0299 r) (fmul C_0587 g)) (fmul C_0114 b)

/-- Blue-difference chroma (43_rgb_to_ycck.md R205). -/
def encodedCb (half r g b : Word) : Word :=
  fadd (fsub (fsub half (fmul C_0168736 r)) (fmul C_0331264 g)) (fmul C_05 b)

/-- Red-difference chroma (43_rgb_to_ycck.md R206). -/
def encodedCr (half r g b : Word) : Word :=
  fsub (fsub (fadd half (fmul C_05 r)) (fmul C_0418688 g)) (fmul C_0081312 b)

/-- F_RGB2YCCK (43_rgb_to_ycck.md R207): nothing is rounded to integers and nothing is clamped (R208). -/
def elementRgb2ycck (p : Precision) (x : Quad Word) : Word × Word × Word :=
  let r := reconstruct p.sMax x.c0
  let g := reconstruct p.sMax x.c1
  let b := reconstruct p.sMax x.c2
  (encodedLuma r g b, encodedCb p.sHalf r g b, encodedCr p.sHalf r g b)

/-- RGB2YCCK reads and writes components 0 to 2 (40_command_engine.md R157, 43_rgb_to_ycck.md R201) and does not check
kScale (40_command_engine.md R140). -/
def shapeRgb2ycck : CommandShape :=
  { reads := [.component0, .component1, .component2]
    writes := [.component0, .component1, .component2]
    checksKScale := false
    element := elementRgb2ycck }

/-- RGB2YCCK, command word 0x00000004 (43_rgb_to_ycck.md R200). -/
def execRgb2ycckOn (p : Platform) (s : State) : Host.Outcome State Fault Refusal := runCommand p .rgb2ycck shapeRgb2ycck s

/-- RGB2YCCK at the parameters of Config (log 1). -/
def execRgb2ycck (s : State) : Host.Outcome State Fault Refusal := execRgb2ycckOn Config.platform s

end Sys2Proof.Machine
end

