-- ==== Sys2Proof/Machine/YcckToRgb.lean ====
section
/-! DEFINITION. The encoded-to-RGB command YCCK2RGB (42_ycck_to_rgb.md). -/

namespace Sys2Proof.Machine

/-- `r = round(y + 1.402*cr)` (42_ycck_to_rgb.md R181, R184). -/
def ycckRed (y cr : Word) : Word := roundTA (fadd y (fmul C_1402 cr))

/-- `g = round(y - 0.344136*cb - 0.714136*cr)`, left to right (42_ycck_to_rgb.md R181, R184). -/
def ycckGreen (y cb cr : Word) : Word :=
  roundTA (fsub (fsub y (fmul C_0344136 cb)) (fmul C_0714136 cr))

/-- `b = round(y + 1.772*cb)` (42_ycck_to_rgb.md R181, R184). -/
def ycckBlue (y cb : Word) : Word := roundTA (fadd y (fmul C_1772 cb))

/-- F_YCCK2RGB (42_ycck_to_rgb.md R181): component0 to component3 hold Y, Cb, Cr and K. Nothing is clamped (R186). -/
def elementYcck2rgb (p : Precision) (x : Quad Word) : Word × Word × Word :=
  let cb := fsub x.c1 p.sHalf
  let cr := fsub x.c2 p.sHalf
  let kp := fmul x.c3 p.sKScale
  (fmul (fsub p.sMax (ycckRed x.c0 cr)) kp,
   fmul (fsub p.sMax (ycckGreen x.c0 cb cr)) kp,
   fmul (fsub p.sMax (ycckBlue x.c0 cb)) kp)

/-- YCCK2RGB reads all four components, writes components 0 to 2 (40_command_engine.md R157, 42_ycck_to_rgb.md R187) and
checks kScale (40_command_engine.md R140). -/
def shapeYcck2rgb : CommandShape :=
  { reads := [.component0, .component1, .component2, .component3]
    writes := [.component0, .component1, .component2]
    checksKScale := true
    element := elementYcck2rgb }

/-- YCCK2RGB, command word 0x00000003 (42_ycck_to_rgb.md R180). -/
def execYcck2rgbOn (p : Platform) (s : State) : Host.Outcome State Fault Refusal := runCommand p .ycck2rgb shapeYcck2rgb s

/-- YCCK2RGB at the parameters of Config (log 1). -/
def execYcck2rgb (s : State) : Host.Outcome State Fault Refusal := execYcck2rgbOn Config.platform s

end Sys2Proof.Machine
end

