-- ==== Sys2Proof/Machine/Dispatch.lean ====
section
/-! DEFINITION. One arm per command: exec is the next event of the command, its accept while IDLE and its next engine step
while RUN (log 3), at the parameters of Config (log 1). -/

namespace Sys2Proof.Machine

def exec (i : Instr) (s : State) : Host.Outcome State Fault Refusal :=
  match i with
  | .rgb2cmy => Sys2Proof.Machine.execRgb2cmy s
  | .cmy2rgb => Sys2Proof.Machine.execCmy2rgb s
  | .ycck2rgb => Sys2Proof.Machine.execYcck2rgb s
  | .rgb2ycck => Sys2Proof.Machine.execRgb2ycck s

end Sys2Proof.Machine
end

