-- ==== Sys2Proof/Machine/Commands.lean ====
section
/-! DEFINITION. What a command does and what its rules fix, for a block with any parameters (00_scope.md R10). -/

namespace Sys2Proof.Machine

/-- The next event of a command on a block with parameters `p` (log 3): its accept while IDLE, its next engine step while RUN.
-/
def execOn (p : Platform) (i : Instr) (s : State) : Host.Outcome State Fault Refusal :=
  match i with
  | .rgb2cmy => execRgb2cmyOn p s
  | .cmy2rgb => execCmy2rgbOn p s
  | .ycck2rgb => execYcck2rgbOn p s
  | .rgb2ycck => execRgb2ycckOn p s

/-- What the rules fix of each command (40_command_engine.md R157). -/
def shapeOf : Instr → CommandShape
  | .rgb2cmy => shapeRgb2cmy
  | .cmy2rgb => shapeCmy2rgb
  | .ycck2rgb => shapeYcck2rgb
  | .rgb2ycck => shapeRgb2ycck

end Sys2Proof.Machine
end

