-- ==== Sys2Proof/Machine/HostCache.lean ====
section
/-! DEFINITION. The host's caches on a platform where the data port is not coherent with them (20_memory.md R94,
70_reset_and_hazards.md R266). They hold copies of whole aligned words until an event drops them, so that the block reads what
memory holds and the host what its caches hold: stale inputs and stale outputs without maintenance (93 P15, log 16). A copy is
fetched, written back and dropped whole, so that no word the host sees is a mix of two moments of it (20_memory.md R79, R88). -/

namespace Sys2Proof.Machine

/-- The address of the aligned word of index `i`. -/
def wordAddress (i : Nat) : Word := BitVec.ofNat 32 (4 * i)

/-- Word `i` holds one of `count` bytes from `addr` upwards. -/
def wordTouched (addr count i : Nat) : Bool :=
  decide (addr < 4 * i + 4) && decide (4 * i < addr + count) && decide (0 < count)

/-- The indices of the words that hold `count` bytes from `addr` upwards, rising. -/
def touchedWords (addr count : Nat) : List Nat :=
  if count = 0 then [] else (List.range ((addr + count - 1) / 4 - addr / 4 + 1)).map (addr / 4 + ·)

/-- The canonical form above index `lo`: indices strictly rising, words inside the data space. -/
def cacheWfFrom (lo : Nat) : List CachedWord → Bool
  | [] => true
  | e :: rest => decide (lo ≤ e.index) && decide (e.index < 2 ^ 30) && cacheWfFrom (e.index + 1) rest

/-- The copy of word `i`, if the caches hold one. -/
def cacheLookup : List CachedWord → Nat → Option CachedWord
  | [], _ => none
  | e :: rest, i => if i = e.index then some e else cacheLookup rest i

/-- A copy put in its place, over an older one of the same word. -/
def cachePut (e : CachedWord) : List CachedWord → List CachedWord
  | [] => [e]
  | f :: rest =>
    if e.index < f.index then e :: f :: rest else if e.index = f.index then e :: rest else f :: cachePut e rest

/-- Word `i` as the host sees it: the copy if there is one, else the word that a fetch gives. -/
def cachedOr (fetched : Nat → Word) (cache : List CachedWord) (i : Nat) : Word :=
  match cacheLookup cache i with
  | some e => e.value
  | none => fetched i

/-- Byte `k` of word `i`, which was `w`, after bytes are written from `addr` upwards. -/
def overwrittenByte (addr : Nat) (bytes : List Byte) (i : Nat) (w : Word) (k : Nat) : Byte :=
  if addr ≤ 4 * i + k ∧ 4 * i + k < addr + bytes.length then bytes.getD (4 * i + k - addr) 0#8 else byteOfWord w k

/-- Word `i`, which was `w`, after bytes are written from `addr` upwards. -/
def overwritten (addr : Nat) (bytes : List Byte) (i : Nat) (w : Word) : Word :=
  let byte := overwrittenByte addr bytes i w
  wordOfBytes (byte 0) (byte 1) (byte 2) (byte 3)

/-- The host writes bytes from `addr` upwards, as far as word `i` goes: a dirty copy of it. -/
def cacheWriteWord (fetched : Nat → Word) (addr : Nat) (bytes : List Byte) (cache : List CachedWord) (i : Nat) :
    List CachedWord :=
  cachePut ⟨i, overwritten addr bytes i (cachedOr fetched cache i), true⟩ cache

/-- The host reads of word `i`: the caches keep a clean copy, as fetched, if they hold none. -/
def cacheFillWord (fetched : Nat → Word) (cache : List CachedWord) (i : Nat) : List CachedWord :=
  match cacheLookup cache i with
  | some _ => cache
  | none => cachePut ⟨i, fetched i, false⟩ cache

/-- Bytes the host writes from `addr` upwards: dirty copies of their words, the other bytes of a word with no copy fetched. -/
def cacheWrite (fetched : Nat → Word) (addr : Nat) (bytes : List Byte) (cache : List CachedWord) : List CachedWord :=
  (touchedWords addr bytes.length).foldl (cacheWriteWord fetched addr bytes) cache

/-- Clean copies, as fetched, of the words of `count` bytes from `addr` upwards that the caches hold no copy of. -/
def cacheFill (fetched : Nat → Word) (addr count : Nat) (cache : List CachedWord) : List CachedWord :=
  (touchedWords addr count).foldl (cacheFillWord fetched) cache

/-- The dirty copies of the words of `count` bytes from `addr` upwards: what a write-back writes. -/
def dirtyIn (addr count : Nat) (cache : List CachedWord) : List CachedWord :=
  cache.filter fun e => e.dirty && wordTouched addr count e.index

/-- Memory after a write-back of the given copies, each a whole word. -/
def writeBack (copies : List CachedWord) (mem : Memory) : Memory :=
  copies.foldl (fun mem e => mem.writeWord (wordAddress e.index) e.value) mem

/-- The caches after a write-back: the copies stay, clean. -/
def cacheCleaned (addr count : Nat) (cache : List CachedWord) : List CachedWord :=
  cache.map fun e => if wordTouched addr count e.index then { e with dirty := false } else e

/-- The caches after their copies of the words of `count` bytes from `addr` upwards are dropped, dirty ones included. -/
def cacheDropped (addr count : Nat) (cache : List CachedWord) : List CachedWord :=
  cache.filter fun e => !wordTouched addr count e.index

end Sys2Proof.Machine
end

