-- ==== Sys2Proof/Machine/Registers.lean ====
section
/-! DEFINITION. The register window: which register an access selects, and what a read and a write of each register do
(10_state.md R31 to R47, 30_encoding.md R107, 40_command_engine.md R154, R155). -/

namespace Sys2Proof.Machine

/-- The registers of the window (10_state.md R31), and the reserved offsets (R45). -/
inductive Reg where
  | id
  | param
  | cmd
  | status
  | irqEn
  | maxValue
  | halfValue
  | kScale
  | compBase (c : Component)
  | compLen (c : Component)
  | progress
  | errAddr
  | reserved
  deriving DecidableEq, Repr

/-- The register of index `off[7:2]` (30_encoding.md R107). -/
def regOfIndex (index : Nat) : Reg :=
  match index with
  | 0 => .id
  | 1 => .param
  | 2 => .cmd
  | 3 => .status
  | 4 => .irqEn
  | 5 => .maxValue
  | 6 => .halfValue
  | 7 => .kScale
  | 8 => .compBase .component0
  | 9 => .compBase .component1
  | 10 => .compBase .component2
  | 11 => .compBase .component3
  | 12 => .compLen .component0
  | 13 => .compLen .component1
  | 14 => .compLen .component2
  | 15 => .compLen .component3
  | 16 => .progress
  | 17 => .errAddr
  | _ => .reserved

/-- The offset of a register in the window (10_state.md R31); the first reserved offset for `reserved`. -/
def regOffset : Reg → Nat
  | .id => 0x00
  | .param => 0x04
  | .cmd => 0x08
  | .status => 0x0C
  | .irqEn => 0x10
  | .maxValue => 0x14
  | .halfValue => 0x18
  | .kScale => 0x1C
  | .compBase .component0 => 0x20
  | .compBase .component1 => 0x24
  | .compBase .component2 => 0x28
  | .compBase .component3 => 0x2C
  | .compLen .component0 => 0x30
  | .compLen .component1 => 0x34
  | .compLen .component2 => 0x38
  | .compLen .component3 => 0x3C
  | .progress => 0x40
  | .errAddr => 0x44
  | .reserved => 0x48

/-- What a register-port access selects. -/
inductive PortTarget where
  /-- The address is not in the window. -/
  | outside
  /-- Not a 32-bit access at a 4-byte-aligned offset (10_state.md R46). -/
  | slaveError
  /-- A 32-bit access of a register. -/
  | register (r : Reg)
  deriving DecidableEq, Repr

/-- Decoding a register-port access: `off = addr - BLK_BASE`, 0 <= off < 256 (30_encoding.md R107). -/
def portTarget (p : Platform) (size addr : Nat) : PortTarget :=
  if addr < p.blkBase || p.blkBase + 256 ≤ addr then .outside
  else
    let off := addr - p.blkBase
    if size == 4 && off % 4 == 0 then .register (regOfIndex (off / 4)) else .slaveError

/-- The constant of ID (10_state.md R32). -/
def idConstant : Word := 0x4B434359#32

/-- PARAM: VERSION 0x01 in bits 23:16 and LANE_WIDTH in bits 15:0 (10_state.md R33). -/
def paramWord (p : Platform) : Word := 0#8 ++ 0x01#8 ++ BitVec.ofNat 16 p.laneWidth

/-- What a register reads (40_command_engine.md R154). A read has no side effect on any state. -/
def readRegister (p : Platform) (r : Reg) (s : State) : Word :=
  match r with
  | .id => idConstant
  | .param => paramWord p
  | .cmd => s.lastCmd
  | .status => statusWord s
  | .irqEn => s.irqEn.setWidth 32
  | .maxValue => s.maxValue
  | .halfValue => s.halfValue
  | .kScale => s.kScale
  | .compBase c => s.compBase.get c
  | .compLen c => s.compLen.get c
  | .progress => s.progress
  | .errAddr => s.errAddr
  | .reserved => 0#32

/-- What a write of a register other than CMD does (40_command_engine.md R155). Writes to read-only registers and reserved
offsets have no effect (10_state.md R45). -/
def writeRegister (r : Reg) (v : Word) (s : State) : State :=
  match r with
  | .status => writeStatus v s
  | .irqEn => { s with irqEn := v.extractLsb' 0 3 }
  | .maxValue => { s with maxValue := v }
  | .halfValue => { s with halfValue := v }
  | .compBase c => { s with compBase := s.compBase.set c v }
  | .compLen c => { s with compLen := s.compLen.set c v }
  | .id => s
  | .param => s
  | .cmd => s
  | .kScale => s
  | .progress => s
  | .errAddr => s
  | .reserved => s

end Sys2Proof.Machine
end

