-- ==== Sys2Proof/Machine/Events.lean ====
section
/-! DEFINITION. What each event of the outside world does, and the engine's turn (60_exceptions.md R233): the register port,
host accesses of the data space (20_memory.md R88, R89), and the reset input (70_reset_and_hazards.md R260 to R263). -/

namespace Sys2Proof.Machine

/-! ### The engine's turn -/

/-- The engine's turn: its next step while RUN (40_command_engine.md R145), nothing while IDLE (60_exceptions.md R246) and
nothing while reset is held (70_reset_and_hazards.md R261). -/
def engineTurn (p : Platform) (s : State) : Host.Outcome State Fault Refusal :=
  if s.resetHeld then .next s
  else
    match s.engine with
    | .idle => .next s
    | .run => execOn p s.op s

/-! ### The register port -/

/-- A 32-bit write to CMD: dropped while RUN (40_command_engine.md R132), else the accept of the command that the word
spells, or the rejection of an illegal word (R131). -/
def commandWrite (p : Platform) (w : Word) (s : State) : Host.Outcome State Fault Refusal :=
  match s.engine with
  | .run => .next (overrun s)
  | .idle =>
    match decode w with
    | .ok i => execOn p i s
    | .error _ => .next (acceptIllegal w s)

/-- A register-port read (40_command_engine.md R154, 10_state.md R46); refused while reset is held (70_reset_and_hazards.md
R261). -/
def portRead (p : Platform) (size addr : Nat) (s : State) : Host.Outcome State Fault Refusal :=
  if s.resetHeld then .refused .portAccessDuringReset
  else
    match portTarget p size addr with
    | .outside => .fault .outsideRegisterWindow
    | .slaveError => .next (s.setResponse .slaveError)
    | .register r => .next (s.setResponse (.data (readRegister p r s)))

/-- A register-port write (40_command_engine.md R155, 10_state.md R46); refused while reset is held
(70_reset_and_hazards.md R261). -/
def portWrite (p : Platform) (size addr : Nat) (v : Word) (s : State) : Host.Outcome State Fault Refusal :=
  if s.resetHeld then .refused .portAccessDuringReset
  else
    match portTarget p size addr with
    | .outside => .fault .outsideRegisterWindow
    | .slaveError => .next (s.setResponse .slaveError)
    | .register .cmd => commandWrite p v (s.setResponse .written)
    | .register r => .next (writeRegister r v (s.setResponse .written))

/-- One round of `wait` (30_encoding.md R109): a STATUS read, which is the last when BUSY reads 0. While BUSY reads 1 the
engine has its turn and `wait` goes on (log 21). -/
def waitRound (s : State) : Host.Outcome State Fault Refusal :=
  if s.resetHeld then .refused .portAccessDuringReset
  else
    let polled := s.setResponse (.data (statusWord s))
    if busy s then .next (polled.setInputs (.engineTurn :: .wait :: s.inputs)) else .next polled

/-! ### Host accesses of the data space -/

/-- The element of component c that holds an address of its region, and the byte within the element. -/
def elementOf (s : State) (c : Component) (addr : Nat) : Nat × Nat :=
  ((addr - (s.sBase.get c).toNat) / 4, (addr - (s.sBase.get c).toNat) % 4)

/-- The four components of element k as they were at the accept of the running command. -/
def inputsAtAccept (s : State) (k : Nat) : Quad Word :=
  ⟨s.memAtAccept.readWord (elementAddress s .component0 k), s.memAtAccept.readWord (elementAddress s .component1 k),
   s.memAtAccept.readWord (elementAddress s .component2 k), s.memAtAccept.readWord (elementAddress s .component3 k)⟩

/-- What a command leaves in component c of an element with the given four inputs: the element function's outputs in
components 0 to 2 (40_command_engine.md R146, R147), and component3 as it is (R157). -/
def commandOutput (i : Instr) (p : Precision) (x : Quad Word) : Component → Word
  | .component0 => ((shapeOf i).element p x).1
  | .component1 => ((shapeOf i).element p x).2.1
  | .component2 => ((shapeOf i).element p x).2.2
  | .component3 => x.c3

/-- What the running command leaves in element k of component c, from the inputs at accept (20_memory.md R88). -/
def valueWritten (s : State) (c : Component) (k : Nat) : Word := commandOutput s.op s.precision (inputsAtAccept s k) c

/-- A byte of the data space as a host read sees it. In an active word that the running command writes, the read is a race:
the byte of the word at accept or of the word the command writes, by the free choice of Config, the same for every byte of
one word in one read (20_memory.md R79, R88; log 8). -/
def hostByte (s : State) (addr : Nat) : Byte :=
  match activeComponent s addr with
  | none => s.mem.readByte addr
  | some c =>
    if (shapeOf s.op).writes.contains c then
      let e := elementOf s c addr
      if Config.raceSeesNewValue s.freeCount (addr - e.2) then byteOfWord (valueWritten s c e.1) e.2
      else byteOfWord ((inputsAtAccept s e.1).get c) e.2
    else s.mem.readByte addr

/-- A word of the data space as a host fetch sees it, at one moment (20_memory.md R79). -/
def hostWord (s : State) (i : Nat) : Word :=
  wordOfBytes (hostByte s (4 * i)) (hostByte s (4 * i + 1)) (hostByte s (4 * i + 2)) (hostByte s (4 * i + 3))

/-- What a host read of a byte returns: the byte of the data space, or on a platform without coherence the byte of its word's
copy in the host's caches, stale or not, if they hold one (20_memory.md R94, 93 P15, log 16). Either is a byte of the whole word
as it was at one moment (R79, R88). -/
def hostView (p : Platform) (s : State) (addr : Nat) : Byte :=
  if p.coherent then hostByte s addr else byteOfWord (cachedOr (hostWord s) s.hostCache (addr / 4)) (addr % 4)

/-- A host read of the data space; without coherence the caches keep a copy of every word it reads of. -/
def hostRead (p : Platform) (addr count : Nat) (s : State) : Host.Outcome State Fault Refusal :=
  if 2 ^ 32 < addr + count then .fault .outsideDataSpace
  else
    .next { s with
      response := .bytes ((List.range count).map fun k => hostView p s (addr + k))
      hostCache := if p.coherent then s.hostCache else cacheFill (hostWord s) addr count s.hostCache
      freeCount := s.freeCount + 1 }

/-- A host write of the data space; one to a byte of an active region while BUSY faults the run (20_memory.md R89). Without
coherence it stays in the host's caches (20_memory.md R94, log 16); the rest of a word it writes part of is in no active region
either, since those are of whole words (R71, R74), and is fetched from memory. -/
def hostWrite (p : Platform) (addr : Nat) (bytes : List Byte) (s : State) : Host.Outcome State Fault Refusal :=
  if 2 ^ 32 < addr + bytes.length then .fault .outsideDataSpace
  else if (List.range bytes.length).any (fun k => (activeComponent s (addr + k)).isSome) then .fault .hostWriteDuringBusy
  else if p.coherent then .next { s with mem := s.mem.writeBytes addr bytes, response := .written }
  else .next { s with
    hostCache := cacheWrite (fun i => s.mem.readWord (wordAddress i)) addr bytes s.hostCache
    response := .written }

/-- A byte of word `i` is in an active region. -/
def wordActive (s : State) (i : Nat) : Bool := (List.range 4).any fun k => (activeComponent s (4 * i + k)).isSome

/-- A write-back of the host's caches: their dirty copies of the words of the given bytes reach memory (20_memory.md R94). One
that reaches an active region while BUSY is a write of another agent there and faults the run (20_memory.md R89,
70_reset_and_hazards.md R267, log 16). -/
def cacheClean (addr count : Nat) (s : State) : Host.Outcome State Fault Refusal :=
  let copies := dirtyIn addr count s.hostCache
  if copies.any (fun e => wordActive s e.index) then .fault .hostWriteDuringBusy
  else .next { s with mem := writeBack copies s.mem, hostCache := cacheCleaned addr count s.hostCache }

/-- An invalidation of the host's caches: their copies of the words of the given bytes are dropped (20_memory.md R94). -/
def cacheInvalidate (addr count : Nat) (s : State) : State :=
  { s with hostCache := cacheDropped addr count s.hostCache }

/-! ### The reset input -/

/-- The memory after the first `count` writes of a step, and after the next one too when it is in flight and lands
(70_reset_and_hazards.md R262). A write that ended in a bus error wrote nothing and is the last (60_exceptions.md R231); one
that is never answered is in flight (log 12). -/
def writesBeforeReset (p : Platform) (landed : Bool) : Nat → List (Word × Word) → Memory → Memory
  | _, [], mem => mem
  | count, (addr, v) :: rest, mem =>
    match busAnswer p addr .write with
    | .error => mem
    | .device => mem
    | .never => if landed then mem.writeWord addr v else mem
    | .ok =>
      match count with
      | 0 => if landed then mem.writeWord addr v else mem
      | n + 1 => writesBeforeReset p landed n rest (mem.writeWord addr v)

/-- The memory when reset is asserted after `accesses` data accesses of the step in progress have completed: none of its
writes before every one of its reads (20_memory.md R84). -/
def memoryMidStep (p : Platform) (shape : CommandShape) (accesses : Nat) (landed : Bool) (s : State) : Memory :=
  let m := stepSize p s
  let reads := accessOrder shape.reads m
  if accesses < reads.length then s.mem
  else
    match readPhase p reads s with
    | .done s1 =>
      let s2 := computePhase shape.element m s1
      writesBeforeReset p landed (accesses - reads.length) (stepWrites shape.writes m s2) s.mem
    | .busError _ _ => s.mem
    | .unanswered _ _ => s.mem
    | .device _ => s.mem

/-- The memory a reset leaves (70_reset_and_hazards.md R262, R263): as it is while IDLE, with part of a step while RUN, and,
for an engine stuck at a write, with that write or without it. -/
def memoryAtReset (p : Platform) (accesses : Nat) (landed : Bool) (s : State) : Memory :=
  match s.engine with
  | .idle => s.mem
  | .run =>
    match s.outstanding with
    | some a => if landed && a.kind == .write then s.mem.writeWord a.addr a.data else s.mem
    | none => memoryMidStep p (shapeOf s.op) accesses landed s

/-- The reset input asserted (70_reset_and_hazards.md R260 to R263): every piece of the block's state at its reset value, one
atomic event; the host's caches, the events still to come and the count of free choices are not the block's. -/
def resetAsserted (p : Platform) (accesses : Nat) (landed : Bool) (s : State) : State :=
  { State.resetOn p with
    mem := memoryAtReset p accesses landed s
    resetHeld := true
    hostCache := s.hostCache
    inputs := s.inputs
    freeCount := s.freeCount }

/-- The reset input released. -/
def resetReleased (s : State) : State := { s with resetHeld := false }

/-! ### One event -/

/-- What one event does. -/
def performEvent (p : Platform) (e : HostEvent) (s : State) : Host.Outcome State Fault Refusal :=
  match e with
  | .portRead size addr => portRead p size addr s
  | .portWrite size addr v => portWrite p size addr v s
  | .engineTurn => engineTurn p s
  | .wait => waitRound s
  | .memRead addr count => hostRead p addr count s
  | .memWrite addr bytes => hostWrite p addr bytes s
  | .assertReset accesses landed => .next (resetAsserted p accesses landed s)
  | .releaseReset => .next (resetReleased s)
  | .cacheClean addr count => cacheClean addr count s
  | .cacheInvalidate addr count => .next (cacheInvalidate addr count s)

/-- One step of a block with parameters `p`: the oldest event of `inputs`, or the engine's turn when there is none
(60_exceptions.md R233, log 4). -/
def stepOn (p : Platform) (s : State) : Host.Outcome State Fault Refusal :=
  match s.inputs with
  | [] => engineTurn p s
  | e :: rest => performEvent p e (s.setInputs rest)

/-- The platform address of a register (30_encoding.md R108). -/
def regAddress (p : Platform) (r : Reg) : Nat := p.blkBase + regOffset r

/-- `s` with the 32-bit write of a command word to CMD as its next event, the block able to accept it: reset released and the
engine IDLE (log 5). -/
def presentCommand (p : Platform) (w : Word) (s : State) : State :=
  { s with
    resetHeld := false
    engine := .idle
    inputs := .portWrite 4 (regAddress p .cmd) w :: s.inputs }

end Sys2Proof.Machine
end

