-- ==== Sys2Proof/Machine/Step.lean ====
section
/-! DEFINITION. One step of the machine at the parameters of Config (log 1): one atomic event (60_exceptions.md R233). -/

namespace Sys2Proof.Machine

/-- One step: the next event (log 4). -/
def step (s : State) : Host.Outcome State Fault Refusal := stepOn Config.platform s

/-- `s` with an instruction's bits where the next step takes its command word: as the data of a 32-bit write to CMD, the
first event to come (30_encoding.md R100, log 5). -/
def State.withFetchWord (s : State) (nbits w : Nat) : State :=
  presentCommand Config.platform (BitVec.ofNat 32 (w % 2 ^ nbits)) s

end Sys2Proof.Machine
end

