-- ==== Sys2Proof/Safety.lean ====
section
/-! DEFINITION. What counts as a legal state and as a safe run of YCCK-CSC, in the terms the statements use. Each is a Bool, so
that a concrete state can be checked. -/

namespace Sys2Proof.Machine

/-! ### Legal states -/

/-- The invariants of STATUS that the block keeps (10_state.md R35, R44; 60_exceptions.md R228): BUSY excludes DONE, ERR and
ERRCODE; DONE and ERR exclude each other; ERR is 1 exactly when ERRCODE is not 0; ERR_ADDR is 0 unless ERRCODE is BUS, and
then 4-byte aligned. -/
def statusLegal (s : State) : Bool :=
  (!busy s || (!s.done && !s.err)) && !(s.done && s.err) && (s.err == (s.errCode != .none)) &&
    (if s.errCode = .bus then s.errAddr.toNat % 4 == 0 else s.errAddr == 0#32)

/-- PROGRESS after the end of a command (10_state.md R43): S_LEN after completion, 0 after a rejection, the start of the
failing step after an abort. -/
def progressLegal (s : State) : Bool :=
  (!s.done || s.progress == s.sLen) &&
    (match s.errCode with
     | .none => true
     | .bus => decide (s.progress.toNat < s.sLen.toNat)
     | _ => s.progress == 0#32)

/-- What the accept's checks leave true of a running command (40_command_engine.md R135), with S_NW as computed (10_state.md
R54) and `i` below S_LEN, a multiple of W in the lane phase (40_command_engine.md R145). -/
def runLegal (p : Platform) (s : State) : Bool :=
  maxLegal s && halfLegal s && (s.op != .ycck2rgb || kScaleLegal s) && (s.sKScale == kScaleOf s.sMax) &&
    basesAligned s && regionsInRange s && regionsDisjoint s &&
    (s.sNW == laneEnd p.laneWidth s.sLen) && decide (s.progress.toNat < s.sLen.toNat) &&
    (decide (s.sNW.toNat ≤ s.progress.toNat) || s.progress.toNat % p.laneWidth == 0)

/-- Every component has W lane registers (10_state.md R56). -/
def lanesLegal (p : Platform) (s : State) : Bool :=
  Component.all.all fun c => (s.lane.get c).length == p.laneWidth

/-- An access that is never answered is one of the step in progress of a running command: a read of some component, or a
write of component 0, 1 or 2 (log 11; 40_command_engine.md R157). -/
def outstandingLegal (p : Platform) (s : State) : Bool :=
  match s.outstanding with
  | none => true
  | some a =>
    busy s && busAnswer p a.addr a.kind == .never &&
      Component.all.any fun c => (c != .component3 || a.kind == .read) &&
        (List.range (stepSize p s)).any fun j => a.addr == elementAddress s c (s.progress.toNat + j)

/-- The host's caches in canonical form, and empty on a coherent platform (log 16). -/
def cacheLegal (p : Platform) (s : State) : Bool :=
  cacheWfFrom 0 s.hostCache && (!p.coherent || s.hostCache.isEmpty)

/-- A legal state of a block with parameters `p`: the invariants above, memories in canonical form, K_SCALE as latched
(10_state.md R40), the engine IDLE while reset is held (70_reset_and_hazards.md R261). -/
def legal (p : Platform) (s : State) : Bool :=
  p.wellFormed && s.mem.wf && s.memAtAccept.wf && statusLegal s && progressLegal s && lanesLegal p s &&
    outstandingLegal p s && (s.kScale == s.sKScale) && (!busy s || runLegal p s) && !(busy s && s.resetHeld) &&
    cacheLegal p s

/-! ### The buffers of a running command -/

/-- Element k of component c as it stands in memory. -/
def elementWord (s : State) (c : Component) (k : Nat) : Word := s.mem.readWord (elementAddress s c k)

/-- The four components of element k as they stand in memory. -/
def elementInputs (s : State) (k : Nat) : Quad Word :=
  ⟨elementWord s .component0 k, elementWord s .component1 k, elementWord s .component2 k, elementWord s .component3 k⟩

/-- While a command runs, every element below PROGRESS holds its output and every other one its value at accept
(60_exceptions.md R231, 40_command_engine.md R157); said of an engine that does not wait inside a step. -/
def buffersConsistent (s : State) : Bool :=
  !busy s || s.outstanding.isSome ||
    (List.range s.sLen.toNat).all fun k => Component.all.all fun c =>
      elementWord s c k == (if k < s.progress.toNat then valueWritten s c k else (inputsAtAccept s k).get c)

/-- The engine can take a step: it runs and waits for no access. -/
def canStep (s : State) : Bool := busy s && s.outstanding.isNone

/-- Every access of the next step, over the given components, completes on the bus. -/
def stepAccessesOk (p : Platform) (reads writes : List Component) (s : State) : Bool :=
  (accessOrder reads (stepSize p s)).all
      (fun (c, j) => busAnswer p (elementAddress s c (s.progress.toNat + j)) .read == .ok) &&
    (accessOrder writes (stepSize p s)).all
      (fun (c, j) => busAnswer p (elementAddress s c (s.progress.toNat + j)) .write == .ok)

/-- The four bytes of element k of component c hold the byte address. -/
def holdsByte (s : State) (c : Component) (k addr : Nat) : Bool :=
  decide ((elementAddress s c k).toNat ≤ addr) && decide (addr < (elementAddress s c k).toNat + 4)

/-- `s` after a step that leaves the given memory and lane registers: `i` advanced, and DONE with IDLE when `i = S_LEN`
(40_command_engine.md R147, R149). Every other field is as it was. -/
def steppedTo (p : Platform) (s : State) (mem : Memory) (lane : Quad (List Word)) : State :=
  let i := s.progress + BitVec.ofNat 32 (stepSize p s)
  { s with
    mem := mem
    lane := lane
    progress := i
    engine := if i = s.sLen then .idle else s.engine
    done := if i = s.sLen then true else s.done }

/-! ### Commands as the host presents them -/

/-- The conditions of 40_command_engine.md R135 on the registers that a command of shape i needs: equal lengths, a legal
Precision Context, and, for YCCK2RGB, a legal kScale. -/
def contextAccepted (i : Instr) (s : State) : Bool :=
  lengthsEqual s && isFinite s.maxValue && isPositive s.maxValue && isFinite s.halfValue &&
    (i != .ycck2rgb || (isFinite (kScaleOf s.maxValue) && isPositive (kScaleOf s.maxValue)))

/-- The buffers the registers describe are aligned, inside the data space and pairwise disjoint (20_memory.md R74 to R77). -/
def buffersAccepted (s : State) : Bool :=
  Component.all.all (fun c => (s.compBase.get c).toNat % 4 == 0) &&
    Component.all.all (fun c => decide ((s.compBase.get c).toNat + 4 * s.compLen.c0.toNat ≤ 2 ^ 32)) &&
    componentPairs.all (fun (c, d) =>
      decide ((s.compBase.get c).toNat + 4 * s.compLen.c0.toNat ≤ (s.compBase.get d).toNat) ||
        decide ((s.compBase.get d).toNat + 4 * s.compLen.c0.toNat ≤ (s.compBase.get c).toNat))

/-- What every accept writes before its checks, whatever their outcome (40_command_engine.md R131, R133, R134), each field
written out. -/
def acceptedBase (w : Word) (s : State) : State :=
  { s with
    lastCmd := w
    done := false
    err := false
    errCode := .none
    errAddr := 0#32
    progress := 0#32
    sMax := s.maxValue
    sHalf := s.halfValue
    sBase := s.compBase
    sLen := s.compLen.c0
    sKScale := fdiv ONE (fmul s.maxValue s.maxValue)
    kScale := fdiv ONE (fmul s.maxValue s.maxValue) }

/-- How many steps a command takes (40_command_engine.md R159): S_NW / W lane steps and L - S_NW scalar steps. -/
def stepCount (laneWidth len : Nat) : Nat := len / laneWidth + (len - len / laneWidth * laneWidth)

/-- No platform region touches the data space: every data-port access completes. -/
def busAlwaysOk (p : Platform) : Bool :=
  p.regions.all fun r => r.onRead == .ok && r.onWrite == .ok

/-- The machine of a block with parameters `p`; `Sys2Proof.core` is the one at `Config.platform` (log 1). -/
def machineOn (p : Platform) : Host.Core :=
  { State := State
    Fault := Fault
    Refusal := Refusal
    step := stepOn p
    reset := State.resetOn p }

/-! ### Rounding -/

/-- The word is the binary32 value nearest the exact value `num / den` units of 2^-149, the even pattern in a tie
(00_scope.md R17, roundTiesToEven), on magnitudes. -/
def nearestEven (num den : Nat) (r : Word) : Prop :=
  ∀ u : Word, isFinite u = true →
    Int.natAbs (num - magnitude r * den) ≤ Int.natAbs (num - magnitude u * den) ∧
      (Int.natAbs (num - magnitude r * den) = Int.natAbs (num - magnitude u * den) →
        magnitude u = magnitude r ∨ r.toNat % 2 = 0)

/-- The exact value is large enough to overflow: at or above the midpoint of the largest finite value and 2^128. -/
def overflows (num den : Nat) : Prop := (2 ^ 25 - 1) * 2 ^ 252 * den ≤ num

/-- The magnitude of a result as a pattern without sign: it orders finite magnitudes and infinity. -/
def absPattern (u : Word) : Nat := u.toNat % 2 ^ 31

/-! ### Safe runs -/

/-- The next event is not a host write to a byte of an active buffer (20_memory.md R89), nor a write-back of one, not a
register-port access outside the window or while reset is held, and inside the data space. -/
def eventSafe (p : Platform) (s : State) : HostEvent → Bool
  | .portRead size addr => !s.resetHeld && portTarget p size addr != .outside
  | .portWrite size addr _ => !s.resetHeld && portTarget p size addr != .outside
  | .engineTurn => true
  | .wait => !s.resetHeld
  | .memRead addr count => decide (addr + count ≤ 2 ^ 32)
  | .memWrite addr bytes =>
    decide (addr + bytes.length ≤ 2 ^ 32) &&
      (List.range bytes.length).all fun k => (activeComponent s (addr + k)).isNone
  | .assertReset _ _ => true
  | .releaseReset => true
  | .cacheClean addr count => (dirtyIn addr count s.hostCache).all fun e => !wordActive s e.index
  | .cacheInvalidate _ _ => true

/-- The next step is safe: its event is, and no platform region is a device. -/
def stepSafe (p : Platform) (s : State) : Bool :=
  (match s.inputs with
   | [] => true
   | e :: _ => eventSafe p s e) &&
    p.regions.all fun r => r.onRead != .device && r.onWrite != .device

end Sys2Proof.Machine
end

