-- ==== Sys2Proof/Certificates/Slice0/Obligations.lean ====
section
/-! DEFINITION. The statements for the provers. Each docstring names the rule of spec/ that it formalises, or says that it
rests on a choice of the model and names the log entry. -/

open Sys2Proof Sys2Proof.Machine

/-! ### Encoding -/

/-- Tier 3, encoding (30_encoding.md R101, R102, R106; byte order 20_memory.md R72): any bytes decode to a command, with what
is left over, exactly when they are that well-formed command's encoding followed by what is left over. -/
def Obligations.DecodeAndEncodeAgree : Prop :=
  ∀ (bytes rest : List Byte) (i : Instr),
    decodeBytes bytes = .ok (i, rest) ↔ (i.wellFormed = true ∧ bytes = encodeBytes i ++ rest)

/-- Tier 2, encoding (30_encoding.md R102, R106): a word decodes to a command exactly when its 28 reserved bits are zero and
its low four bits are that command's OPC. -/
def Obligations.WordDecodesByItsFields : Prop :=
  ∀ (w : Word) (i : Instr),
    decode w = .ok i ↔
      (w.toNat / 16 = 0 ∧
        w.toNat % 16 = (match i with | .rgb2cmy => 1 | .cmy2rgb => 2 | .ycck2rgb => 3 | .rgb2ycck => 4))

/-- Tier 1 sanity (30_encoding.md R102): the four command words decode to their commands, and three others to none. -/
def Obligations.CommandWordsDecode : Prop :=
  decode 0x00000001#32 = .ok .rgb2cmy ∧ decode 0x00000002#32 = .ok .cmy2rgb ∧ decode 0x00000003#32 = .ok .ycck2rgb ∧
    decode 0x00000004#32 = .ok .rgb2ycck ∧ decode 0x00000000#32 = .error (.reservedOpcode 0#4) ∧
    decode 0x00000005#32 = .error (.reservedOpcode 5#4) ∧ decode 0x00000013#32 = .error (.reservedBitsSet 1#28)

/-! ### A step runs the decoded command -/

/-- Tier 1 (30_encoding.md R100; 40_command_engine.md R131; log 1, log 3, log 4): when the next event is a 32-bit write to CMD
and the block is out of reset, the step is that CMD write at the state with the event taken and the write answered; when the
word decodes to i and the block is IDLE, it is exec of i there, on every platform. -/
def Obligations.StepRunsDecodedCommand : Prop :=
  ∀ (p : Platform) (s : State) (rest : List HostEvent) (w : Word),
    s.inputs = .portWrite 4 (p.blkBase + 0x08) w :: rest → s.resetHeld = false →
      let t := { s with inputs := rest, response := .written }
      stepOn p s = commandWrite p w t ∧
        ∀ i, decode w = .ok i → s.engine = .idle →
          stepOn p s = execOn p i t ∧ (p = Config.platform → step s = exec i t)

/-- Tier 1 (40_command_engine.md R145; 60_exceptions.md R246; log 3, log 4): the engine's turn, by itself when no event is
pending or as an event, is exec of the running command while RUN and changes nothing while IDLE or in reset. -/
def Obligations.EngineTurnRunsTheCommand : Prop :=
  ∀ (p : Platform) (s : State),
    (s.inputs = [] →
        (s.engine = .run → s.resetHeld = false → stepOn p s = execOn p s.op s) ∧
          (s.engine = .idle ∨ s.resetHeld = true → stepOn p s = .next s)) ∧
      ∀ rest, s.inputs = .engineTurn :: rest →
        (s.engine = .run → s.resetHeld = false → stepOn p s = execOn p s.op { s with inputs := rest }) ∧
          (s.engine = .idle ∨ s.resetHeld = true → stepOn p s = .next { s with inputs := rest })

/-- Tier 1 (30_encoding.md R100; log 1, log 5): from every state, the step after withFetchWord runs the command of the word
placed; and step, exec and State.reset are the ones of every platform at the platform of Config. -/
def Obligations.FetchWordRunsTheCommand : Prop :=
  (∀ (s : State) (i : Instr),
      step (s.withFetchWord 32 (encode i).toNat) =
        exec i { s with resetHeld := false, engine := .idle, response := .written }) ∧
    (∀ s : State, step s = stepOn Config.platform s) ∧
    (∀ (i : Instr) (s : State), exec i s = execOn Config.platform i s) ∧ State.reset = State.resetOn Config.platform

/-! ### The accept -/

/-- Tier 2 (40_command_engine.md R131, R133): a command whose checks pass, with L > 0, is started by its accept: the
registers and shadows as listed, op and S_NW, RUN; every other field as it was, on every platform and so at Config's (log 1).
The field memAtAccept is the model's own (log 8). -/
def Obligations.AcceptStartsTheCommand : Prop :=
  ∀ (p : Platform) (i : Instr) (s : State), s.engine = .idle → contextAccepted i s = true → buffersAccepted s = true →
    s.compLen.c0 ≠ 0#32 →
      let t := { acceptedBase (encode i) s with
        op := i
        sNW := BitVec.ofNat 32 (s.compLen.c0.toNat / p.laneWidth * p.laneWidth)
        engine := .run
        memAtAccept := s.mem }
      execOn p i s = .next t ∧ (p = Config.platform → exec i s = .next t)

/-- Tier 2, stated (40_command_engine.md R144): a zero-length command that passes its checks sets DONE at accept and stays
IDLE with PROGRESS 0, whatever its bases and whatever the bus; one with a precondition violation is rejected. -/
def Obligations.ZeroLengthCompletesAtOnce : Prop :=
  ∀ (p : Platform) (i : Instr) (s : State), s.engine = .idle → s.compLen.c0 = 0#32 →
    (contextAccepted i s = true →
        execOn p i s = .next { acceptedBase (encode i) s with op := i, sNW := 0#32, done := true } ∧
          (p = Config.platform →
            exec i s = .next { acceptedBase (encode i) s with op := i, sNW := 0#32, done := true })) ∧
      (contextAccepted i s = false → ∃ t, execOn p i s = .next t ∧ t.engine = .idle ∧ t.err = true ∧ t.errCode ≠ .none ∧
        t.done = false ∧ t.progress = 0#32 ∧ t.mem = s.mem)

/-- Tier 2, stated (40_command_engine.md R135; 60_exceptions.md R232): ERRCODE after a CMD write while IDLE is the first
failing check in the order of R135, and 0 when none fails; no failing one touches memory or the lane registers. -/
def Obligations.CheckRecordsTheFirstFailure : Prop :=
  ∀ (p : Platform) (w : Word) (s : State), s.engine = .idle → ∃ t, commandWrite p w s = .next t ∧
    let illegal := w.toNat / 16 ≠ 0 ∨ ¬ (w.toNat % 16 = 1 ∨ w.toNat % 16 = 2 ∨ w.toNat % 16 = 3 ∨ w.toNat % 16 = 4)
    let lengths := ¬ (s.compLen.c0 = s.compLen.c1 ∧ s.compLen.c0 = s.compLen.c2 ∧ s.compLen.c0 = s.compLen.c3)
    let badMax := ¬ (isFinite s.maxValue = true ∧ isPositive s.maxValue = true)
    let badHalf := ¬ isFinite s.halfValue = true
    let k := fdiv ONE (fmul s.maxValue s.maxValue)
    let badKScale := w.toNat % 16 = 3 ∧ ¬ (isFinite k = true ∧ isPositive k = true)
    let len := s.compLen.c0.toNat
    let misaligned := 0 < len ∧ ∃ c, (s.compBase.get c).toNat % 4 ≠ 0
    let range := 0 < len ∧ ∃ c, 2 ^ 32 < (s.compBase.get c).toNat + 4 * len
    let overlap := ∃ c d, c ≠ d ∧ ∃ a : Nat,
      ((s.compBase.get c).toNat ≤ a ∧ a < (s.compBase.get c).toNat + 4 * len) ∧
        ((s.compBase.get d).toNat ≤ a ∧ a < (s.compBase.get d).toNat + 4 * len)
    (illegal → t.errCode = .illegalOp) ∧
      (¬ illegal → lengths → t.errCode = .lenMismatch) ∧
      (¬ illegal → ¬ lengths → badMax → t.errCode = .badMax) ∧
      (¬ illegal → ¬ lengths → ¬ badMax → badHalf → t.errCode = .badHalf) ∧
      (¬ illegal → ¬ lengths → ¬ badMax → ¬ badHalf → badKScale → t.errCode = .badKScale) ∧
      (¬ illegal → ¬ lengths → ¬ badMax → ¬ badHalf → ¬ badKScale → misaligned → t.errCode = .misaligned) ∧
      (¬ illegal → ¬ lengths → ¬ badMax → ¬ badHalf → ¬ badKScale → ¬ misaligned → range → t.errCode = .range) ∧
      (¬ illegal → ¬ lengths → ¬ badMax → ¬ badHalf → ¬ badKScale → ¬ misaligned → ¬ range → overlap →
        t.errCode = .overlap) ∧
      (¬ illegal → ¬ lengths → ¬ badMax → ¬ badHalf → ¬ badKScale → ¬ misaligned → ¬ range → ¬ overlap →
        t.errCode = .none) ∧
      (t.errCode ≠ .none → t.mem = s.mem ∧ t.lane = s.lane)

/-- Tier 2, stated (60_exceptions.md R224): a CMD write while IDLE either sets no error or records one and changes
nothing but what every accept writes: ERR, ERRCODE, LAST_CMD, K_SCALE, PROGRESS 0, ERR_ADDR 0; no data access, IDLE. -/
def Obligations.RejectionLeavesEverythingElse : Prop :=
  ∀ (p : Platform) (w : Word) (s : State), s.engine = .idle → ∃ t, commandWrite p w s = .next t ∧
    (t.errCode = .none → t.err = false) ∧
      (t.errCode ≠ .none → t = { acceptedBase w s with err := true, errCode := t.errCode })

/-- Tier 2, stated (30_encoding.md R103): a 32-bit write to CMD of a word that is none of the four is rejected with ILLEGAL_OP
while IDLE, the step changing only what every accept writes, and dropped with OVR while BUSY. -/
def Obligations.IllegalWordIsRejected : Prop :=
  ∀ (p : Platform) (s : State) (rest : List HostEvent) (w : Word), (∀ i, w ≠ encode i) →
    s.inputs = .portWrite 4 (p.blkBase + 0x08) w :: rest → s.resetHeld = false →
      let t := { s with inputs := rest, response := .written }
      (s.engine = .idle → stepOn p s = .next { acceptedBase w t with err := true, errCode := .illegalOp }) ∧
        (s.engine = .run → stepOn p s = .next { t with ovr := true })

/-- Tier 1, stated (40_command_engine.md R132): a 32-bit write to CMD while RUN is dropped, legal or illegal: it sets OVR and
changes nothing else of the block. -/
def Obligations.CommandWriteDuringRunIsDropped : Prop :=
  ∀ (p : Platform) (s : State) (rest : List HostEvent) (w : Word),
    s.inputs = .portWrite 4 (p.blkBase + 0x08) w :: rest → s.resetHeld = false → s.engine = .run →
      stepOn p s = .next { s with inputs := rest, response := .written, ovr := true }

/-- Tier 2, stated (40_command_engine.md R134): kScale at every accept, and its corner cases by the pattern of S_MAX. -/
def Obligations.KScaleFollowsMaxValue : Prop :=
  (∀ (p : Platform) (w : Word) (s : State), s.engine = .idle → ∃ t, commandWrite p w s = .next t ∧ t.sMax = s.maxValue ∧
      t.sKScale = fdiv ONE (fmul t.sMax t.sMax) ∧ readRegister p .kScale t = t.sKScale) ∧
    (let k := fun u : Word => fdiv ONE (fmul u u)
     fmul 0x437F0000#32 0x437F0000#32 = 0x477E0100#32 ∧ k 0x437F0000#32 = 0x37810182#32 ∧
      fmul 0x477FFF00#32 0x477FFF00#32 = 0x4F7FFE00#32 ∧ k 0x477FFF00#32 = 0x2F800100#32 ∧
      k 0x00000000#32 = 0x7F800000#32 ∧ k 0x1F800001#32 = 0x7F7FFFF8#32 ∧ k 0x5F0AC723#32 = 0x006CE3EF#32 ∧
      ∀ u : Word,
        (0 < u.toNat ∧ u.toNat ≤ 0x1F800000 → k u = 0x7F800000#32) ∧
          (0 < u.toNat ∧ u.toNat ≤ 0x1A000000 → fmul u u = 0#32) ∧
          (0x1F800000 < u.toNat ∧ u.toNat < 0x5F000000 → 0x00800000 ≤ (k u).toNat ∧ (k u).toNat < 0x7F800000) ∧
          (0x5F000000 < u.toNat ∧ u.toNat < 0x5F800000 → 0 < (k u).toNat ∧ (k u).toNat < 0x00800000) ∧
          (0x5F800000 ≤ u.toNat ∧ u.toNat ≤ 0x7F800000 → fmul u u = 0x7F800000#32 ∧ k u = 0#32) ∧
          (isNaN u = true → k u = canonicalNaN))

/-! ### The four commands' steps -/

/-- Tier 2 (41_cmyk_bridge.md R170 to R172; 40_command_engine.md R147, R149): a step of RGB2CMY, and one of CMY2RGB, whose
accesses complete writes `S_MAX - x` to each of its elements in components 0 to 2 and to no other byte, advances `i`, and
completes at S_LEN; every other field but the lane registers is as it was. -/
def Obligations.ComplementStepsComplement : Prop :=
  ∀ (p : Platform), ∀ i ∈ [Instr.rgb2cmy, .cmy2rgb], ∀ s : State, legal p s = true → canStep s = true →
    stepAccessesOk p [.component0, .component1, .component2] [.component0, .component1, .component2] s = true →
      ∃ mem lane, execOn p i s = .next (steppedTo p s mem lane) ∧
        (p = Config.platform → exec i s = .next (steppedTo p s mem lane)) ∧
        (∀ c ∈ [Component.component0, .component1, .component2], ∀ j < stepSize p s,
          mem.readWord (elementAddress s c (s.progress.toNat + j)) =
            fsub s.sMax (elementWord s c (s.progress.toNat + j))) ∧
        (∀ addr, (∀ c ∈ [Component.component0, .component1, .component2], ∀ j < stepSize p s,
          holdsByte s c (s.progress.toNat + j) addr = false) → mem.readByte addr = s.mem.readByte addr)

/-- Tier 2, stated (42_ycck_to_rgb.md R181): a step of YCCK2RGB whose accesses complete writes the formula's R, G and B to each
of its elements in components 0 to 2 and to no other byte (K unchanged, R187), advances `i`, and completes at S_LEN; every
other field but the lane registers is as it was. -/
def Obligations.Ycck2rgbStepConverts : Prop :=
  ∀ (p : Platform) (s : State), legal p s = true → canStep s = true →
    stepAccessesOk p [.component0, .component1, .component2, .component3] [.component0, .component1, .component2] s = true →
      ∃ mem lane, execOn p .ycck2rgb s = .next (steppedTo p s mem lane) ∧
        (p = Config.platform → exec .ycck2rgb s = .next (steppedTo p s mem lane)) ∧
        (∀ j < stepSize p s,
          let k := s.progress.toNat + j
          let y := elementWord s .component0 k
          let cb := fsub (elementWord s .component1 k) s.sHalf
          let cr := fsub (elementWord s .component2 k) s.sHalf
          let kp := fmul (elementWord s .component3 k) s.sKScale
          let r := roundTA (fadd y (fmul 0x3FB374BC#32 cr))
          let g := roundTA (fsub (fsub y (fmul 0x3EB03298#32 cb)) (fmul 0x3F36D19E#32 cr))
          let b := roundTA (fadd y (fmul 0x3FE2D0E5#32 cb))
          mem.readWord (elementAddress s .component0 k) = fmul (fsub s.sMax r) kp ∧
            mem.readWord (elementAddress s .component1 k) = fmul (fsub s.sMax g) kp ∧
            mem.readWord (elementAddress s .component2 k) = fmul (fsub s.sMax b) kp) ∧
        (∀ addr, (∀ c ∈ [Component.component0, .component1, .component2], ∀ j < stepSize p s,
          holdsByte s c (s.progress.toNat + j) addr = false) → mem.readByte addr = s.mem.readByte addr)

/-- Tier 2, stated (43_rgb_to_ycck.md R202, R204, R205, R206, on Stage B's r, g, b of R203): a step of RGB2YCCK whose accesses
complete writes the formulas' Y, Cb and Cr to each of its elements in components 0 to 2 and to no other byte, advances `i`,
and completes at S_LEN; every other field but the lane registers is as it was. -/
def Obligations.Rgb2ycckStepConverts : Prop :=
  ∀ (p : Platform) (s : State), legal p s = true → canStep s = true →
    stepAccessesOk p [.component0, .component1, .component2] [.component0, .component1, .component2] s = true →
      ∃ mem lane, execOn p .rgb2ycck s = .next (steppedTo p s mem lane) ∧
        (p = Config.platform → exec .rgb2ycck s = .next (steppedTo p s mem lane)) ∧
        (∀ j < stepSize p s,
          let k := s.progress.toNat + j
          let a0 := fsub s.sMax (elementWord s .component0 k)
          let a1 := fsub s.sMax (elementWord s .component1 k)
          let a2 := fsub s.sMax (elementWord s .component2 k)
          let r := fsub s.sMax a0
          let g := fsub s.sMax a1
          let b := fsub s.sMax a2
          mem.readWord (elementAddress s .component0 k) =
              fadd (fadd (fmul 0x3E991687#32 r) (fmul 0x3F1645A2#32 g)) (fmul 0x3DE978D5#32 b) ∧
            mem.readWord (elementAddress s .component1 k) =
              fadd (fsub (fsub s.sHalf (fmul 0x3E2CC921#32 r)) (fmul 0x3EA99B6F#32 g)) (fmul 0x3F000000#32 b) ∧
            mem.readWord (elementAddress s .component2 k) =
              fsub (fsub (fadd s.sHalf (fmul 0x3F000000#32 r)) (fmul 0x3ED65E46#32 g)) (fmul 0x3DA686E8#32 b)) ∧
        (∀ addr, (∀ c ∈ [Component.component0, .component1, .component2], ∀ j < stepSize p s,
          holdsByte s c (s.progress.toNat + j) addr = false) → mem.readByte addr = s.mem.readByte addr)

/-- Tier 2, stated (40_command_engine.md R149): when a step reaches S_LEN, the command is complete in that one update: IDLE and
DONE, PROGRESS reads S_LEN, ERR, ERRCODE and ERR_ADDR 0, and every word the command writes is in memory. -/
def Obligations.CompletionSetsDone : Prop :=
  ∀ (p : Platform) (s : State), legal p s = true → buffersConsistent s = true → canStep s = true →
    stepAccessesOk p (shapeOf s.op).reads (shapeOf s.op).writes s = true →
    s.progress.toNat + stepSize p s = s.sLen.toNat →
      ∃ t, execOn p s.op s = .next t ∧ t.engine = .idle ∧ t.done = true ∧ t.progress = s.sLen ∧ t.err = false ∧
        t.errCode = .none ∧ t.errAddr = 0#32 ∧
        ∀ c k, k < s.sLen.toNat → t.mem.readWord (elementAddress s c k) = valueWritten s c k

/-- Tier 2, stated (40_command_engine.md R150; its alignment 20_memory.md R74): the address of every element of a running
command is its base plus four times its index on unbounded integers, with no wrap, and 4-byte aligned; a step changes no base.
-/
def Obligations.ElementAddressesDoNotWrap : Prop :=
  ∀ (p : Platform) (s : State) (c : Component) (k : Nat), legal p s = true → busy s = true → k < s.sLen.toNat →
    (elementAddress s c k).toNat = (s.sBase.get c).toNat + 4 * k ∧ (elementAddress s c k).toNat + 3 ≤ 2 ^ 32 - 1 ∧
      (elementAddress s c k).toNat % 4 = 0 ∧
      ∀ t, execOn p s.op s = .next t → t.sBase = s.sBase ∧ t.compBase = s.compBase

/-- Tier 2 (20_memory.md R84): the accesses of a phase go component by component in the order given, and within a component in
ascending element index. -/
def Obligations.AccessesGoComponentByComponent : Prop :=
  ∀ (cs : List Component) (m n : Nat), 0 < m →
    (accessOrder cs m)[n]? = (cs[n / m]?).map fun c => (c, n % m)

/-- Tier 2 (10_state.md R55; 40_command_engine.md R145): a step whose accesses complete advances `i` by W in the lane phase and
by 1 after it, without wrapping or passing S_LEN. -/
def Obligations.ProgressAdvancesByLaneOrOne : Prop :=
  ∀ (p : Platform) (s : State), legal p s = true → canStep s = true →
    stepAccessesOk p (shapeOf s.op).reads (shapeOf s.op).writes s = true →
      ∃ t, execOn p s.op s = .next t ∧ t.progress.toNat ≤ s.sLen.toNat ∧
        (s.progress.toNat < s.sNW.toNat →
          t.progress.toNat = s.progress.toNat + p.laneWidth ∧ t.progress.toNat ≤ s.sNW.toNat) ∧
        (s.sNW.toNat ≤ s.progress.toNat → t.progress.toNat = s.progress.toNat + 1)

/-! ### Bus errors and a bus that never answers -/

/-- Tier 2 (60_exceptions.md R228, R229, R231): a read that ends in a bus error, every read before it having completed, aborts
the command: IDLE, ERR, ERRCODE BUS, ERR_ADDR the failing address, PROGRESS kept, no byte of memory changed; every other field
but the lane registers is as it was. -/
def Obligations.ReadBusErrorAborts : Prop :=
  ∀ (p : Platform) (i : Instr) (s : State) (pre post : List (Component × Nat)) (c : Component) (j : Nat), canStep s = true →
    accessOrder (shapeOf i).reads (stepSize p s) = pre ++ (c, j) :: post →
    (∀ x ∈ pre, busAnswer p (elementAddress s x.1 (s.progress.toNat + x.2)) .read = .ok) →
    busOk p (elementAddress s c (s.progress.toNat + j)) .read = false →
      ∃ lane, execOn p i s = .next { s with
        lane := lane
        engine := .idle
        err := true
        errCode := .bus
        errAddr := elementAddress s c (s.progress.toNat + j) }

/-- Tier 2 (60_exceptions.md R228, R229, R231): a write that ends in a bus error, every access before it having completed,
aborts the command with exactly the writes before it performed; every other field but the lane registers is as it was. -/
def Obligations.WriteBusErrorAborts : Prop :=
  ∀ (p : Platform) (i : Instr) (s : State) (pre post : List (Component × Nat)) (c : Component) (j : Nat), legal p s = true →
    canStep s = true → stepAccessesOk p (shapeOf i).reads [] s = true →
    accessOrder (shapeOf i).writes (stepSize p s) = pre ++ (c, j) :: post →
    (∀ x ∈ pre, busAnswer p (elementAddress s x.1 (s.progress.toNat + x.2)) .write = .ok) →
    busOk p (elementAddress s c (s.progress.toNat + j)) .write = false →
      ∃ mem lane, execOn p i s = .next { s with
          mem := mem
          lane := lane
          engine := .idle
          err := true
          errCode := .bus
          errAddr := elementAddress s c (s.progress.toNat + j) } ∧
        (∀ x ∈ pre, mem.readWord (elementAddress s x.1 (s.progress.toNat + x.2)) =
          commandOutput i s.precision (elementInputs s (s.progress.toNat + x.2)) x.1) ∧
        (∀ addr, (∀ x ∈ pre, holdsByte s x.1 (s.progress.toNat + x.2) addr = false) →
          mem.readByte addr = s.mem.readByte addr)

/-- Tier 2 (70_reset_and_hazards.md R273; log 11): a read that the bus never answers, every read before it having completed,
and a write that it never answers, every access before it having completed, leave the engine RUN with that access outstanding:
after a read no byte of memory changed, after a write exactly the writes before it performed. From then on exec changes
nothing. -/
def Obligations.UnansweredAccessStaysBusy : Prop :=
  ∀ (p : Platform) (i : Instr) (s : State) (pre post : List (Component × Nat)) (c : Component) (j : Nat),
    canStep s = true →
      (accessOrder (shapeOf i).reads (stepSize p s) = pre ++ (c, j) :: post →
        (∀ x ∈ pre, busAnswer p (elementAddress s x.1 (s.progress.toNat + x.2)) .read = .ok) →
        busAnswer p (elementAddress s c (s.progress.toNat + j)) .read = .never →
          ∃ t lane, execOn p i s = .next t ∧
            t = { s with
              lane := lane
              outstanding := some ⟨.read, elementAddress s c (s.progress.toNat + j), 0#32⟩ } ∧
            busy t = true ∧ ∀ i', execOn p i' t = .next t) ∧
      (legal p s = true → stepAccessesOk p (shapeOf i).reads [] s = true →
        accessOrder (shapeOf i).writes (stepSize p s) = pre ++ (c, j) :: post →
        (∀ x ∈ pre, busAnswer p (elementAddress s x.1 (s.progress.toNat + x.2)) .write = .ok) →
        busAnswer p (elementAddress s c (s.progress.toNat + j)) .write = .never →
          ∃ t mem lane, execOn p i s = .next t ∧
            t = { s with
              mem := mem
              lane := lane
              outstanding := some ⟨.write, elementAddress s c (s.progress.toNat + j),
                commandOutput i s.precision (elementInputs s (s.progress.toNat + j)) c⟩ } ∧
            (∀ x ∈ pre, mem.readWord (elementAddress s x.1 (s.progress.toNat + x.2)) =
              commandOutput i s.precision (elementInputs s (s.progress.toNat + x.2)) x.1) ∧
            (∀ addr, (∀ x ∈ pre, holdsByte s x.1 (s.progress.toNat + x.2) addr = false) →
              mem.readByte addr = s.mem.readByte addr) ∧
            busy t = true ∧ ∀ i', execOn p i' t = .next t)

/-! ### The register window -/

/-- Tier 2, stated (40_command_engine.md R154; offsets of 10_state.md R31): a 32-bit aligned read of the window answers the
value of the register at its offset and changes nothing of the block. -/
def Obligations.RegisterReadsAnswerTheTable : Prop :=
  (∀ (p : Platform) (s : State) (rest : List HostEvent) (off : Nat), off < 256 → off % 4 = 0 → s.resetHeld = false →
      s.inputs = .portRead 4 (p.blkBase + off) :: rest →
        stepOn p s = .next { s with inputs := rest, response := .data (readRegister p (regOfIndex (off / 4)) s) }) ∧
    ∀ (p : Platform) (s : State), 1 ≤ p.laneWidth → p.laneWidth ≤ 65535 →
      let v := fun off : Nat => readRegister p (regOfIndex (off / 4)) s
      v 0x00 = 0x4B434359#32 ∧ (v 0x04).toNat = 0x00010000 + p.laneWidth ∧ v 0x08 = s.lastCmd ∧
        (v 0x0C).toNat = 256 * (errorCodeBits s.errCode).toNat + 8 * s.ovr.toNat + 4 * s.err.toNat + 2 * s.done.toNat +
          (if s.engine = .run then 1 else 0) ∧
        (v 0x10).toNat = s.irqEn.toNat ∧ v 0x14 = s.maxValue ∧ v 0x18 = s.halfValue ∧ v 0x1C = s.kScale ∧
        v 0x20 = s.compBase.c0 ∧ v 0x24 = s.compBase.c1 ∧ v 0x28 = s.compBase.c2 ∧ v 0x2C = s.compBase.c3 ∧
        v 0x30 = s.compLen.c0 ∧ v 0x34 = s.compLen.c1 ∧ v 0x38 = s.compLen.c2 ∧ v 0x3C = s.compLen.c3 ∧
        v 0x40 = s.progress ∧ v 0x44 = s.errAddr ∧ ∀ off, 0x48 ≤ off → off < 256 → off % 4 = 0 → v off = 0#32

/-- Tier 2, stated (10_state.md R36): a STATUS write clears DONE, ERR with ERRCODE and ERR_ADDR, and OVR by its bits 1, 2 and 3,
at any time, and changes nothing else. -/
def Obligations.StatusWriteClearsByBits : Prop :=
  ∀ (p : Platform) (s : State) (rest : List HostEvent) (v : Word),
    s.inputs = .portWrite 4 (p.blkBase + 0x0C) v :: rest → s.resetHeld = false →
      stepOn p s = .next { s with
        inputs := rest
        response := .written
        done := s.done && !v.getLsbD 1
        err := s.err && !v.getLsbD 2
        errCode := if v.getLsbD 2 then .none else s.errCode
        errAddr := if v.getLsbD 2 then 0#32 else s.errAddr
        ovr := s.ovr && !v.getLsbD 3 }

/-- Tier 2 (40_command_engine.md R155; 10_state.md R37 to R42): a write of IRQ_EN keeps its three bits, and a write of
MAX_VALUE, HALF_VALUE, COMPn_BASE or COMPn_LEN its 32 bits, at any time; nothing else changes. -/
def Obligations.RegisterWritesStoreTheirValue : Prop :=
  ∀ (p : Platform) (s : State) (rest : List HostEvent) (off : Nat) (v : Word), s.resetHeld = false →
    s.inputs = .portWrite 4 (p.blkBase + off) v :: rest →
      let t := { s with inputs := rest, response := .written }
      (off = 0x10 → stepOn p s = .next { t with irqEn := v.extractLsb' 0 3 }) ∧
        (off = 0x14 → stepOn p s = .next { t with maxValue := v }) ∧
        (off = 0x18 → stepOn p s = .next { t with halfValue := v }) ∧
        (off = 0x20 → stepOn p s = .next { t with compBase := { s.compBase with c0 := v } }) ∧
        (off = 0x24 → stepOn p s = .next { t with compBase := { s.compBase with c1 := v } }) ∧
        (off = 0x28 → stepOn p s = .next { t with compBase := { s.compBase with c2 := v } }) ∧
        (off = 0x2C → stepOn p s = .next { t with compBase := { s.compBase with c3 := v } }) ∧
        (off = 0x30 → stepOn p s = .next { t with compLen := { s.compLen with c0 := v } }) ∧
        (off = 0x34 → stepOn p s = .next { t with compLen := { s.compLen with c1 := v } }) ∧
        (off = 0x38 → stepOn p s = .next { t with compLen := { s.compLen with c2 := v } }) ∧
        (off = 0x3C → stepOn p s = .next { t with compLen := { s.compLen with c3 := v } })

/-- Tier 2, stated (10_state.md R45): a write of a reserved offset or of a read-only register has no effect, a read of a
reserved offset returns 0, and neither raises an error. -/
def Obligations.ReservedAndReadOnlyWritesIgnored : Prop :=
  ∀ (p : Platform) (s : State) (rest : List HostEvent) (off : Nat) (v : Word), s.resetHeld = false → off < 256 → off % 4 = 0 →
    (off ∈ [0x00, 0x04, 0x1C, 0x40, 0x44] ∨ 0x48 ≤ off →
        s.inputs = .portWrite 4 (p.blkBase + off) v :: rest →
          stepOn p s = .next { s with inputs := rest, response := .written }) ∧
      (0x48 ≤ off → s.inputs = .portRead 4 (p.blkBase + off) :: rest →
        stepOn p s = .next { s with inputs := rest, response := .data 0#32 })

/-- Tier 2, stated (10_state.md R46): an access of the window that is not 32 bits wide or not at a 4-byte-aligned offset changes
no state of the block and returns a slave error without data. -/
def Obligations.NarrowOrMisalignedAccessIsSlaveError : Prop :=
  ∀ (p : Platform) (s : State) (rest : List HostEvent) (size off : Nat) (v : Word), s.resetHeld = false → off < 256 →
    size ≠ 4 ∨ off % 4 ≠ 0 →
      (s.inputs = .portRead size (p.blkBase + off) :: rest →
          stepOn p s = .next { s with inputs := rest, response := .slaveError }) ∧
        (s.inputs = .portWrite size (p.blkBase + off) v :: rest →
          stepOn p s = .next { s with inputs := rest, response := .slaveError })

/-- Tier 2, noninterference (10_state.md R47): a write of MAX_VALUE, HALF_VALUE, COMPn_BASE, COMPn_LEN or IRQ_EN while a command
runs does not reach it: the engine's step then is the step without the write, with the register written. -/
def Obligations.RegisterWritesDoNotReachTheRunningCommand : Prop :=
  ∀ (p : Platform) (s t : State) (r : Reg) (v : Word),
    r ∈ [.irqEn, .maxValue, .halfValue] ∨ (∃ c, r = .compBase c) ∨ (∃ c, r = .compLen c) → s.engine = .run →
      execOn p s.op s = .next t → execOn p s.op (writeRegister r v s) = .next (writeRegister r v t)

/-- Tier 1 (60_exceptions.md R236): the interrupt output is the or of DONE, ERR and OVR with their enables, as STATUS
and IRQ_EN read. -/
def Obligations.IrqFollowsStatusAndEnables : Prop :=
  ∀ (p : Platform) (s : State),
    irq s = (((statusWord s).getLsbD 1 && (readRegister p .irqEn s).getLsbD 0) ||
      ((statusWord s).getLsbD 2 && (readRegister p .irqEn s).getLsbD 1) ||
      ((statusWord s).getLsbD 3 && (readRegister p .irqEn s).getLsbD 2))

/-- Tier 1 (30_encoding.md R109; log 21): a round of `wait` reads STATUS, and goes on, after a turn of the engine, while bit 0
of the value read is 1. -/
def Obligations.WaitPollsStatus : Prop :=
  ∀ (p : Platform) (s : State) (rest : List HostEvent), s.inputs = .wait :: rest → s.resetHeld = false →
    stepOn p s = .next { s with
      inputs := if (statusWord s).getLsbD 0 then .engineTurn :: .wait :: rest else rest
      response := .data (statusWord s) }

/-! ### Rules of the whole machine -/

/-- Tier 2 (60_exceptions.md R225; 10_state.md R48): no step clears OVR but a STATUS write with bit 3 set and a reset. -/
def Obligations.OverrunStaysUntilCleared : Prop :=
  ∀ (p : Platform) (s t : State), stepOn p s = .next t → s.ovr = true →
    t.ovr = true ∨
      (∃ v rest, s.inputs = .portWrite 4 (p.blkBase + 0x0C) v :: rest ∧ v.getLsbD 3 = true) ∨
      ∃ n b rest, s.inputs = .assertReset n b :: rest

/-- Tier 2 (40_command_engine.md R156; 60_exceptions.md R246): from a legal state, a running command ends only by completion, by
a bus error or by reset, and IDLE is left only by an accept of a legal command word that passes its checks with L > 0. -/
def Obligations.BusyChangesOnlyAsTheRulesSay : Prop :=
  ∀ (p : Platform) (s t : State), legal p s = true → stepOn p s = .next t →
    (s.engine = .run → t.engine = .idle →
        (t.done = true ∧ t.progress = s.sLen ∧ t.err = false) ∨
          (t.err = true ∧ t.errCode = .bus ∧ t.progress = s.progress ∧
            (busOk p t.errAddr .read = false ∨ busOk p t.errAddr .write = false)) ∨
          ∃ n b rest, s.inputs = .assertReset n b :: rest) ∧
      (s.engine = .idle → t.engine = .run →
        ∃ i rest, s.inputs = .portWrite 4 (p.blkBase + 0x08) (encode i) :: rest ∧ t.op = i ∧
          contextAccepted i s = true ∧ buffersAccepted s = true ∧ s.compLen.c0 ≠ 0#32)

/-- Tier 2 (10_state.md R34, R49, R52, R53, R54): CMD reads the data of the last CMD write made while BUSY was 0: such a write
stores its data whatever its outcome. LAST_CMD, the shadows with K_SCALE, S_NW and op change by such a write and by reset
alone. -/
def Obligations.LastCommandAndShadowsChangeOnlyAtAccept : Prop :=
  ∀ (p : Platform) (s t : State), stepOn p s = .next t →
    (∀ w rest, s.inputs = .portWrite 4 (p.blkBase + 0x08) w :: rest → s.engine = .idle → readRegister p .cmd t = w) ∧
      ((t.lastCmd = s.lastCmd ∧ t.sMax = s.sMax ∧ t.sHalf = s.sHalf ∧ t.sKScale = s.sKScale ∧ t.kScale = s.kScale ∧
          t.sBase = s.sBase ∧ t.sLen = s.sLen ∧ t.sNW = s.sNW ∧ t.op = s.op) ∨
        (s.engine = .idle ∧ ∃ w rest, s.inputs = .portWrite 4 (p.blkBase + 0x08) w :: rest) ∨
        ∃ n b rest, s.inputs = .assertReset n b :: rest)


/-- Tier 2 (20_memory.md R71, R94; 40_command_engine.md R157; log 16): from a legal state, a byte of memory changes only by a
host write that covers it on a coherent platform, by a write-back of a dirty copy of its word, or by the running command and
then in a region of component 0, 1 or 2: by the block never while IDLE, never in component3. -/
def Obligations.MemoryChangesOnlyInOutputRegions : Prop :=
  ∀ (p : Platform) (s t : State) (addr : Nat), legal p s = true → stepOn p s = .next t →
    t.mem.readByte addr ≠ s.mem.readByte addr →
      (p.coherent = true ∧
        ∃ a bytes rest, s.inputs = .memWrite a bytes :: rest ∧ a ≤ addr ∧ addr < a + bytes.length) ∨
      (p.coherent = false ∧ ∃ a n rest e, s.inputs = .cacheClean a n :: rest ∧ wordTouched a n (addr / 4) = true ∧
        cacheLookup s.hostCache (addr / 4) = some e ∧ e.dirty = true) ∨
      (s.engine = .run ∧ inRegion s .component3 addr = false ∧
        ∃ c ∈ [Component.component0, .component1, .component2], inRegion s c addr = true)

/-- Tier 2, noninterference (20_memory.md R71; 40_command_engine.md R157; 43_rgb_to_ycck.md R201): memory outside the regions
that the command reads cannot influence its step: with other bytes there, the step is the same but for those bytes, which
stay. -/
def Obligations.MemoryNotReadHasNoInfluence : Prop :=
  ∀ (p : Platform) (s t : State) (other : Memory), legal p s = true → canStep s = true → other.wf = true →
    (∀ addr, (∃ c ∈ (shapeOf s.op).reads, inRegion s c addr = true) → other.readByte addr = s.mem.readByte addr) →
    execOn p s.op s = .next t →
      ∃ mem, execOn p s.op { s with mem := other } = .next { t with mem := mem } ∧
        ∀ addr, mem.readByte addr =
          if (∃ c ∈ (shapeOf s.op).reads, inRegion s c addr = true) then t.mem.readByte addr else other.readByte addr

/-- Tier 2, safety (20_memory.md R89; 70_reset_and_hazards.md R261; log 13, log 14, log 15, log 16, log 23): a step whose
event is safe, on a platform without devices, neither faults nor is refused. -/
def Obligations.SafeEventsNeverStop : Prop :=
  ∀ (p : Platform) (s : State), stepSafe p s = true → ∃ t, stepOn p s = .next t

/-! ### The host and the data space -/

/-- Tier 2, stated (20_memory.md R89): a host write to a byte of an active region while BUSY faults the run. -/
def Obligations.HostWriteToActiveBufferFaults : Prop :=
  ∀ (p : Platform) (s : State) (rest : List HostEvent) (addr k : Nat) (bytes : List Byte) (c : Component),
    s.inputs = .memWrite addr bytes :: rest → addr + bytes.length ≤ 2 ^ 32 → s.engine = .run → k < bytes.length →
      inRegion s c (addr + k) = true → stepOn p s = .fault .hostWriteDuringBusy

/-- Tier 2 (20_memory.md R72, R73; log 16): a host write to no active region, while IDLE and while BUSY, changes nothing else
of the machine. That it reaches the one memory at once on a coherent platform, and stays in the host's caches as dirty copies of
the words it touches on one that is not coherent until a write-back, is the model's reading of what 20_memory.md R86 and R94
leave to the platform (log 16, DESIGN CHOICE). -/
def Obligations.HostWriteElsewhereStoresItsBytes : Prop :=
  ∀ (p : Platform) (s : State) (rest : List HostEvent) (addr : Nat) (bytes : List Byte), s.mem.wf = true →
    s.inputs = .memWrite addr bytes :: rest → addr + bytes.length ≤ 2 ^ 32 →
    (∀ k < bytes.length, s.engine = .run → ∀ c, inRegion s c (addr + k) = false) →
      (p.coherent = true → ∃ mem, stepOn p s = .next { s with inputs := rest, response := .written, mem := mem } ∧
        ∀ a, mem.readByte a =
          if addr ≤ a ∧ a < addr + bytes.length then bytes.getD (a - addr) 0#8 else s.mem.readByte a) ∧
      (p.coherent = false →
        ∃ cache, stepOn p s = .next { s with inputs := rest, response := .written, hostCache := cache } ∧
          (∀ i, wordTouched addr bytes.length i = true →
            ∃ v, cacheLookup cache i = some ⟨i, v, true⟩ ∧ ∀ k < 4, byteOfWord v k =
              if addr ≤ 4 * i + k ∧ 4 * i + k < addr + bytes.length then bytes.getD (4 * i + k - addr) 0#8
              else
                match cacheLookup s.hostCache i with
                | some e => byteOfWord e.value k
                | none => s.mem.readByte (4 * i + k)) ∧
          ∀ i, wordTouched addr bytes.length i = false → cacheLookup cache i = cacheLookup s.hostCache i)

/-- Tier 2 (20_memory.md R79, R88; log 8, log 16): a host read of some or all bytes of a word of an active buffer while BUSY
returns bytes of one whole word w, which is the word's value at accept or the value that the command leaves there; which one is
a free choice of the model. Without coherence the caches keep w whole, so that no later read mixes it with another value; and
where they hold a copy of the word already, w is that copy. -/
def Obligations.HostReadDuringBusyIsOldOrNew : Prop :=
  ∀ (p : Platform) (s : State) (rest : List HostEvent) (c : Component) (k j n : Nat), legal p s = true →
    buffersConsistent s = true → canStep s = true → k < s.sLen.toNat → 0 < n → j + n ≤ 4 →
    s.inputs = .memRead ((elementAddress s c k).toNat + j) n :: rest →
      let i := (elementAddress s c k).toNat / 4
      ∃ (w : Word) (cache : List CachedWord),
        (cacheLookup s.hostCache i = none → w = (inputsAtAccept s k).get c ∨ w = valueWritten s c k) ∧
        (∀ e, cacheLookup s.hostCache i = some e → p.coherent = false ∧ w = e.value) ∧
        stepOn p s = .next { s with
          inputs := rest
          response := .bytes ((List.range n).map fun m => byteOfWord w (j + m))
          hostCache := cache
          freeCount := s.freeCount + 1 } ∧
        (p.coherent = true → cache = s.hostCache) ∧
        (p.coherent = false → ∀ x, cacheLookup cache x =
          if x = i ∧ cacheLookup s.hostCache i = none then some ⟨i, w, false⟩ else cacheLookup s.hostCache x)

/-- Tier 2 (20_memory.md R72, R73, R80, R87, R94; log 8, log 16): a host read of words of no active region, while IDLE and
while BUSY, changes nothing else of the block. That it returns the one memory's bytes on a coherent platform, and without
coherence the copies of words in the host's caches, stale or not, where they hold one, and keeps the words it fetched, is the
model's reading of what the spec leaves to the platform (log 16, DESIGN CHOICE); freeCount is the model's own (log 8). -/
def Obligations.HostReadElsewhereReturnsItsBytes : Prop :=
  ∀ (p : Platform) (s : State) (rest : List HostEvent) (addr n : Nat), addr + n ≤ 2 ^ 32 →
    s.inputs = .memRead addr n :: rest →
    (∀ a, wordTouched addr n (a / 4) = true → s.engine = .run → ∀ c, inRegion s c a = false) →
      ∃ (value : Nat → Byte) (cache : List CachedWord),
        stepOn p s = .next { s with
          inputs := rest
          response := .bytes ((List.range n).map fun k => value (addr + k))
          hostCache := cache
          freeCount := s.freeCount + 1 } ∧
        (p.coherent = true → cache = s.hostCache ∧ ∀ a, value a = s.mem.readByte a) ∧
        (p.coherent = false →
          (∀ i e, wordTouched addr n i = true → cacheLookup s.hostCache i = some e →
            (∀ k < 4, value (4 * i + k) = byteOfWord e.value k) ∧ cacheLookup cache i = some e) ∧
          (∀ i, wordTouched addr n i = true → cacheLookup s.hostCache i = none →
            (∀ k < 4, value (4 * i + k) = s.mem.readByte (4 * i + k)) ∧
              ∃ v, cacheLookup cache i = some ⟨i, v, false⟩ ∧ ∀ k < 4, byteOfWord v k = s.mem.readByte (4 * i + k)) ∧
          ∀ i, wordTouched addr n i = false → cacheLookup cache i = cacheLookup s.hostCache i)

/-- Tier 2 (20_memory.md R89, R94; 70_reset_and_hazards.md R266, R267; log 16, DESIGN CHOICE): a clean of the host's caches
writes their dirty copies of the words of its bytes to memory, whole, and keeps every copy, now clean; one that reaches an
active region while BUSY faults the run. An invalidation drops the copies of the words of its bytes and changes nothing else. -/
def Obligations.HostCacheMaintenanceMovesOrDropsCopies : Prop :=
  ∀ (p : Platform) (s : State) (rest : List HostEvent) (addr n : Nat), s.mem.wf = true →
    cacheWfFrom 0 s.hostCache = true →
      let dirty := fun i e => wordTouched addr n i = true ∧ cacheLookup s.hostCache i = some e ∧ e.dirty = true
      (s.inputs = .cacheClean addr n :: rest →
        ((∀ a e, dirty (a / 4) e → s.engine = .run → ∀ c, inRegion s c a = false) →
          ∃ mem cache, stepOn p s = .next { s with inputs := rest, mem := mem, hostCache := cache } ∧
            (∀ a e, dirty (a / 4) e → mem.readByte a = byteOfWord e.value (a % 4)) ∧
            (∀ a, (∀ e, ¬ dirty (a / 4) e) → mem.readByte a = s.mem.readByte a) ∧
            ∀ i, cacheLookup cache i =
              if wordTouched addr n i = true then (cacheLookup s.hostCache i).map fun e => { e with dirty := false }
              else cacheLookup s.hostCache i) ∧
        ((∃ a e c, dirty (a / 4) e ∧ inRegion s c a = true) → s.engine = .run →
          stepOn p s = .fault .hostWriteDuringBusy)) ∧
      (s.inputs = .cacheInvalidate addr n :: rest →
        ∃ cache, stepOn p s = .next { s with inputs := rest, hostCache := cache } ∧
          ∀ i, cacheLookup cache i = if wordTouched addr n i = true then none else cacheLookup s.hostCache i)

/-! ### Reset -/

/-- Tier 2 (10_state.md R31, R60; 70_reset_and_hazards.md R260): after reset, on every platform, every register of the window
reads its reset value, irq is deasserted and the engine is IDLE. -/
def Obligations.ResetRegistersReadTheirValues : Prop :=
  ∀ (p : Platform) (off : Nat), p.laneWidthInRange = true → off < 256 → off % 4 = 0 →
    (readRegister p (regOfIndex (off / 4)) (State.resetOn p)).toNat =
        (if off = 0 then 0x4B434359 else if off = 4 then 0x00010000 + p.laneWidth else 0) ∧
      irq (State.resetOn p) = false ∧ (State.resetOn p).engine = .idle

/-- Tier 1 (70_reset_and_hazards.md R260, R263): a reset while IDLE puts every piece of the block's state at its reset value
and leaves memory as it is. The values of what the spec leaves unspecified are the model's (log 6), and so are the host's
caches, the events still to come and the count of free choices, which a reset does not touch (log 9, log 16). -/
def Obligations.ResetWhileIdle : Prop :=
  ∀ (p : Platform) (s : State) (rest : List HostEvent) (n : Nat) (b : Bool), s.inputs = .assertReset n b :: rest →
    s.engine = .idle →
    stepOn p s = .next { State.resetOn p with
      mem := s.mem
      resetHeld := true
      hostCache := s.hostCache
      inputs := rest
      freeCount := s.freeCount }

/-- Tier 2 (70_reset_and_hazards.md R262; log 6, log 9, log 12, log 16): a reset while RUN, at any point of a step, abandons the
command with neither DONE nor ERR; each element then holds what it held (its output below PROGRESS, else its input), or, in the
step in progress, its output; no byte outside the regions changes. -/
def Obligations.ResetDuringRunLeavesInputsOrOutputs : Prop :=
  ∀ (p : Platform) (s : State) (rest : List HostEvent) (n : Nat) (b : Bool), legal p s = true → buffersConsistent s = true →
    canStep s = true → s.inputs = .assertReset n b :: rest →
      ∃ mem, stepOn p s = .next { State.resetOn p with
          mem := mem
          resetHeld := true
          hostCache := s.hostCache
          inputs := rest
          freeCount := s.freeCount } ∧
        (∀ c k, k < s.sLen.toNat → mem.readWord (elementAddress s c k) = elementWord s c k ∨
          (c ≠ .component3 ∧ s.progress.toNat ≤ k ∧ k < s.progress.toNat + stepSize p s ∧
            mem.readWord (elementAddress s c k) = valueWritten s c k)) ∧
        (∀ addr, (∀ c, inRegion s c addr = false) → mem.readByte addr = s.mem.readByte addr)

/-- Tier 1 (70_reset_and_hazards.md R261; 30_encoding.md R109; log 13, log 21): while reset is held, a register-port access is
refused, and the engine issues no data-port access: its turn changes nothing. That a round of `wait` is such an access, and so
refused, is the model's reading (log 13, DEDUCED; log 21). -/
def Obligations.PortAccessDuringResetIsRefused : Prop :=
  ∀ (p : Platform) (s : State), s.resetHeld = true →
    (∀ size addr rest, s.inputs = .portRead size addr :: rest → stepOn p s = .refused .portAccessDuringReset) ∧
      (∀ size addr v rest, s.inputs = .portWrite size addr v :: rest → stepOn p s = .refused .portAccessDuringReset) ∧
      (∀ rest, s.inputs = .wait :: rest → stepOn p s = .refused .portAccessDuringReset) ∧
      (s.inputs = [] → stepOn p s = .next s) ∧
      ∀ rest, s.inputs = .engineTurn :: rest → stepOn p s = .next { s with inputs := rest }

/-! ### Invariants -/

/-- Tier 1 (10_state.md R60; log 6, log 7): the state after reset is legal on every platform with legal parameters, and
State.reset is one. -/
def Obligations.ResetIsLegal : Prop :=
  (∀ p : Platform, p.wellFormed = true →
      legal p (State.resetOn p) = true ∧ buffersConsistent (State.resetOn p) = true) ∧
    legal Config.platform State.reset = true

/-- Tier 3, invariant (10_state.md R35, R40, R43, R44, R50, R54, R55; 20_memory.md R74 to R77): every step keeps a legal state
legal: the STATUS invariants, the checks' consequences for a running command, S_NW and the place of `i`, the number of lane
registers, the canonical form of memory. -/
def Obligations.EveryStepKeepsLegal : Prop :=
  ∀ (p : Platform) (s t : State), legal p s = true → stepOn p s = .next t → legal p t = true

/-- Tier 3, invariant (60_exceptions.md R231; 40_command_engine.md R146, R157): every step keeps the buffers of a running
command consistent: below PROGRESS every element holds its output, and every other one, and all of component3, its value at
accept. -/
def Obligations.EveryStepKeepsBuffersConsistent : Prop :=
  ∀ (p : Platform) (s t : State), legal p s = true → buffersConsistent s = true → stepOn p s = .next t →
    buffersConsistent t = true

/-! ### Whole commands -/

/-- Tier 2 (40_command_engine.md R158, R159, R146, R149): a command accepted with L > 0 on a bus that completes every access,
with no event from outside, is still running before S_NW / W + (L - S_NW) steps and complete after them: DONE, PROGRESS L, for
every index exactly its element function of that index's inputs in components 0 to 2, component3 unchanged, and no byte outside
the written regions changed. -/
def Obligations.CommandRunsToCompletion : Prop :=
  ∀ (p : Platform) (i : Instr) (s : State), legal p s = true → s.engine = .idle → s.resetHeld = false → s.inputs = [] →
    contextAccepted i s = true → buffersAccepted s = true → s.compLen.c0 ≠ 0#32 → busAlwaysOk p = true →
      ∃ s0, execOn p i s = .next s0 ∧
        (∀ n < stepCount p.laneWidth s.compLen.c0.toNat,
          ∃ u, (machineOn p).run n s0 = .next u ∧ State.engine u = .run) ∧
        ∃ t, (machineOn p).run (stepCount p.laneWidth s.compLen.c0.toNat) s0 = .next t ∧
          State.engine t = .idle ∧ State.done t = true ∧ State.err t = false ∧ State.progress t = s.compLen.c0 ∧
          (∀ c k, k < s.compLen.c0.toNat → (State.mem t).readWord (elementAddress s0 c k) =
            commandOutput i ⟨s.maxValue, s.halfValue, fdiv ONE (fmul s.maxValue s.maxValue)⟩ (elementInputs s0 k) c) ∧
          ∀ addr, (∀ c ∈ [Component.component0, .component1, .component2], inRegion s0 c addr = false) →
            (State.mem t).readByte addr = s.mem.readByte addr

/-- Tier 2, equivalence (00_scope.md R11; 40_command_engine.md R146): what a completed command leaves in memory does not depend
on the lane width: two blocks that differ only in W, given the same command with no event from outside, leave the same memory
when both complete. -/
def Obligations.ResultsDoNotDependOnLaneWidth : Prop :=
  ∀ (p p' : Platform) (i : Instr) (s s' s0 s0' t t' : State) (n n' : Nat), legal p s = true →
    p' = { p with laneWidth := p'.laneWidth } → s' = { s with lane := s'.lane } → legal p' s' = true →
    s.engine = .idle → s.resetHeld = false → s.inputs = [] →
    execOn p i s = .next s0 → execOn p' i s' = .next s0' →
    (machineOn p).run n s0 = .next t → (machineOn p').run n' s0' = .next t' →
    State.done t = true → State.done t' = true →
      State.mem t = State.mem t' ∧ State.progress t = State.progress t' ∧ State.kScale t = State.kScale t'

/-! ### Binary32 -/

/-- Tier 2, stated (00_scope.md R18): an operation that gives a NaN gives the canonical NaN, and a NaN operand gives a NaN. -/
def Obligations.EveryNaNResultIsCanonical : Prop :=
  ∀ a b : Word,
    (isNaN (fadd a b) = true → fadd a b = 0x7FC00000#32) ∧ (isNaN (fsub a b) = true → fsub a b = 0x7FC00000#32) ∧
      (isNaN (fmul a b) = true → fmul a b = 0x7FC00000#32) ∧ (isNaN (fdiv a b) = true → fdiv a b = 0x7FC00000#32) ∧
      (isNaN (roundTA a) = true → roundTA a = 0x7FC00000#32) ∧
      (isNaN a = true ∨ isNaN b = true → fadd a b = 0x7FC00000#32 ∧ fsub a b = 0x7FC00000#32 ∧
        fmul a b = 0x7FC00000#32 ∧ fdiv a b = 0x7FC00000#32) ∧
      (isNaN a = true → roundTA a = 0x7FC00000#32)

/-- Tier 2 (00_scope.md R17): on finite operands each operation is its exact result rounded once to nearest, ties to even, with
overflow to infinity and no flush to zero. The sign of an exact zero sum and of products and quotients is IEEE 754's
(log 19). -/
def Obligations.ArithmeticRoundsOnceToNearestEven : Prop :=
  ∀ a b : Word, isFinite a = true → isFinite b = true →
    let rounded := fun (negative : Bool) (num den : Nat) (r : Word) =>
      signBit r = negative ∧ (overflows num den → absPattern r = 0x7F800000) ∧
        (¬ overflows num den → isFinite r = true ∧ nearestEven num den r)
    let sum := unitValue a + unitValue b
    (sum ≠ 0 → rounded (decide (sum < 0)) sum.natAbs 1 (fadd a b)) ∧
      (sum = 0 → fadd a b = if signBit a = true ∧ signBit b = true then 0x80000000#32 else 0#32) ∧
      rounded (signBit a != signBit b) (magnitude a * magnitude b) (2 ^ 149) (fmul a b) ∧
      (magnitude b ≠ 0 → rounded (signBit a != signBit b) (magnitude a * 2 ^ 149) (magnitude b) (fdiv a b)) ∧
      fsub a b = fadd a (b ^^^ 0x80000000#32)

/-- Tier 2 (00_scope.md R17): the IEEE special cases that R17 lists: `x - x = +0` for finite x; inf - inf, 0 * inf and 0/0 give
NaN; `1/(+0) = +inf`; `fsub(a, b) = fadd(a, -b)` for all words. -/
def Obligations.ListedSpecialCasesHold : Prop :=
  (∀ x : Word, isFinite x = true → fsub x x = 0#32) ∧
    (∀ x y : Word, isInfinite x = true → isInfinite y = true → signBit x = signBit y → fsub x y = 0x7FC00000#32) ∧
    (∀ x y : Word, isZero x = true → isInfinite y = true → fmul x y = 0x7FC00000#32 ∧ fmul y x = 0x7FC00000#32) ∧
    (∀ x y : Word, isZero x = true → isZero y = true → fdiv x y = 0x7FC00000#32) ∧
    fdiv ONE 0x00000000#32 = 0x7F800000#32 ∧
    ∀ a b : Word, fsub a b = fadd a (b ^^^ 0x80000000#32)

/-- Tier 2, stated (00_scope.md R19): roundTA, case by case, on magnitudes in units of 2^-149: NaN, infinities and zeros,
magnitudes of 2^23 and more, and otherwise `floor(|x| + 1/2)` exactly with the sign of x; and the rule's examples. -/
def Obligations.RoundTAIsExact : Prop :=
  (∀ x : Word,
    (isNaN x = true → roundTA x = 0x7FC00000#32) ∧
      (isInfinite x = true ∨ isZero x = true → roundTA x = x) ∧
      (isFinite x = true → 2 ^ 23 * 2 ^ 149 ≤ magnitude x → roundTA x = x) ∧
      (isFinite x = true → isZero x = false → magnitude x < 2 ^ 23 * 2 ^ 149 →
        isFinite (roundTA x) = true ∧ signBit (roundTA x) = signBit x ∧
          magnitude (roundTA x) = (magnitude x + 2 ^ 148) / 2 ^ 149 * 2 ^ 149)) ∧
    roundTA 0xBE99999A#32 = 0x80000000#32 ∧ roundTA 0x40200000#32 = 0x40400000#32 ∧
    roundTA 0xBF000000#32 = 0xBF800000#32 ∧ roundTA 0x3EFFFFFF#32 = 0x00000000#32 ∧
    roundTA 0xC0200000#32 = 0xC0400000#32

/-- Tier 2, stated (00_scope.md R22): isFinite, isNaN and `x > 0`, and the infinities by their pattern. -/
def Obligations.PredicatesReadThePattern : Prop :=
  ∀ u : Word,
    (isFinite u = true ↔ isInfinite u = false ∧ isNaN u = false) ∧
      (isFinite u = true ↔ u.toNat / 2 ^ 23 % 2 ^ 8 ≠ 0xFF) ∧
      (isInfinite u = true ↔ u.toNat / 2 ^ 23 % 2 ^ 8 = 0xFF ∧ u.toNat % 2 ^ 23 = 0) ∧
      (isNaN u = true ↔ u.toNat / 2 ^ 23 % 2 ^ 8 = 0xFF ∧ u.toNat % 2 ^ 23 ≠ 0) ∧
      (isPositive u = true ↔ 0 < u.toNat ∧ u.toNat ≤ 0x7F800000)

/-- Tier 2, stated (42_ycck_to_rgb.md R190): with K = +0 each output is +0 for a finite non-negative `S_MAX - r`, -0 for a
finite negative one, and the canonical NaN when r is not finite, for every Precision Context that an accept of YCCK2RGB
leaves. -/
def Obligations.ZeroBlackGivesSignedZeros : Prop :=
  ∀ (p : Precision) (y cb cr : Word), isFinite p.sMax = true → isPositive p.sMax = true → isFinite p.sKScale = true →
    isPositive p.sKScale = true →
      let out := elementYcck2rgb p ⟨y, cb, cr, 0#32⟩
      let b := fsub cb p.sHalf
      let r := fsub cr p.sHalf
      fmul 0#32 p.sKScale = 0#32 ∧
        ∀ q ∈ [(ycckRed y r, out.1), (ycckGreen y b r, out.2.1), (ycckBlue y b, out.2.2)],
          let d := fsub p.sMax q.1
          (isFinite d = true → signBit d = false → q.2 = 0x00000000#32) ∧
            (isFinite d = true → signBit d = true → q.2 = 0x80000000#32) ∧
            (isFinite q.1 = false → q.2 = 0x7FC00000#32)

/-- Tier 2 (42_ycck_to_rgb.md R191, its first sentence): with Y, Cb and Cr fixed, the magnitude of each output does not decrease
as K grows from +0, as long as kp and `S_MAX - r` are finite. -/
def Obligations.BlackScalingIsMonotonic : Prop :=
  ∀ (p : Precision) (y cb cr k k' : Word), isFinite p.sKScale = true → isPositive p.sKScale = true →
    k.toNat ≤ k'.toNat → k'.toNat < 0x7F800000 → isFinite (fmul k' p.sKScale) = true →
      let out := elementYcck2rgb p ⟨y, cb, cr, k⟩
      let out' := elementYcck2rgb p ⟨y, cb, cr, k'⟩
      let b := fsub cb p.sHalf
      let r := fsub cr p.sHalf
      (isFinite (fsub p.sMax (ycckRed y r)) = true → absPattern out.1 ≤ absPattern out'.1) ∧
        (isFinite (fsub p.sMax (ycckGreen y b r)) = true → absPattern out.2.1 ≤ absPattern out'.2.1) ∧
        (isFinite (fsub p.sMax (ycckBlue y b)) = true → absPattern out.2.2 ≤ absPattern out'.2.2)

/-- Tier 2 (41_cmyk_bridge.md R173, its sufficient condition on integers): in each of components 0 to 2, the complement taken
twice gives back every integer-valued sample but -0.0 when the sample, S_MAX and their difference are at most 2^24 in
magnitude. -/
def Obligations.ComplementTwiceReturnsIntegers : Prop :=
  ∀ (p : Precision) (x : Quad Word) (n m : Int), ∀ c ∈ [Component.component0, .component1, .component2],
    isFinite p.sMax = true → isFinite (x.get c) = true →
    unitValue p.sMax = m * 2 ^ 149 → unitValue (x.get c) = n * 2 ^ 149 → x.get c ≠ 0x80000000#32 →
    n.natAbs ≤ 2 ^ 24 → m.natAbs ≤ 2 ^ 24 → (m - n).natAbs ≤ 2 ^ 24 →
      let once := commandOutput .rgb2cmy p x
      commandOutput .cmy2rgb p ⟨once .component0, once .component1, once .component2, once .component3⟩ c = x.get c

/-- Tier 1, stated (42_ycck_to_rgb.md R192): the source's worked example, bit for bit. -/
def Obligations.WorkedExampleHolds : Prop :=
  let p : Precision := ⟨0x437F0000#32, 0x43000000#32, kScaleOf 0x437F0000#32⟩
  fsub 0x43000000#32 p.sHalf = 0x00000000#32 ∧ p.sKScale = 0x37810182#32 ∧ fmul 0x437F0000#32 p.sKScale = 0x3B808080#32 ∧
    ycckRed 0x43000000#32 0#32 = 0x43000000#32 ∧ ycckGreen 0x43000000#32 0#32 0#32 = 0x43000000#32 ∧
    ycckBlue 0x43000000#32 0#32 = 0x43000000#32 ∧
    elementYcck2rgb p ⟨0x43000000#32, 0x43000000#32, 0x43000000#32, 0x437F0000#32⟩ =
      (0x3EFEFEFE#32, 0x3EFEFEFE#32, 0x3EFEFEFE#32)
end

