-- ==== Sys2Proof/Laws/Memory.lean ====
section
/-! SUPPORT. The laws of the data space: reads after writes, and the canonical form. -/

namespace Sys2Proof.Machine

theorem Memory.wfFrom_cons (lo a : Nat) (b : Byte) (rest : Memory) :
    Memory.wfFrom lo ((a, b) :: rest) = true ↔
      lo ≤ a ∧ a < 2 ^ 32 ∧ b ≠ unlistedByte ∧ Memory.wfFrom (a + 1) rest = true := by
  simp [Memory.wfFrom, and_assoc]

theorem Memory.wfFrom_mono {lo hi : Nat} (h : lo ≤ hi) :
    ∀ {mem : Memory}, Memory.wfFrom hi mem = true → Memory.wfFrom lo mem = true
  | [], _ => rfl
  | (a, b) :: rest, hw => by
    rw [Memory.wfFrom_cons] at hw ⊢
    exact ⟨by omega, hw.2⟩

/-- Below a canonical memory every address reads as unlisted. -/
theorem Memory.readByte_below : ∀ {mem : Memory} {lo x : Nat}, Memory.wfFrom lo mem = true → x < lo →
    mem.readByte x = unlistedByte
  | [], _, _, _, _ => rfl
  | (a, b) :: rest, lo, x, hw, hx => by
    rw [Memory.wfFrom_cons] at hw
    have hne : x ≠ a := by omega
    rw [Memory.readByte, if_neg hne]
    exact Memory.readByte_below hw.2.2.2 (by omega)

theorem Memory.readByte_consByte {rest : Memory} {x : Nat} (v : Byte) (h : rest.readByte x = unlistedByte) (y : Nat) :
    (Memory.consByte x v rest).readByte y = if y = x then v else rest.readByte y := by
  unfold Memory.consByte
  split
  · next hv => split
               · next hy => rw [hy, h, hv]
               · rfl
  · rfl

/-- A byte read after one byte is written: the byte written at its address, what stood there elsewhere. -/
theorem Memory.readByte_writeByte_from : ∀ {mem : Memory} {lo : Nat} (x : Nat) (v : Byte) (y : Nat),
    Memory.wfFrom lo mem = true →
    (mem.writeByte x v).readByte y = if y = x then v else mem.readByte y
  | [], _, x, v, y, _ => Memory.readByte_consByte v rfl y
  | (a, b) :: rest, lo, x, v, y, hw => by
    have hc := (Memory.wfFrom_cons lo a b rest).1 hw
    rw [Memory.writeByte]
    split
    · next hlt =>
      have hwa : Memory.wfFrom a ((a, b) :: rest) = true :=
        (Memory.wfFrom_cons _ _ _ _).2 ⟨le_refl a, hc.2⟩
      exact Memory.readByte_consByte v (Memory.readByte_below hwa hlt) y
    · split
      · next heq =>
        subst heq
        rw [Memory.readByte_consByte v (Memory.readByte_below hc.2.2.2 (by omega)) y]
        by_cases hy : y = x <;> simp [Memory.readByte, hy]
      · next hne =>
        rw [Memory.readByte, Memory.readByte]
        by_cases hya : y = a
        · rw [if_pos hya, if_neg (by omega), if_pos hya]
        · simp only [if_neg hya]
          exact Memory.readByte_writeByte_from x v y hc.2.2.2

theorem Memory.readByte_writeByte {mem : Memory} (h : mem.wf = true) (x : Nat) (v : Byte) (y : Nat) :
    (mem.writeByte x v).readByte y = if y = x then v else mem.readByte y :=
  Memory.readByte_writeByte_from x v y h

theorem Memory.wfFrom_consByte {rest : Memory} {lo x : Nat} (v : Byte) (hlo : lo ≤ x) (hx : x < 2 ^ 32)
    (h : Memory.wfFrom (x + 1) rest = true) : Memory.wfFrom lo (Memory.consByte x v rest) = true := by
  unfold Memory.consByte
  split
  · exact Memory.wfFrom_mono (by omega) h
  · next hv => exact (Memory.wfFrom_cons _ _ _ _).2 ⟨hlo, hx, hv, h⟩

theorem Memory.wfFrom_writeByte : ∀ {mem : Memory} {lo : Nat} (x : Nat) (v : Byte), lo ≤ x → x < 2 ^ 32 →
    Memory.wfFrom lo mem = true → Memory.wfFrom lo (mem.writeByte x v) = true
  | [], _, _, v, hlo, hx, _ => Memory.wfFrom_consByte v hlo hx rfl
  | (a, b) :: rest, lo, x, v, hlo, hx, hw => by
    have hc := (Memory.wfFrom_cons lo a b rest).1 hw
    rw [Memory.writeByte]
    split
    · exact Memory.wfFrom_consByte v hlo hx ((Memory.wfFrom_cons _ _ _ _).2 ⟨by omega, hc.2⟩)
    · split
      · next heq => subst heq; exact Memory.wfFrom_consByte v hlo hx hc.2.2.2
      · exact (Memory.wfFrom_cons _ _ _ _).2 ⟨hc.1, hc.2.1, hc.2.2.1,
          Memory.wfFrom_writeByte x v (by omega) hx hc.2.2.2⟩

/-- Writing a byte inside the data space keeps the canonical form. -/
theorem Memory.wf_writeByte {mem : Memory} (h : mem.wf = true) {x : Nat} (v : Byte) (hx : x < 2 ^ 32) :
    (mem.writeByte x v).wf = true := Memory.wfFrom_writeByte x v (Nat.zero_le x) hx h

theorem byteAddress_lt (addr : Word) (k : Nat) : byteAddress addr k < 2 ^ 32 := (addr + BitVec.ofNat 32 k).isLt

/-- Writing a word keeps the canonical form. -/
theorem Memory.wf_writeWord {mem : Memory} (h : mem.wf = true) (addr v : Word) : (mem.writeWord addr v).wf = true := by
  unfold Memory.writeWord
  iterate 4 refine Memory.wf_writeByte ?_ _ (byteAddress_lt _ _)
  exact h

/-- Writing bytes inside the data space keeps the canonical form. -/
theorem Memory.wf_writeBytes : ∀ {mem : Memory} {addr : Nat} (bytes : List Byte), mem.wf = true →
    addr + bytes.length ≤ 2 ^ 32 → (mem.writeBytes addr bytes).wf = true
  | _, _, [], h, _ => h
  | _, _, b :: rest, h, hl => by
    rw [List.length_cons] at hl
    rw [Memory.writeBytes]
    exact Memory.wf_writeBytes rest (Memory.wf_writeByte h b (by omega)) (by omega)

/-- The bytes of a word come back from the word they make. -/
theorem wordOfBytes_byteOfWord (w : Word) :
    wordOfBytes (byteOfWord w 0) (byteOfWord w 1) (byteOfWord w 2) (byteOfWord w 3) = w := by
  apply BitVec.eq_of_getLsbD_eq
  intro i hi
  simp only [wordOfBytes, byteOfWord, BitVec.getLsbD_append, BitVec.getLsbD_extractLsb']
  rcases Nat.lt_or_ge i 8 with h | h
  · simp [h]
  · rcases Nat.lt_or_ge i 16 with h2 | h2
    · have : ¬ i < 8 := by omega
      have h3 : i - 8 < 8 := by omega
      simp [this, h3, show 8 + (i - 8) = i by omega]
    · rcases Nat.lt_or_ge i 24 with h4 | h4
      · have a1 : ¬ i < 8 := by omega
        have a2 : ¬ i - 8 < 8 := by omega
        have a3 : i - 8 - 8 < 8 := by omega
        simp [a1, a2, a3, show 16 + (i - 8 - 8) = i by omega]
      · have a1 : ¬ i < 8 := by omega
        have a2 : ¬ i - 8 < 8 := by omega
        have a3 : ¬ i - 8 - 8 < 8 := by omega
        have a4 : i - 8 - 8 - 8 < 8 := by omega
        simp [a1, a2, a3, a4, show 24 + (i - 8 - 8 - 8) = i by omega]

/-- The word that four bytes make has those bytes. -/
theorem byteOfWord_wordOfBytes (b : Nat → Byte) {k : Nat} (hk : k < 4) :
    byteOfWord (wordOfBytes (b 0) (b 1) (b 2) (b 3)) k = b k := by
  apply BitVec.eq_of_getLsbD_eq
  intro i hi
  rcases (by omega : k = 0 ∨ k = 1 ∨ k = 2 ∨ k = 3) with rfl | rfl | rfl | rfl <;>
    simp only [wordOfBytes, byteOfWord, BitVec.getLsbD_append, BitVec.getLsbD_extractLsb', hi, decide_true, Bool.true_and]
  · simp [hi]
  · rw [if_neg (by omega), if_pos (by omega), show 8 * 1 + i - 8 = i by omega]
  · rw [if_neg (by omega), if_neg (by omega), if_pos (by omega), show 8 * 2 + i - 8 - 8 = i by omega]
  · rw [if_neg (by omega), if_neg (by omega), if_neg (by omega), show 8 * 3 + i - 8 - 8 - 8 = i by omega]

/-- An aligned word's bytes lie at four consecutive addresses. -/
theorem byteAddress_aligned {addr : Word} (h : addr.toNat % 4 = 0) {k : Nat} (hk : k < 4) :
    byteAddress addr k = addr.toNat + k := by
  have h1 := addr.isLt
  unfold byteAddress
  rw [BitVec.toNat_add, BitVec.toNat_ofNat]
  omega

/-- A byte read after a word is written at an aligned address. -/
theorem Memory.readByte_writeWord {mem : Memory} (hw : mem.wf = true) {addr : Word} (ha : addr.toNat % 4 = 0) (v : Word)
    (y : Nat) :
    (mem.writeWord addr v).readByte y =
      if addr.toNat ≤ y ∧ y < addr.toNat + 4 then byteOfWord v (y - addr.toNat) else mem.readByte y := by
  have w0 := Memory.wf_writeByte hw (byteOfWord v 0) (byteAddress_lt addr 0)
  have w1 := Memory.wf_writeByte w0 (byteOfWord v 1) (byteAddress_lt addr 1)
  have w2 := Memory.wf_writeByte w1 (byteOfWord v 2) (byteAddress_lt addr 2)
  unfold Memory.writeWord
  rw [Memory.readByte_writeByte w2, Memory.readByte_writeByte w1, Memory.readByte_writeByte w0,
    Memory.readByte_writeByte hw]
  simp only [byteAddress_aligned ha (show 0 < 4 by omega), byteAddress_aligned ha (show 1 < 4 by omega),
    byteAddress_aligned ha (show 2 < 4 by omega), byteAddress_aligned ha (show 3 < 4 by omega)]
  by_cases h : addr.toNat ≤ y ∧ y < addr.toNat + 4
  · obtain ⟨k, hk, rfl⟩ : ∃ k, k < 4 ∧ y = addr.toNat + k := ⟨y - addr.toNat, by omega, by omega⟩
    rcases (by omega : k = 0 ∨ k = 1 ∨ k = 2 ∨ k = 3) with rfl | rfl | rfl | rfl <;> simp
  · rw [if_neg h, if_neg (by omega), if_neg (by omega), if_neg (by omega), if_neg (by omega)]

/-- A word read after a word is written, both aligned: the word written at its address, what stood there elsewhere. -/
theorem Memory.readWord_writeWord {mem : Memory} (hw : mem.wf = true) {addr other : Word} (ha : addr.toNat % 4 = 0)
    (ho : other.toNat % 4 = 0) (v : Word) :
    (mem.writeWord addr v).readWord other = if other = addr then v else mem.readWord other := by
  unfold Memory.readWord
  simp only [Memory.readByte_writeWord hw ha, byteAddress_aligned ho (show 0 < 4 by omega),
    byteAddress_aligned ho (show 1 < 4 by omega), byteAddress_aligned ho (show 2 < 4 by omega),
    byteAddress_aligned ho (show 3 < 4 by omega)]
  by_cases h : other = addr
  · subst h
    simp [show ∀ n : Nat, n + 1 - n = 1 by omega, show ∀ n : Nat, n + 2 - n = 2 by omega,
      show ∀ n : Nat, n + 3 - n = 3 by omega, wordOfBytes_byteOfWord]
  · have hne : other.toNat ≠ addr.toNat := fun e => h (BitVec.eq_of_toNat_eq e)
    have k : ∀ j, j < 4 → ¬ (addr.toNat ≤ other.toNat + j ∧ other.toNat + j < addr.toNat + 4) := by omega
    rw [if_neg h, if_neg (k 0 (by omega)), if_neg (k 1 (by omega)), if_neg (k 2 (by omega)), if_neg (k 3 (by omega))]

/-- Two canonical memories that read alike are the same list. -/
theorem Memory.ext_from : ∀ {m n : Memory} {lo : Nat}, Memory.wfFrom lo m = true → Memory.wfFrom lo n = true →
    (∀ x, m.readByte x = n.readByte x) → m = n
  | [], [], _, _, _, _ => rfl
  | [], (a, b) :: n, lo, _, hn, h => by
    have hc := (Memory.wfFrom_cons lo a b n).1 hn
    have := h a
    simp [Memory.readByte] at this
    exact absurd this.symm hc.2.2.1
  | (a, b) :: m, [], lo, hm, _, h => by
    have hc := (Memory.wfFrom_cons lo a b m).1 hm
    have := h a
    simp [Memory.readByte] at this
    exact absurd this hc.2.2.1
  | (a, b) :: m, (c, d) :: n, lo, hm, hn, h => by
    have hcm := (Memory.wfFrom_cons lo a b m).1 hm
    have hcn := (Memory.wfFrom_cons lo c d n).1 hn
    have hac : a = c := by
      rcases Nat.lt_trichotomy a c with hlt | heq | hgt
      · have h1 := h a
        rw [Memory.readByte_below ((Memory.wfFrom_cons c c d n).2 ⟨le_refl c, hcn.2⟩) hlt] at h1
        simp [Memory.readByte] at h1
        exact absurd h1 hcm.2.2.1
      · exact heq
      · have h1 := h c
        rw [Memory.readByte_below ((Memory.wfFrom_cons a a b m).2 ⟨le_refl a, hcm.2⟩) hgt] at h1
        simp [Memory.readByte] at h1
        exact absurd h1.symm hcn.2.2.1
    subst hac
    have hbd : b = d := by simpa [Memory.readByte] using h a
    subst hbd
    have hrest : m = n := Memory.ext_from hcm.2.2.2 hcn.2.2.2 (fun x => by
      by_cases hx : x = a
      · subst hx
        rw [Memory.readByte_below hcm.2.2.2 (by omega), Memory.readByte_below hcn.2.2.2 (by omega)]
      · simpa [Memory.readByte, hx] using h x)
    rw [hrest]

theorem Memory.ext_of_wf {m n : Memory} (hm : m.wf = true) (hn : n.wf = true) (h : ∀ x, m.readByte x = n.readByte x) :
    m = n := Memory.ext_from hm hn h

/-- Reset's memory has the canonical form. -/
theorem State.reset_mem_wf : State.reset.mem.wf = true := rfl

end Sys2Proof.Machine
end

