-- ==== Sys2Proof/Laws/State.lean ====
section
/-! SUPPORT. One lemma for each field and each named update of the state, true by rfl. -/

namespace Sys2Proof.Machine

/-! `State.setMem` -/

section
variable (s : State) (m : Memory)

@[simp] theorem State.setMem_lastCmd : (s.setMem m).lastCmd = s.lastCmd := rfl
@[simp] theorem State.setMem_done : (s.setMem m).done = s.done := rfl
@[simp] theorem State.setMem_err : (s.setMem m).err = s.err := rfl
@[simp] theorem State.setMem_ovr : (s.setMem m).ovr = s.ovr := rfl
@[simp] theorem State.setMem_errCode : (s.setMem m).errCode = s.errCode := rfl
@[simp] theorem State.setMem_irqEn : (s.setMem m).irqEn = s.irqEn := rfl
@[simp] theorem State.setMem_maxValue : (s.setMem m).maxValue = s.maxValue := rfl
@[simp] theorem State.setMem_halfValue : (s.setMem m).halfValue = s.halfValue := rfl
@[simp] theorem State.setMem_kScale : (s.setMem m).kScale = s.kScale := rfl
@[simp] theorem State.setMem_compBase : (s.setMem m).compBase = s.compBase := rfl
@[simp] theorem State.setMem_compLen : (s.setMem m).compLen = s.compLen := rfl
@[simp] theorem State.setMem_progress : (s.setMem m).progress = s.progress := rfl
@[simp] theorem State.setMem_errAddr : (s.setMem m).errAddr = s.errAddr := rfl
@[simp] theorem State.setMem_engine : (s.setMem m).engine = s.engine := rfl
@[simp] theorem State.setMem_op : (s.setMem m).op = s.op := rfl
@[simp] theorem State.setMem_sMax : (s.setMem m).sMax = s.sMax := rfl
@[simp] theorem State.setMem_sHalf : (s.setMem m).sHalf = s.sHalf := rfl
@[simp] theorem State.setMem_sKScale : (s.setMem m).sKScale = s.sKScale := rfl
@[simp] theorem State.setMem_sBase : (s.setMem m).sBase = s.sBase := rfl
@[simp] theorem State.setMem_sLen : (s.setMem m).sLen = s.sLen := rfl
@[simp] theorem State.setMem_sNW : (s.setMem m).sNW = s.sNW := rfl
@[simp] theorem State.setMem_lane : (s.setMem m).lane = s.lane := rfl
@[simp] theorem State.setMem_mem : (s.setMem m).mem = m := rfl
@[simp] theorem State.setMem_resetHeld : (s.setMem m).resetHeld = s.resetHeld := rfl
@[simp] theorem State.setMem_outstanding : (s.setMem m).outstanding = s.outstanding := rfl
@[simp] theorem State.setMem_hostCache : (s.setMem m).hostCache = s.hostCache := rfl
@[simp] theorem State.setMem_inputs : (s.setMem m).inputs = s.inputs := rfl
@[simp] theorem State.setMem_response : (s.setMem m).response = s.response := rfl
@[simp] theorem State.setMem_memAtAccept : (s.setMem m).memAtAccept = s.memAtAccept := rfl
@[simp] theorem State.setMem_freeCount : (s.setMem m).freeCount = s.freeCount := rfl

end

/-! `State.setInputs` -/

section
variable (s : State) (es : List HostEvent)

@[simp] theorem State.setInputs_lastCmd : (s.setInputs es).lastCmd = s.lastCmd := rfl
@[simp] theorem State.setInputs_done : (s.setInputs es).done = s.done := rfl
@[simp] theorem State.setInputs_err : (s.setInputs es).err = s.err := rfl
@[simp] theorem State.setInputs_ovr : (s.setInputs es).ovr = s.ovr := rfl
@[simp] theorem State.setInputs_errCode : (s.setInputs es).errCode = s.errCode := rfl
@[simp] theorem State.setInputs_irqEn : (s.setInputs es).irqEn = s.irqEn := rfl
@[simp] theorem State.setInputs_maxValue : (s.setInputs es).maxValue = s.maxValue := rfl
@[simp] theorem State.setInputs_halfValue : (s.setInputs es).halfValue = s.halfValue := rfl
@[simp] theorem State.setInputs_kScale : (s.setInputs es).kScale = s.kScale := rfl
@[simp] theorem State.setInputs_compBase : (s.setInputs es).compBase = s.compBase := rfl
@[simp] theorem State.setInputs_compLen : (s.setInputs es).compLen = s.compLen := rfl
@[simp] theorem State.setInputs_progress : (s.setInputs es).progress = s.progress := rfl
@[simp] theorem State.setInputs_errAddr : (s.setInputs es).errAddr = s.errAddr := rfl
@[simp] theorem State.setInputs_engine : (s.setInputs es).engine = s.engine := rfl
@[simp] theorem State.setInputs_op : (s.setInputs es).op = s.op := rfl
@[simp] theorem State.setInputs_sMax : (s.setInputs es).sMax = s.sMax := rfl
@[simp] theorem State.setInputs_sHalf : (s.setInputs es).sHalf = s.sHalf := rfl
@[simp] theorem State.setInputs_sKScale : (s.setInputs es).sKScale = s.sKScale := rfl
@[simp] theorem State.setInputs_sBase : (s.setInputs es).sBase = s.sBase := rfl
@[simp] theorem State.setInputs_sLen : (s.setInputs es).sLen = s.sLen := rfl
@[simp] theorem State.setInputs_sNW : (s.setInputs es).sNW = s.sNW := rfl
@[simp] theorem State.setInputs_lane : (s.setInputs es).lane = s.lane := rfl
@[simp] theorem State.setInputs_mem : (s.setInputs es).mem = s.mem := rfl
@[simp] theorem State.setInputs_resetHeld : (s.setInputs es).resetHeld = s.resetHeld := rfl
@[simp] theorem State.setInputs_outstanding : (s.setInputs es).outstanding = s.outstanding := rfl
@[simp] theorem State.setInputs_hostCache : (s.setInputs es).hostCache = s.hostCache := rfl
@[simp] theorem State.setInputs_inputs : (s.setInputs es).inputs = es := rfl
@[simp] theorem State.setInputs_response : (s.setInputs es).response = s.response := rfl
@[simp] theorem State.setInputs_memAtAccept : (s.setInputs es).memAtAccept = s.memAtAccept := rfl
@[simp] theorem State.setInputs_freeCount : (s.setInputs es).freeCount = s.freeCount := rfl

end

/-! `State.setResponse` -/

section
variable (s : State) (r : Response)

@[simp] theorem State.setResponse_lastCmd : (s.setResponse r).lastCmd = s.lastCmd := rfl
@[simp] theorem State.setResponse_done : (s.setResponse r).done = s.done := rfl
@[simp] theorem State.setResponse_err : (s.setResponse r).err = s.err := rfl
@[simp] theorem State.setResponse_ovr : (s.setResponse r).ovr = s.ovr := rfl
@[simp] theorem State.setResponse_errCode : (s.setResponse r).errCode = s.errCode := rfl
@[simp] theorem State.setResponse_irqEn : (s.setResponse r).irqEn = s.irqEn := rfl
@[simp] theorem State.setResponse_maxValue : (s.setResponse r).maxValue = s.maxValue := rfl
@[simp] theorem State.setResponse_halfValue : (s.setResponse r).halfValue = s.halfValue := rfl
@[simp] theorem State.setResponse_kScale : (s.setResponse r).kScale = s.kScale := rfl
@[simp] theorem State.setResponse_compBase : (s.setResponse r).compBase = s.compBase := rfl
@[simp] theorem State.setResponse_compLen : (s.setResponse r).compLen = s.compLen := rfl
@[simp] theorem State.setResponse_progress : (s.setResponse r).progress = s.progress := rfl
@[simp] theorem State.setResponse_errAddr : (s.setResponse r).errAddr = s.errAddr := rfl
@[simp] theorem State.setResponse_engine : (s.setResponse r).engine = s.engine := rfl
@[simp] theorem State.setResponse_op : (s.setResponse r).op = s.op := rfl
@[simp] theorem State.setResponse_sMax : (s.setResponse r).sMax = s.sMax := rfl
@[simp] theorem State.setResponse_sHalf : (s.setResponse r).sHalf = s.sHalf := rfl
@[simp] theorem State.setResponse_sKScale : (s.setResponse r).sKScale = s.sKScale := rfl
@[simp] theorem State.setResponse_sBase : (s.setResponse r).sBase = s.sBase := rfl
@[simp] theorem State.setResponse_sLen : (s.setResponse r).sLen = s.sLen := rfl
@[simp] theorem State.setResponse_sNW : (s.setResponse r).sNW = s.sNW := rfl
@[simp] theorem State.setResponse_lane : (s.setResponse r).lane = s.lane := rfl
@[simp] theorem State.setResponse_mem : (s.setResponse r).mem = s.mem := rfl
@[simp] theorem State.setResponse_resetHeld : (s.setResponse r).resetHeld = s.resetHeld := rfl
@[simp] theorem State.setResponse_outstanding : (s.setResponse r).outstanding = s.outstanding := rfl
@[simp] theorem State.setResponse_hostCache : (s.setResponse r).hostCache = s.hostCache := rfl
@[simp] theorem State.setResponse_inputs : (s.setResponse r).inputs = s.inputs := rfl
@[simp] theorem State.setResponse_response : (s.setResponse r).response = r := rfl
@[simp] theorem State.setResponse_memAtAccept : (s.setResponse r).memAtAccept = s.memAtAccept := rfl
@[simp] theorem State.setResponse_freeCount : (s.setResponse r).freeCount = s.freeCount := rfl

end

/-! `State.setOutstanding` -/

section
variable (s : State) (a : PendingAccess)

@[simp] theorem State.setOutstanding_lastCmd : (s.setOutstanding a).lastCmd = s.lastCmd := rfl
@[simp] theorem State.setOutstanding_done : (s.setOutstanding a).done = s.done := rfl
@[simp] theorem State.setOutstanding_err : (s.setOutstanding a).err = s.err := rfl
@[simp] theorem State.setOutstanding_ovr : (s.setOutstanding a).ovr = s.ovr := rfl
@[simp] theorem State.setOutstanding_errCode : (s.setOutstanding a).errCode = s.errCode := rfl
@[simp] theorem State.setOutstanding_irqEn : (s.setOutstanding a).irqEn = s.irqEn := rfl
@[simp] theorem State.setOutstanding_maxValue : (s.setOutstanding a).maxValue = s.maxValue := rfl
@[simp] theorem State.setOutstanding_halfValue : (s.setOutstanding a).halfValue = s.halfValue := rfl
@[simp] theorem State.setOutstanding_kScale : (s.setOutstanding a).kScale = s.kScale := rfl
@[simp] theorem State.setOutstanding_compBase : (s.setOutstanding a).compBase = s.compBase := rfl
@[simp] theorem State.setOutstanding_compLen : (s.setOutstanding a).compLen = s.compLen := rfl
@[simp] theorem State.setOutstanding_progress : (s.setOutstanding a).progress = s.progress := rfl
@[simp] theorem State.setOutstanding_errAddr : (s.setOutstanding a).errAddr = s.errAddr := rfl
@[simp] theorem State.setOutstanding_engine : (s.setOutstanding a).engine = s.engine := rfl
@[simp] theorem State.setOutstanding_op : (s.setOutstanding a).op = s.op := rfl
@[simp] theorem State.setOutstanding_sMax : (s.setOutstanding a).sMax = s.sMax := rfl
@[simp] theorem State.setOutstanding_sHalf : (s.setOutstanding a).sHalf = s.sHalf := rfl
@[simp] theorem State.setOutstanding_sKScale : (s.setOutstanding a).sKScale = s.sKScale := rfl
@[simp] theorem State.setOutstanding_sBase : (s.setOutstanding a).sBase = s.sBase := rfl
@[simp] theorem State.setOutstanding_sLen : (s.setOutstanding a).sLen = s.sLen := rfl
@[simp] theorem State.setOutstanding_sNW : (s.setOutstanding a).sNW = s.sNW := rfl
@[simp] theorem State.setOutstanding_lane : (s.setOutstanding a).lane = s.lane := rfl
@[simp] theorem State.setOutstanding_mem : (s.setOutstanding a).mem = s.mem := rfl
@[simp] theorem State.setOutstanding_resetHeld : (s.setOutstanding a).resetHeld = s.resetHeld := rfl
@[simp] theorem State.setOutstanding_outstanding : (s.setOutstanding a).outstanding = some a := rfl
@[simp] theorem State.setOutstanding_hostCache : (s.setOutstanding a).hostCache = s.hostCache := rfl
@[simp] theorem State.setOutstanding_inputs : (s.setOutstanding a).inputs = s.inputs := rfl
@[simp] theorem State.setOutstanding_response : (s.setOutstanding a).response = s.response := rfl
@[simp] theorem State.setOutstanding_memAtAccept : (s.setOutstanding a).memAtAccept = s.memAtAccept := rfl
@[simp] theorem State.setOutstanding_freeCount : (s.setOutstanding a).freeCount = s.freeCount := rfl

end

/-! `State.setLaneReg` -/

section
variable (s : State) (c : Component) (j : Nat) (v : Word)

@[simp] theorem State.setLaneReg_lastCmd : (s.setLaneReg c j v).lastCmd = s.lastCmd := rfl
@[simp] theorem State.setLaneReg_done : (s.setLaneReg c j v).done = s.done := rfl
@[simp] theorem State.setLaneReg_err : (s.setLaneReg c j v).err = s.err := rfl
@[simp] theorem State.setLaneReg_ovr : (s.setLaneReg c j v).ovr = s.ovr := rfl
@[simp] theorem State.setLaneReg_errCode : (s.setLaneReg c j v).errCode = s.errCode := rfl
@[simp] theorem State.setLaneReg_irqEn : (s.setLaneReg c j v).irqEn = s.irqEn := rfl
@[simp] theorem State.setLaneReg_maxValue : (s.setLaneReg c j v).maxValue = s.maxValue := rfl
@[simp] theorem State.setLaneReg_halfValue : (s.setLaneReg c j v).halfValue = s.halfValue := rfl
@[simp] theorem State.setLaneReg_kScale : (s.setLaneReg c j v).kScale = s.kScale := rfl
@[simp] theorem State.setLaneReg_compBase : (s.setLaneReg c j v).compBase = s.compBase := rfl
@[simp] theorem State.setLaneReg_compLen : (s.setLaneReg c j v).compLen = s.compLen := rfl
@[simp] theorem State.setLaneReg_progress : (s.setLaneReg c j v).progress = s.progress := rfl
@[simp] theorem State.setLaneReg_errAddr : (s.setLaneReg c j v).errAddr = s.errAddr := rfl
@[simp] theorem State.setLaneReg_engine : (s.setLaneReg c j v).engine = s.engine := rfl
@[simp] theorem State.setLaneReg_op : (s.setLaneReg c j v).op = s.op := rfl
@[simp] theorem State.setLaneReg_sMax : (s.setLaneReg c j v).sMax = s.sMax := rfl
@[simp] theorem State.setLaneReg_sHalf : (s.setLaneReg c j v).sHalf = s.sHalf := rfl
@[simp] theorem State.setLaneReg_sKScale : (s.setLaneReg c j v).sKScale = s.sKScale := rfl
@[simp] theorem State.setLaneReg_sBase : (s.setLaneReg c j v).sBase = s.sBase := rfl
@[simp] theorem State.setLaneReg_sLen : (s.setLaneReg c j v).sLen = s.sLen := rfl
@[simp] theorem State.setLaneReg_sNW : (s.setLaneReg c j v).sNW = s.sNW := rfl
@[simp] theorem State.setLaneReg_lane : (s.setLaneReg c j v).lane = s.lane.set c ((s.lane.get c).set j v) := rfl
@[simp] theorem State.setLaneReg_mem : (s.setLaneReg c j v).mem = s.mem := rfl
@[simp] theorem State.setLaneReg_resetHeld : (s.setLaneReg c j v).resetHeld = s.resetHeld := rfl
@[simp] theorem State.setLaneReg_outstanding : (s.setLaneReg c j v).outstanding = s.outstanding := rfl
@[simp] theorem State.setLaneReg_hostCache : (s.setLaneReg c j v).hostCache = s.hostCache := rfl
@[simp] theorem State.setLaneReg_inputs : (s.setLaneReg c j v).inputs = s.inputs := rfl
@[simp] theorem State.setLaneReg_response : (s.setLaneReg c j v).response = s.response := rfl
@[simp] theorem State.setLaneReg_memAtAccept : (s.setLaneReg c j v).memAtAccept = s.memAtAccept := rfl
@[simp] theorem State.setLaneReg_freeCount : (s.setLaneReg c j v).freeCount = s.freeCount := rfl

end

/-! `raiseError` -/

section
variable (code : ErrorCode) (addr : Word) (s : State)

@[simp] theorem raiseError_lastCmd : (raiseError code addr s).lastCmd = s.lastCmd := rfl
@[simp] theorem raiseError_done : (raiseError code addr s).done = s.done := rfl
@[simp] theorem raiseError_err : (raiseError code addr s).err = true := rfl
@[simp] theorem raiseError_ovr : (raiseError code addr s).ovr = s.ovr := rfl
@[simp] theorem raiseError_errCode : (raiseError code addr s).errCode = code := rfl
@[simp] theorem raiseError_irqEn : (raiseError code addr s).irqEn = s.irqEn := rfl
@[simp] theorem raiseError_maxValue : (raiseError code addr s).maxValue = s.maxValue := rfl
@[simp] theorem raiseError_halfValue : (raiseError code addr s).halfValue = s.halfValue := rfl
@[simp] theorem raiseError_kScale : (raiseError code addr s).kScale = s.kScale := rfl
@[simp] theorem raiseError_compBase : (raiseError code addr s).compBase = s.compBase := rfl
@[simp] theorem raiseError_compLen : (raiseError code addr s).compLen = s.compLen := rfl
@[simp] theorem raiseError_progress : (raiseError code addr s).progress = s.progress := rfl
@[simp] theorem raiseError_errAddr : (raiseError code addr s).errAddr = addr := rfl
@[simp] theorem raiseError_engine : (raiseError code addr s).engine = .idle := rfl
@[simp] theorem raiseError_op : (raiseError code addr s).op = s.op := rfl
@[simp] theorem raiseError_sMax : (raiseError code addr s).sMax = s.sMax := rfl
@[simp] theorem raiseError_sHalf : (raiseError code addr s).sHalf = s.sHalf := rfl
@[simp] theorem raiseError_sKScale : (raiseError code addr s).sKScale = s.sKScale := rfl
@[simp] theorem raiseError_sBase : (raiseError code addr s).sBase = s.sBase := rfl
@[simp] theorem raiseError_sLen : (raiseError code addr s).sLen = s.sLen := rfl
@[simp] theorem raiseError_sNW : (raiseError code addr s).sNW = s.sNW := rfl
@[simp] theorem raiseError_lane : (raiseError code addr s).lane = s.lane := rfl
@[simp] theorem raiseError_mem : (raiseError code addr s).mem = s.mem := rfl
@[simp] theorem raiseError_resetHeld : (raiseError code addr s).resetHeld = s.resetHeld := rfl
@[simp] theorem raiseError_outstanding : (raiseError code addr s).outstanding = s.outstanding := rfl
@[simp] theorem raiseError_hostCache : (raiseError code addr s).hostCache = s.hostCache := rfl
@[simp] theorem raiseError_inputs : (raiseError code addr s).inputs = s.inputs := rfl
@[simp] theorem raiseError_response : (raiseError code addr s).response = s.response := rfl
@[simp] theorem raiseError_memAtAccept : (raiseError code addr s).memAtAccept = s.memAtAccept := rfl
@[simp] theorem raiseError_freeCount : (raiseError code addr s).freeCount = s.freeCount := rfl

end

/-! `clearError` -/

section
variable (s : State)

@[simp] theorem clearError_lastCmd : (clearError s).lastCmd = s.lastCmd := rfl
@[simp] theorem clearError_done : (clearError s).done = s.done := rfl
@[simp] theorem clearError_err : (clearError s).err = false := rfl
@[simp] theorem clearError_ovr : (clearError s).ovr = s.ovr := rfl
@[simp] theorem clearError_errCode : (clearError s).errCode = .none := rfl
@[simp] theorem clearError_irqEn : (clearError s).irqEn = s.irqEn := rfl
@[simp] theorem clearError_maxValue : (clearError s).maxValue = s.maxValue := rfl
@[simp] theorem clearError_halfValue : (clearError s).halfValue = s.halfValue := rfl
@[simp] theorem clearError_kScale : (clearError s).kScale = s.kScale := rfl
@[simp] theorem clearError_compBase : (clearError s).compBase = s.compBase := rfl
@[simp] theorem clearError_compLen : (clearError s).compLen = s.compLen := rfl
@[simp] theorem clearError_progress : (clearError s).progress = s.progress := rfl
@[simp] theorem clearError_errAddr : (clearError s).errAddr = 0#32 := rfl
@[simp] theorem clearError_engine : (clearError s).engine = s.engine := rfl
@[simp] theorem clearError_op : (clearError s).op = s.op := rfl
@[simp] theorem clearError_sMax : (clearError s).sMax = s.sMax := rfl
@[simp] theorem clearError_sHalf : (clearError s).sHalf = s.sHalf := rfl
@[simp] theorem clearError_sKScale : (clearError s).sKScale = s.sKScale := rfl
@[simp] theorem clearError_sBase : (clearError s).sBase = s.sBase := rfl
@[simp] theorem clearError_sLen : (clearError s).sLen = s.sLen := rfl
@[simp] theorem clearError_sNW : (clearError s).sNW = s.sNW := rfl
@[simp] theorem clearError_lane : (clearError s).lane = s.lane := rfl
@[simp] theorem clearError_mem : (clearError s).mem = s.mem := rfl
@[simp] theorem clearError_resetHeld : (clearError s).resetHeld = s.resetHeld := rfl
@[simp] theorem clearError_outstanding : (clearError s).outstanding = s.outstanding := rfl
@[simp] theorem clearError_hostCache : (clearError s).hostCache = s.hostCache := rfl
@[simp] theorem clearError_inputs : (clearError s).inputs = s.inputs := rfl
@[simp] theorem clearError_response : (clearError s).response = s.response := rfl
@[simp] theorem clearError_memAtAccept : (clearError s).memAtAccept = s.memAtAccept := rfl
@[simp] theorem clearError_freeCount : (clearError s).freeCount = s.freeCount := rfl

end

/-! `complete` -/

section
variable (s : State)

@[simp] theorem complete_lastCmd : (complete s).lastCmd = s.lastCmd := rfl
@[simp] theorem complete_done : (complete s).done = true := rfl
@[simp] theorem complete_err : (complete s).err = s.err := rfl
@[simp] theorem complete_ovr : (complete s).ovr = s.ovr := rfl
@[simp] theorem complete_errCode : (complete s).errCode = s.errCode := rfl
@[simp] theorem complete_irqEn : (complete s).irqEn = s.irqEn := rfl
@[simp] theorem complete_maxValue : (complete s).maxValue = s.maxValue := rfl
@[simp] theorem complete_halfValue : (complete s).halfValue = s.halfValue := rfl
@[simp] theorem complete_kScale : (complete s).kScale = s.kScale := rfl
@[simp] theorem complete_compBase : (complete s).compBase = s.compBase := rfl
@[simp] theorem complete_compLen : (complete s).compLen = s.compLen := rfl
@[simp] theorem complete_progress : (complete s).progress = s.progress := rfl
@[simp] theorem complete_errAddr : (complete s).errAddr = s.errAddr := rfl
@[simp] theorem complete_engine : (complete s).engine = .idle := rfl
@[simp] theorem complete_op : (complete s).op = s.op := rfl
@[simp] theorem complete_sMax : (complete s).sMax = s.sMax := rfl
@[simp] theorem complete_sHalf : (complete s).sHalf = s.sHalf := rfl
@[simp] theorem complete_sKScale : (complete s).sKScale = s.sKScale := rfl
@[simp] theorem complete_sBase : (complete s).sBase = s.sBase := rfl
@[simp] theorem complete_sLen : (complete s).sLen = s.sLen := rfl
@[simp] theorem complete_sNW : (complete s).sNW = s.sNW := rfl
@[simp] theorem complete_lane : (complete s).lane = s.lane := rfl
@[simp] theorem complete_mem : (complete s).mem = s.mem := rfl
@[simp] theorem complete_resetHeld : (complete s).resetHeld = s.resetHeld := rfl
@[simp] theorem complete_outstanding : (complete s).outstanding = s.outstanding := rfl
@[simp] theorem complete_hostCache : (complete s).hostCache = s.hostCache := rfl
@[simp] theorem complete_inputs : (complete s).inputs = s.inputs := rfl
@[simp] theorem complete_response : (complete s).response = s.response := rfl
@[simp] theorem complete_memAtAccept : (complete s).memAtAccept = s.memAtAccept := rfl
@[simp] theorem complete_freeCount : (complete s).freeCount = s.freeCount := rfl

end

/-! `overrun` -/

section
variable (s : State)

@[simp] theorem overrun_lastCmd : (overrun s).lastCmd = s.lastCmd := rfl
@[simp] theorem overrun_done : (overrun s).done = s.done := rfl
@[simp] theorem overrun_err : (overrun s).err = s.err := rfl
@[simp] theorem overrun_ovr : (overrun s).ovr = true := rfl
@[simp] theorem overrun_errCode : (overrun s).errCode = s.errCode := rfl
@[simp] theorem overrun_irqEn : (overrun s).irqEn = s.irqEn := rfl
@[simp] theorem overrun_maxValue : (overrun s).maxValue = s.maxValue := rfl
@[simp] theorem overrun_halfValue : (overrun s).halfValue = s.halfValue := rfl
@[simp] theorem overrun_kScale : (overrun s).kScale = s.kScale := rfl
@[simp] theorem overrun_compBase : (overrun s).compBase = s.compBase := rfl
@[simp] theorem overrun_compLen : (overrun s).compLen = s.compLen := rfl
@[simp] theorem overrun_progress : (overrun s).progress = s.progress := rfl
@[simp] theorem overrun_errAddr : (overrun s).errAddr = s.errAddr := rfl
@[simp] theorem overrun_engine : (overrun s).engine = s.engine := rfl
@[simp] theorem overrun_op : (overrun s).op = s.op := rfl
@[simp] theorem overrun_sMax : (overrun s).sMax = s.sMax := rfl
@[simp] theorem overrun_sHalf : (overrun s).sHalf = s.sHalf := rfl
@[simp] theorem overrun_sKScale : (overrun s).sKScale = s.sKScale := rfl
@[simp] theorem overrun_sBase : (overrun s).sBase = s.sBase := rfl
@[simp] theorem overrun_sLen : (overrun s).sLen = s.sLen := rfl
@[simp] theorem overrun_sNW : (overrun s).sNW = s.sNW := rfl
@[simp] theorem overrun_lane : (overrun s).lane = s.lane := rfl
@[simp] theorem overrun_mem : (overrun s).mem = s.mem := rfl
@[simp] theorem overrun_resetHeld : (overrun s).resetHeld = s.resetHeld := rfl
@[simp] theorem overrun_outstanding : (overrun s).outstanding = s.outstanding := rfl
@[simp] theorem overrun_hostCache : (overrun s).hostCache = s.hostCache := rfl
@[simp] theorem overrun_inputs : (overrun s).inputs = s.inputs := rfl
@[simp] theorem overrun_response : (overrun s).response = s.response := rfl
@[simp] theorem overrun_memAtAccept : (overrun s).memAtAccept = s.memAtAccept := rfl
@[simp] theorem overrun_freeCount : (overrun s).freeCount = s.freeCount := rfl

end

/-! `clearDone` -/

section
variable (s : State)

@[simp] theorem clearDone_lastCmd : (clearDone s).lastCmd = s.lastCmd := rfl
@[simp] theorem clearDone_done : (clearDone s).done = false := rfl
@[simp] theorem clearDone_err : (clearDone s).err = s.err := rfl
@[simp] theorem clearDone_ovr : (clearDone s).ovr = s.ovr := rfl
@[simp] theorem clearDone_errCode : (clearDone s).errCode = s.errCode := rfl
@[simp] theorem clearDone_irqEn : (clearDone s).irqEn = s.irqEn := rfl
@[simp] theorem clearDone_maxValue : (clearDone s).maxValue = s.maxValue := rfl
@[simp] theorem clearDone_halfValue : (clearDone s).halfValue = s.halfValue := rfl
@[simp] theorem clearDone_kScale : (clearDone s).kScale = s.kScale := rfl
@[simp] theorem clearDone_compBase : (clearDone s).compBase = s.compBase := rfl
@[simp] theorem clearDone_compLen : (clearDone s).compLen = s.compLen := rfl
@[simp] theorem clearDone_progress : (clearDone s).progress = s.progress := rfl
@[simp] theorem clearDone_errAddr : (clearDone s).errAddr = s.errAddr := rfl
@[simp] theorem clearDone_engine : (clearDone s).engine = s.engine := rfl
@[simp] theorem clearDone_op : (clearDone s).op = s.op := rfl
@[simp] theorem clearDone_sMax : (clearDone s).sMax = s.sMax := rfl
@[simp] theorem clearDone_sHalf : (clearDone s).sHalf = s.sHalf := rfl
@[simp] theorem clearDone_sKScale : (clearDone s).sKScale = s.sKScale := rfl
@[simp] theorem clearDone_sBase : (clearDone s).sBase = s.sBase := rfl
@[simp] theorem clearDone_sLen : (clearDone s).sLen = s.sLen := rfl
@[simp] theorem clearDone_sNW : (clearDone s).sNW = s.sNW := rfl
@[simp] theorem clearDone_lane : (clearDone s).lane = s.lane := rfl
@[simp] theorem clearDone_mem : (clearDone s).mem = s.mem := rfl
@[simp] theorem clearDone_resetHeld : (clearDone s).resetHeld = s.resetHeld := rfl
@[simp] theorem clearDone_outstanding : (clearDone s).outstanding = s.outstanding := rfl
@[simp] theorem clearDone_hostCache : (clearDone s).hostCache = s.hostCache := rfl
@[simp] theorem clearDone_inputs : (clearDone s).inputs = s.inputs := rfl
@[simp] theorem clearDone_response : (clearDone s).response = s.response := rfl
@[simp] theorem clearDone_memAtAccept : (clearDone s).memAtAccept = s.memAtAccept := rfl
@[simp] theorem clearDone_freeCount : (clearDone s).freeCount = s.freeCount := rfl

end

/-! `clearOverrun` -/

section
variable (s : State)

@[simp] theorem clearOverrun_lastCmd : (clearOverrun s).lastCmd = s.lastCmd := rfl
@[simp] theorem clearOverrun_done : (clearOverrun s).done = s.done := rfl
@[simp] theorem clearOverrun_err : (clearOverrun s).err = s.err := rfl
@[simp] theorem clearOverrun_ovr : (clearOverrun s).ovr = false := rfl
@[simp] theorem clearOverrun_errCode : (clearOverrun s).errCode = s.errCode := rfl
@[simp] theorem clearOverrun_irqEn : (clearOverrun s).irqEn = s.irqEn := rfl
@[simp] theorem clearOverrun_maxValue : (clearOverrun s).maxValue = s.maxValue := rfl
@[simp] theorem clearOverrun_halfValue : (clearOverrun s).halfValue = s.halfValue := rfl
@[simp] theorem clearOverrun_kScale : (clearOverrun s).kScale = s.kScale := rfl
@[simp] theorem clearOverrun_compBase : (clearOverrun s).compBase = s.compBase := rfl
@[simp] theorem clearOverrun_compLen : (clearOverrun s).compLen = s.compLen := rfl
@[simp] theorem clearOverrun_progress : (clearOverrun s).progress = s.progress := rfl
@[simp] theorem clearOverrun_errAddr : (clearOverrun s).errAddr = s.errAddr := rfl
@[simp] theorem clearOverrun_engine : (clearOverrun s).engine = s.engine := rfl
@[simp] theorem clearOverrun_op : (clearOverrun s).op = s.op := rfl
@[simp] theorem clearOverrun_sMax : (clearOverrun s).sMax = s.sMax := rfl
@[simp] theorem clearOverrun_sHalf : (clearOverrun s).sHalf = s.sHalf := rfl
@[simp] theorem clearOverrun_sKScale : (clearOverrun s).sKScale = s.sKScale := rfl
@[simp] theorem clearOverrun_sBase : (clearOverrun s).sBase = s.sBase := rfl
@[simp] theorem clearOverrun_sLen : (clearOverrun s).sLen = s.sLen := rfl
@[simp] theorem clearOverrun_sNW : (clearOverrun s).sNW = s.sNW := rfl
@[simp] theorem clearOverrun_lane : (clearOverrun s).lane = s.lane := rfl
@[simp] theorem clearOverrun_mem : (clearOverrun s).mem = s.mem := rfl
@[simp] theorem clearOverrun_resetHeld : (clearOverrun s).resetHeld = s.resetHeld := rfl
@[simp] theorem clearOverrun_outstanding : (clearOverrun s).outstanding = s.outstanding := rfl
@[simp] theorem clearOverrun_hostCache : (clearOverrun s).hostCache = s.hostCache := rfl
@[simp] theorem clearOverrun_inputs : (clearOverrun s).inputs = s.inputs := rfl
@[simp] theorem clearOverrun_response : (clearOverrun s).response = s.response := rfl
@[simp] theorem clearOverrun_memAtAccept : (clearOverrun s).memAtAccept = s.memAtAccept := rfl
@[simp] theorem clearOverrun_freeCount : (clearOverrun s).freeCount = s.freeCount := rfl

end

/-! `latchShadows` -/

section
variable (s : State)

@[simp] theorem latchShadows_lastCmd : (latchShadows s).lastCmd = s.lastCmd := rfl
@[simp] theorem latchShadows_done : (latchShadows s).done = s.done := rfl
@[simp] theorem latchShadows_err : (latchShadows s).err = s.err := rfl
@[simp] theorem latchShadows_ovr : (latchShadows s).ovr = s.ovr := rfl
@[simp] theorem latchShadows_errCode : (latchShadows s).errCode = s.errCode := rfl
@[simp] theorem latchShadows_irqEn : (latchShadows s).irqEn = s.irqEn := rfl
@[simp] theorem latchShadows_maxValue : (latchShadows s).maxValue = s.maxValue := rfl
@[simp] theorem latchShadows_halfValue : (latchShadows s).halfValue = s.halfValue := rfl
@[simp] theorem latchShadows_kScale : (latchShadows s).kScale = kScaleOf s.maxValue := rfl
@[simp] theorem latchShadows_compBase : (latchShadows s).compBase = s.compBase := rfl
@[simp] theorem latchShadows_compLen : (latchShadows s).compLen = s.compLen := rfl
@[simp] theorem latchShadows_progress : (latchShadows s).progress = s.progress := rfl
@[simp] theorem latchShadows_errAddr : (latchShadows s).errAddr = s.errAddr := rfl
@[simp] theorem latchShadows_engine : (latchShadows s).engine = s.engine := rfl
@[simp] theorem latchShadows_op : (latchShadows s).op = s.op := rfl
@[simp] theorem latchShadows_sMax : (latchShadows s).sMax = s.maxValue := rfl
@[simp] theorem latchShadows_sHalf : (latchShadows s).sHalf = s.halfValue := rfl
@[simp] theorem latchShadows_sKScale : (latchShadows s).sKScale = kScaleOf s.maxValue := rfl
@[simp] theorem latchShadows_sBase : (latchShadows s).sBase = s.compBase := rfl
@[simp] theorem latchShadows_sLen : (latchShadows s).sLen = s.compLen.c0 := rfl
@[simp] theorem latchShadows_sNW : (latchShadows s).sNW = s.sNW := rfl
@[simp] theorem latchShadows_lane : (latchShadows s).lane = s.lane := rfl
@[simp] theorem latchShadows_mem : (latchShadows s).mem = s.mem := rfl
@[simp] theorem latchShadows_resetHeld : (latchShadows s).resetHeld = s.resetHeld := rfl
@[simp] theorem latchShadows_outstanding : (latchShadows s).outstanding = s.outstanding := rfl
@[simp] theorem latchShadows_hostCache : (latchShadows s).hostCache = s.hostCache := rfl
@[simp] theorem latchShadows_inputs : (latchShadows s).inputs = s.inputs := rfl
@[simp] theorem latchShadows_response : (latchShadows s).response = s.response := rfl
@[simp] theorem latchShadows_memAtAccept : (latchShadows s).memAtAccept = s.memAtAccept := rfl
@[simp] theorem latchShadows_freeCount : (latchShadows s).freeCount = s.freeCount := rfl

end

/-! `beginAccept` -/

section
variable (w : Word) (s : State)

@[simp] theorem beginAccept_lastCmd : (beginAccept w s).lastCmd = w := rfl
@[simp] theorem beginAccept_done : (beginAccept w s).done = false := rfl
@[simp] theorem beginAccept_err : (beginAccept w s).err = false := rfl
@[simp] theorem beginAccept_ovr : (beginAccept w s).ovr = s.ovr := rfl
@[simp] theorem beginAccept_errCode : (beginAccept w s).errCode = .none := rfl
@[simp] theorem beginAccept_irqEn : (beginAccept w s).irqEn = s.irqEn := rfl
@[simp] theorem beginAccept_maxValue : (beginAccept w s).maxValue = s.maxValue := rfl
@[simp] theorem beginAccept_halfValue : (beginAccept w s).halfValue = s.halfValue := rfl
@[simp] theorem beginAccept_kScale : (beginAccept w s).kScale = kScaleOf s.maxValue := rfl
@[simp] theorem beginAccept_compBase : (beginAccept w s).compBase = s.compBase := rfl
@[simp] theorem beginAccept_compLen : (beginAccept w s).compLen = s.compLen := rfl
@[simp] theorem beginAccept_progress : (beginAccept w s).progress = 0#32 := rfl
@[simp] theorem beginAccept_errAddr : (beginAccept w s).errAddr = 0#32 := rfl
@[simp] theorem beginAccept_engine : (beginAccept w s).engine = s.engine := rfl
@[simp] theorem beginAccept_op : (beginAccept w s).op = s.op := rfl
@[simp] theorem beginAccept_sMax : (beginAccept w s).sMax = s.maxValue := rfl
@[simp] theorem beginAccept_sHalf : (beginAccept w s).sHalf = s.halfValue := rfl
@[simp] theorem beginAccept_sKScale : (beginAccept w s).sKScale = kScaleOf s.maxValue := rfl
@[simp] theorem beginAccept_sBase : (beginAccept w s).sBase = s.compBase := rfl
@[simp] theorem beginAccept_sLen : (beginAccept w s).sLen = s.compLen.c0 := rfl
@[simp] theorem beginAccept_sNW : (beginAccept w s).sNW = s.sNW := rfl
@[simp] theorem beginAccept_lane : (beginAccept w s).lane = s.lane := rfl
@[simp] theorem beginAccept_mem : (beginAccept w s).mem = s.mem := rfl
@[simp] theorem beginAccept_resetHeld : (beginAccept w s).resetHeld = s.resetHeld := rfl
@[simp] theorem beginAccept_outstanding : (beginAccept w s).outstanding = s.outstanding := rfl
@[simp] theorem beginAccept_hostCache : (beginAccept w s).hostCache = s.hostCache := rfl
@[simp] theorem beginAccept_inputs : (beginAccept w s).inputs = s.inputs := rfl
@[simp] theorem beginAccept_response : (beginAccept w s).response = s.response := rfl
@[simp] theorem beginAccept_memAtAccept : (beginAccept w s).memAtAccept = s.memAtAccept := rfl
@[simp] theorem beginAccept_freeCount : (beginAccept w s).freeCount = s.freeCount := rfl

end

end Sys2Proof.Machine
end

