-- ==== Sys2Proof/Laws/Lanes.lean ====
section
/-! SUPPORT. The lane registers and the three phases of an engine step: what each phase can do, said once. -/

namespace Sys2Proof.Machine

variable {p : Platform}

/-! ### Groups of four -/

@[simp] theorem Quad.get_set_self {α : Type} (q : Quad α) (c : Component) (v : α) : (q.set c v).get c = v := by
  cases c <;> rfl

theorem Quad.get_set {α : Type} (q : Quad α) (c d : Component) (v : α) :
    (q.set c v).get d = if d = c then v else q.get d := by
  cases c <;> cases d <;> rfl

@[simp] theorem Quad.get_const {α : Type} (v : α) (c : Component) : (Quad.const v).get c = v := by cases c <;> rfl

theorem Component.mem_all (c : Component) : c ∈ Component.all := by cases c <;> decide

/-- Two groups of four with the same entries are the same. -/
theorem Quad.ext_get {α : Type} {q r : Quad α} (h : ∀ c, q.get c = r.get c) : q = r := by
  obtain ⟨a0, a1, a2, a3⟩ := q
  obtain ⟨b0, b1, b2, b3⟩ := r
  have h0 := h .component0
  have h1 := h .component1
  have h2 := h .component2
  have h3 := h .component3
  simp only [Quad.get] at h0 h1 h2 h3
  rw [h0, h1, h2, h3]

/-! ### One lane register -/

/-- Writing a lane register keeps how many there are. -/
theorem setLaneReg_length (s : State) (c d : Component) (j : Nat) (v : Word) :
    ((s.setLaneReg c j v).lane.get d).length = (s.lane.get d).length := by
  rw [State.setLaneReg_lane, Quad.get_set]
  split
  · next h => rw [h, List.length_set]
  · rfl

/-- A lane register read after one is written. -/
theorem laneReg_setLaneReg (s : State) (c d : Component) (j k : Nat) (v : Word) (hj : j < (s.lane.get c).length) :
    (s.setLaneReg c j v).laneReg d k = if d = c ∧ k = j then v else s.laneReg d k := by
  unfold State.laneReg
  rw [State.setLaneReg_lane, Quad.get_set]
  by_cases hd : d = c
  · subst hd
    simp only [if_true, true_and, List.getD_eq_getElem?_getD, List.getElem?_set]
    by_cases hk : k = j
    · subst hk; simp [hj]
    · simp [hk, Ne.symm hk]
  · simp [hd]

/-! ### Bookkeeping of the access order -/

theorem mem_accessOrder {cs : List Component} {m : Nat} {c : Component} {j : Nat} :
    (c, j) ∈ accessOrder cs m ↔ c ∈ cs ∧ j < m := by
  simp [accessOrder]

/-- The address of an element depends on the shadow bases alone. -/
theorem elementAddress_congr {s t : State} (h : t.sBase = s.sBase) (c : Component) (k : Nat) :
    elementAddress t c k = elementAddress s c k := by
  unfold elementAddress; rw [h]

/-! ### The read phase -/

/-- Everything a read phase can do: it changes lane registers only and keeps how many there are; if it ends early, the access
that ended it is the first that did not complete (60_exceptions.md R229). -/
theorem readPhase_cases (order : List (Component × Nat)) (s : State) :
    match readPhase p order s with
    | .done t => (∃ lane, t = { s with lane := lane }) ∧ (∀ c, (t.lane.get c).length = (s.lane.get c).length) ∧
        ∀ x ∈ order, busAnswer p (elementAddress s x.1 (s.progress.toNat + x.2)) .read = .ok
    | .busError t addr => (∃ lane, t = { s with lane := lane }) ∧ (∀ c, (t.lane.get c).length = (s.lane.get c).length) ∧
        ∃ x ∈ order, addr = elementAddress s x.1 (s.progress.toNat + x.2) ∧ busAnswer p addr .read = .error
    | .unanswered t a => (∃ lane, t = { s with lane := lane }) ∧ (∀ c, (t.lane.get c).length = (s.lane.get c).length) ∧
        a.kind = .read ∧ (∃ x ∈ order, a.addr = elementAddress s x.1 (s.progress.toNat + x.2)) ∧
        busAnswer p a.addr .read = .never
    | .device addr => ∃ x ∈ order, addr = elementAddress s x.1 (s.progress.toNat + x.2) ∧
        busAnswer p addr .read = .device := by
  induction order generalizing s with
  | nil => exact ⟨⟨s.lane, rfl⟩, fun _ => rfl, by simp⟩
  | cons x rest ih =>
    obtain ⟨c, j⟩ := x
    rw [readPhase]
    rcases hb : busAnswer p (elementAddress s c (s.progress.toNat + j)) .read with _ | _ | _ | _
    · dsimp only
      set s1 := s.setLaneReg c j (s.mem.readWord (elementAddress s c (s.progress.toNat + j))) with hs1
      have hl : ∀ d, (s1.lane.get d).length = (s.lane.get d).length := fun d => setLaneReg_length s c d j _
      have := ih s1
      revert this
      rcases readPhase p rest s1 with t | ⟨t, a⟩ | ⟨t, a⟩ | a
      · rintro ⟨⟨lane, rfl⟩, h2, h3⟩
        refine ⟨⟨lane, rfl⟩, fun d => (h2 d).trans (hl d), ?_⟩
        intro y hy
        rcases List.mem_cons.1 hy with rfl | hy
        · exact hb
        · exact h3 y hy
      · rintro ⟨⟨lane, rfl⟩, h2, y, hy, h3⟩
        exact ⟨⟨lane, rfl⟩, fun d => (h2 d).trans (hl d), y, List.mem_cons_of_mem _ hy, h3⟩
      · rintro ⟨⟨lane, rfl⟩, h2, h3, ⟨y, hy, h4⟩, h5⟩
        exact ⟨⟨lane, rfl⟩, fun d => (h2 d).trans (hl d), h3, ⟨y, List.mem_cons_of_mem _ hy, h4⟩, h5⟩
      · rintro ⟨y, hy, h3⟩
        exact ⟨y, List.mem_cons_of_mem _ hy, h3⟩
    · dsimp only
      exact ⟨⟨s.lane, rfl⟩, fun _ => rfl, (c, j), List.mem_cons_self .., rfl, hb⟩
    · dsimp only
      exact ⟨⟨s.lane, rfl⟩, fun _ => rfl, rfl, ⟨(c, j), List.mem_cons_self .., rfl⟩, hb⟩
    · dsimp only
      exact ⟨(c, j), List.mem_cons_self .., rfl, hb⟩

/-- A read phase whose accesses all complete ends in `done`. -/
theorem readPhase_done (order : List (Component × Nat)) (s : State)
    (h : ∀ x ∈ order, busAnswer p (elementAddress s x.1 (s.progress.toNat + x.2)) .read = .ok) :
    ∃ t, readPhase p order s = .done t := by
  induction order generalizing s with
  | nil => exact ⟨s, rfl⟩
  | cons x rest ih =>
    obtain ⟨c, j⟩ := x
    rw [readPhase]
    simp only [h (c, j) (List.mem_cons_self ..)]
    exact ih _ (fun y hy => h y (List.mem_cons_of_mem _ hy))

/-- The lane registers after a read phase: those read hold the words in memory, the others what they held. -/
theorem readPhase_laneReg (order : List (Component × Nat)) (s t : State) (h : readPhase p order s = .done t)
    (hl : ∀ x ∈ order, x.2 < (s.lane.get x.1).length) (c : Component) (j : Nat) :
    t.laneReg c j = if (c, j) ∈ order then s.mem.readWord (elementAddress s c (s.progress.toNat + j))
      else s.laneReg c j := by
  induction order generalizing s with
  | nil => cases h; simp
  | cons x rest ih =>
    obtain ⟨d, k⟩ := x
    rw [readPhase] at h
    rcases hb : busAnswer p (elementAddress s d (s.progress.toNat + k)) .read with _ | _ | _ | _ <;>
      simp only [hb, reduceCtorEq] at h
    have hlen : ∀ y ∈ rest, y.2 < ((s.setLaneReg d k
        (s.mem.readWord (elementAddress s d (s.progress.toNat + k)))).lane.get y.1).length := by
      intro y hy
      rw [setLaneReg_length]
      exact hl y (List.mem_cons_of_mem _ hy)
    rw [ih _ h hlen]
    simp only [State.setLaneReg_mem, State.setLaneReg_progress]
    rw [laneReg_setLaneReg _ _ _ _ _ _ (hl (d, k) (List.mem_cons_self ..)),
      elementAddress_congr (State.setLaneReg_sBase s d k _)]
    by_cases hr : (c, j) ∈ rest
    · simp [hr]
    · by_cases he : c = d ∧ j = k
      · obtain ⟨rfl, rfl⟩ := he; simp
      · have : (c, j) ≠ (d, k) := fun e => he (by simpa using e)
        simp [hr, he]

/-! ### The compute phase -/

/-- One element's compute changes lane registers only. -/
theorem computeElement_eq (f : Precision → Quad Word → Word × Word × Word) (s : State) (j : Nat) :
    ∃ lane, computeElement f s j = { s with lane := lane } := ⟨_, rfl⟩

theorem computeElement_length (f : Precision → Quad Word → Word × Word × Word) (s : State) (j : Nat) (d : Component) :
    ((computeElement f s j).lane.get d).length = (s.lane.get d).length := by
  unfold computeElement
  simp only [setLaneReg_length]

/-- The lane registers after one element's compute. -/
theorem laneReg_computeElement (f : Precision → Quad Word → Word × Word × Word) (s : State) (j : Nat)
    (hl : ∀ c, j < (s.lane.get c).length) (d : Component) (k : Nat) :
    (computeElement f s j).laneReg d k =
      if k = j then
        (match d with
         | .component0 => (f s.precision (laneInputs s j)).1
         | .component1 => (f s.precision (laneInputs s j)).2.1
         | .component2 => (f s.precision (laneInputs s j)).2.2
         | .component3 => s.laneReg .component3 j)
      else s.laneReg d k := by
  unfold computeElement
  rw [laneReg_setLaneReg _ _ _ _ _ _ (by simp only [setLaneReg_length]; exact hl _),
    laneReg_setLaneReg _ _ _ _ _ _ (by simp only [setLaneReg_length]; exact hl _),
    laneReg_setLaneReg _ _ _ _ _ _ (hl _)]
  by_cases hk : k = j
  · subst hk; cases d <;> simp
  · simp [hk]

/-- Everything a compute phase does: lane registers only, the m elements' outputs in the first three components (no memory
access, 40_command_engine.md R147). -/
theorem computePhase_spec (f : Precision → Quad Word → Word × Word × Word) (m : Nat) (s : State)
    (hl : ∀ c, m ≤ (s.lane.get c).length) :
    (∃ lane, computePhase f m s = { s with lane := lane }) ∧
      (∀ c, ((computePhase f m s).lane.get c).length = (s.lane.get c).length) ∧
      ∀ d k, (computePhase f m s).laneReg d k =
        if k < m then
          (match d with
           | .component0 => (f s.precision (laneInputs s k)).1
           | .component1 => (f s.precision (laneInputs s k)).2.1
           | .component2 => (f s.precision (laneInputs s k)).2.2
           | .component3 => s.laneReg .component3 k)
        else s.laneReg d k := by
  induction m with
  | zero => exact ⟨⟨s.lane, rfl⟩, fun _ => rfl, by simp [computePhase]⟩
  | succ m ih =>
    obtain ⟨⟨lane, h1⟩, h2, h3⟩ := ih (fun c => Nat.le_of_succ_le (hl c))
    have hstep : computePhase f (m + 1) s = computeElement f (computePhase f m s) m := by
      simp [computePhase, List.range_succ, List.foldl_append]
    obtain ⟨lane', h4⟩ := computeElement_eq f (computePhase f m s) m
    refine ⟨⟨lane', by rw [hstep, h4, h1]⟩, ?_, ?_⟩
    · intro c; rw [hstep, computeElement_length]; exact h2 c
    · intro d k
      rw [hstep, laneReg_computeElement f _ m (fun c => by rw [h2 c]; exact hl c)]
      have hp : (computePhase f m s).precision = s.precision := by rw [h1]; rfl
      have hi : laneInputs (computePhase f m s) m = laneInputs s m := by
        unfold laneInputs
        simp [h3]
      by_cases hk : k = m
      · subst hk
        simp only [if_true, Nat.lt_succ_self, hp, hi]
        cases d <;> simp [h3]
      · rw [if_neg hk, h3]
        by_cases hlt : k < m
        · simp [hlt, Nat.lt_succ_of_lt hlt]
        · have : ¬ k < m + 1 := by omega
          simp [hlt, this]

/-- The compute phase changes lane registers only, whatever their number, and keeps it. -/
theorem computePhase_frame (f : Precision → Quad Word → Word × Word × Word) (m : Nat) (s : State) :
    (∃ lane, computePhase f m s = { s with lane := lane }) ∧
      ∀ c, ((computePhase f m s).lane.get c).length = (s.lane.get c).length := by
  induction m with
  | zero => exact ⟨⟨s.lane, rfl⟩, fun _ => rfl⟩
  | succ m ih =>
    obtain ⟨⟨lane, h1⟩, h2⟩ := ih
    have hstep : computePhase f (m + 1) s = computeElement f (computePhase f m s) m := by
      simp [computePhase, List.range_succ, List.foldl_append]
    obtain ⟨lane', h4⟩ := computeElement_eq f (computePhase f m s) m
    exact ⟨⟨lane', by rw [hstep, h4, h1]⟩, fun c => by rw [hstep, computeElement_length]; exact h2 c⟩

/-! ### The write phase -/

/-- Memory after a list of word writes in order. -/
def writeAll (ws : List (Word × Word)) (mem : Memory) : Memory := ws.foldl (fun m w => m.writeWord w.1 w.2) mem

@[simp] theorem writeAll_nil (mem : Memory) : writeAll [] mem = mem := rfl

@[simp] theorem writeAll_cons (w : Word × Word) (ws : List (Word × Word)) (mem : Memory) :
    writeAll (w :: ws) mem = writeAll ws (mem.writeWord w.1 w.2) := rfl

theorem writeAll_wf (ws : List (Word × Word)) {mem : Memory} (h : mem.wf = true) : (writeAll ws mem).wf = true := by
  induction ws generalizing mem with
  | nil => exact h
  | cons w ws ih => exact ih (Memory.wf_writeWord h w.1 w.2)

/-- A byte outside every word written reads as before. -/
theorem readByte_writeAll_outside (ws : List (Word × Word)) {mem : Memory} (h : mem.wf = true)
    (ha : ∀ w ∈ ws, w.1.toNat % 4 = 0) (y : Nat)
    (hy : ∀ w ∈ ws, ¬ (w.1.toNat ≤ y ∧ y < w.1.toNat + 4)) : (writeAll ws mem).readByte y = mem.readByte y := by
  induction ws generalizing mem with
  | nil => rfl
  | cons w ws ih =>
    rw [writeAll_cons, ih (Memory.wf_writeWord h w.1 w.2) (fun x hx => ha x (List.mem_cons_of_mem _ hx))
      (fun x hx => hy x (List.mem_cons_of_mem _ hx)),
      Memory.readByte_writeWord h (ha w (List.mem_cons_self ..)), if_neg (hy w (List.mem_cons_self ..))]

/-- An aligned word at none of the addresses written reads as before. -/
theorem readWord_writeAll_other (ws : List (Word × Word)) {mem : Memory} (h : mem.wf = true)
    (ha : ∀ w ∈ ws, w.1.toNat % 4 = 0) {a : Word} (haa : a.toNat % 4 = 0) (hn : ∀ w ∈ ws, w.1 ≠ a) :
    (writeAll ws mem).readWord a = mem.readWord a := by
  induction ws generalizing mem with
  | nil => rfl
  | cons w ws ih =>
    rw [writeAll_cons, ih (Memory.wf_writeWord h w.1 w.2) (fun x hx => ha x (List.mem_cons_of_mem _ hx))
      (fun x hx => hn x (List.mem_cons_of_mem _ hx)),
      Memory.readWord_writeWord h (ha w (List.mem_cons_self ..)) haa,
      if_neg (Ne.symm (hn w (List.mem_cons_self ..)))]

/-- A word written at addresses that differ pairwise reads as written. -/
theorem readWord_writeAll_mem (ws : List (Word × Word)) {mem : Memory} (h : mem.wf = true)
    (ha : ∀ w ∈ ws, w.1.toNat % 4 = 0) (hn : (ws.map Prod.fst).Nodup) {a v : Word} (hm : (a, v) ∈ ws) :
    (writeAll ws mem).readWord a = v := by
  induction ws generalizing mem with
  | nil => cases hm
  | cons w ws ih =>
    rw [List.map_cons, List.nodup_cons] at hn
    rw [writeAll_cons]
    rcases List.mem_cons.1 hm with rfl | hm
    · rw [readWord_writeAll_other ws (Memory.wf_writeWord h a v) (fun x hx => ha x (List.mem_cons_of_mem _ hx))
        (ha (a, v) (List.mem_cons_self ..)) (fun w hw e => hn.1 (e ▸ List.mem_map_of_mem (f := Prod.fst) hw)),
        Memory.readWord_writeWord h (ha (a, v) (List.mem_cons_self ..)) (ha (a, v) (List.mem_cons_self ..)), if_pos rfl]
    · exact ih (Memory.wf_writeWord h w.1 w.2) (fun x hx => ha x (List.mem_cons_of_mem _ hx)) hn.2 hm

/-- Everything a write phase can do: it changes memory only, by the writes before the one that ended it, which is the first
that did not complete (60_exceptions.md R229, R231). -/
theorem writePhase_cases (ws : List (Word × Word)) (s : State) :
    match writePhase p ws s with
    | .done t => t = s.setMem (writeAll ws s.mem) ∧ ∀ w ∈ ws, busAnswer p w.1 .write = .ok
    | .busError t addr => ∃ pre v post, ws = pre ++ (addr, v) :: post ∧
        (∀ w ∈ pre, busAnswer p w.1 .write = .ok) ∧ busAnswer p addr .write = .error ∧
        t = s.setMem (writeAll pre s.mem)
    | .unanswered t a => ∃ pre post, ws = pre ++ (a.addr, a.data) :: post ∧
        (∀ w ∈ pre, busAnswer p w.1 .write = .ok) ∧ busAnswer p a.addr .write = .never ∧
        a.kind = .write ∧ t = s.setMem (writeAll pre s.mem)
    | .device addr => ∃ pre v post, ws = pre ++ (addr, v) :: post ∧
        (∀ w ∈ pre, busAnswer p w.1 .write = .ok) ∧ busAnswer p addr .write = .device := by
  induction ws generalizing s with
  | nil => exact ⟨rfl, by simp⟩
  | cons w rest ih =>
    obtain ⟨a, v⟩ := w
    rw [writePhase]
    rcases hb : busAnswer p a .write with _ | _ | _ | _
    · dsimp only
      have := ih (s.setMem (s.mem.writeWord a v))
      revert this
      rcases writePhase p rest (s.setMem (s.mem.writeWord a v)) with t | ⟨t, b⟩ | ⟨t, b⟩ | b
      · rintro ⟨rfl, h2⟩
        refine ⟨rfl, ?_⟩
        intro y hy
        rcases List.mem_cons.1 hy with rfl | hy
        · exact hb
        · exact h2 y hy
      · rintro ⟨pre, u, post, rfl, h2, h3, rfl⟩
        refine ⟨(a, v) :: pre, u, post, rfl, ?_, h3, rfl⟩
        intro y hy
        rcases List.mem_cons.1 hy with rfl | hy
        · exact hb
        · exact h2 y hy
      · rintro ⟨pre, post, rfl, h2, h3, h4, rfl⟩
        refine ⟨(a, v) :: pre, post, rfl, ?_, h3, h4, rfl⟩
        intro y hy
        rcases List.mem_cons.1 hy with rfl | hy
        · exact hb
        · exact h2 y hy
      · rintro ⟨pre, u, post, rfl, h2, h3⟩
        refine ⟨(a, v) :: pre, u, post, rfl, ?_, h3⟩
        intro y hy
        rcases List.mem_cons.1 hy with rfl | hy
        · exact hb
        · exact h2 y hy
    · dsimp only
      exact ⟨[], v, rest, rfl, by simp, hb, rfl⟩
    · dsimp only
      exact ⟨[], rest, rfl, by simp, hb, rfl, rfl⟩
    · dsimp only
      exact ⟨[], v, rest, rfl, by simp, hb⟩

/-- A write phase whose accesses all complete performs all its writes. -/
theorem writePhase_done (ws : List (Word × Word)) (s : State)
    (h : ∀ w ∈ ws, busAnswer p w.1 .write = .ok) :
    writePhase p ws s = .done (s.setMem (writeAll ws s.mem)) := by
  induction ws generalizing s with
  | nil => rfl
  | cons w rest ih =>
    obtain ⟨a, v⟩ := w
    rw [writePhase]
    simp only [h (a, v) (List.mem_cons_self ..)]
    exact ih _ (fun y hy => h y (List.mem_cons_of_mem _ hy))

end Sys2Proof.Machine
end

