-- ==== Sys2Proof/Laws/Engine.lean ====
section
/-! SUPPORT. The engine's steps: what the checks leave true of a running command, where its elements lie, and everything an
engine step can do. -/

namespace Sys2Proof.Machine

variable {p : Platform}

/-! ### What a legal running command has -/

/-- The facts of `runLegal` and of the lane registers, as propositions. -/
structure RunFacts (p : Platform) (s : State) : Prop where
  width_pos : 0 < p.laneWidth
  memWf : s.mem.wf = true
  aligned : ∀ c, (s.sBase.get c).toNat % 4 = 0
  range : ∀ c, (s.sBase.get c).toNat + 4 * s.sLen.toNat ≤ 2 ^ 32
  disjoint : ∀ c d, c ≠ d → (s.sBase.get c).toNat + 4 * s.sLen.toNat ≤ (s.sBase.get d).toNat ∨
    (s.sBase.get d).toNat + 4 * s.sLen.toNat ≤ (s.sBase.get c).toNat
  nw : s.sNW = laneEnd p.laneWidth s.sLen
  below : s.progress.toNat < s.sLen.toNat
  multiple : s.progress.toNat < s.sNW.toNat → s.progress.toNat % p.laneWidth = 0
  lanes : ∀ c, (s.lane.get c).length = p.laneWidth

/-- Two distances apart by at least a region's size are two regions apart (40_command_engine.md R143). -/
theorem absDiff_ge (a b : Word) (n : Nat) :
    n ≤ absDiff a b ↔ a.toNat + n ≤ b.toNat ∨ b.toNat + n ≤ a.toNat ∨ n = 0 := by
  unfold absDiff; omega

theorem regionsDisjoint_iff (s : State) (hpos : 0 < s.sLen.toNat) :
    regionsDisjoint s = true ↔ ∀ c d, c ≠ d →
      (s.sBase.get c).toNat + 4 * s.sLen.toNat ≤ (s.sBase.get d).toNat ∨
        (s.sBase.get d).toNat + 4 * s.sLen.toNat ≤ (s.sBase.get c).toNat := by
  simp only [regionsDisjoint, componentPairs, List.all_cons, List.all_nil, Bool.and_true, Bool.and_eq_true,
    decide_eq_true_eq, absDiff_ge]
  constructor
  · rintro ⟨h1, h2, h3, h4, h5, h6⟩ c d hcd
    cases c <;> cases d <;> first | exact absurd rfl hcd | omega
  · intro h
    have h1 := h .component0 .component1 (by decide)
    have h2 := h .component0 .component2 (by decide)
    have h3 := h .component0 .component3 (by decide)
    have h4 := h .component1 .component2 (by decide)
    have h5 := h .component1 .component3 (by decide)
    have h6 := h .component2 .component3 (by decide)
    omega

theorem basesAligned_iff (s : State) : basesAligned s = true ↔ ∀ c, (s.sBase.get c).toNat % 4 = 0 := by
  simp only [basesAligned, List.all_eq_true, beq_iff_eq]
  exact ⟨fun h c => h c (Component.mem_all c), fun h c _ => h c⟩

theorem regionsInRange_iff (s : State) :
    regionsInRange s = true ↔ ∀ c, (s.sBase.get c).toNat + 4 * s.sLen.toNat ≤ 2 ^ 32 := by
  simp only [regionsInRange, List.all_eq_true, decide_eq_true_eq]
  exact ⟨fun h c => h c (Component.mem_all c), fun h c _ => h c⟩

theorem lanesLegal_iff (s : State) :
    lanesLegal p s = true ↔ ∀ c, (s.lane.get c).length = p.laneWidth := by
  simp only [lanesLegal, List.all_eq_true, beq_iff_eq]
  exact ⟨fun h c => h c (Component.mem_all c), fun h c _ => h c⟩

/-- A legal state with a command running has all the facts of a running command. -/
theorem legal_runFacts {s : State} (h : legal p s = true) (hb : busy s = true) : RunFacts p s := by
  simp only [legal, Bool.and_eq_true] at h
  obtain ⟨⟨⟨⟨⟨⟨⟨⟨⟨⟨hp, hm⟩, -⟩, -⟩, -⟩, hl⟩, -⟩, -⟩, hr⟩, -⟩, -⟩ := h
  simp only [hb, Bool.not_true, Bool.false_or, runLegal, Bool.and_eq_true, Bool.or_eq_true, decide_eq_true_eq,
    beq_iff_eq] at hr
  obtain ⟨⟨⟨⟨⟨⟨⟨⟨⟨-, -⟩, -⟩, -⟩, ha⟩, hra⟩, hd⟩, hn⟩, hlt⟩, hmul⟩ := hr
  simp only [Platform.wellFormed, Platform.laneWidthInRange, Bool.and_eq_true, decide_eq_true_eq] at hp
  exact
    { width_pos := hp.1.1
      memWf := hm
      aligned := (basesAligned_iff s).1 ha
      range := (regionsInRange_iff s).1 hra
      disjoint := (regionsDisjoint_iff s (by omega)).1 hd
      nw := hn
      below := hlt
      multiple := fun h => by omega
      lanes := (lanesLegal_iff s).1 hl }

/-! ### Where elements lie -/

/-- An element's address does not wrap (40_command_engine.md R150). -/
theorem elementAddress_toNat {s : State} (h : RunFacts p s) (c : Component) {k : Nat} (hk : k < s.sLen.toNat) :
    (elementAddress s c k).toNat = (s.sBase.get c).toNat + 4 * k := by
  have := h.range c
  unfold elementAddress
  rw [BitVec.toNat_add, BitVec.toNat_ofNat]
  omega

theorem elementAddress_aligned {s : State} (h : RunFacts p s) (c : Component) {k : Nat} (hk : k < s.sLen.toNat) :
    (elementAddress s c k).toNat % 4 = 0 := by
  have := h.aligned c
  rw [elementAddress_toNat h c hk]
  omega

/-- Different elements lie at different addresses. -/
theorem elementAddress_inj {s : State} (h : RunFacts p s) {c d : Component} {k l : Nat} (hk : k < s.sLen.toNat)
    (hl : l < s.sLen.toNat) (he : elementAddress s c k = elementAddress s d l) : c = d ∧ k = l := by
  have h1 := elementAddress_toNat h c hk
  have h2 := elementAddress_toNat h d hl
  rw [he] at h1
  by_cases hcd : c = d
  · subst hcd; exact ⟨rfl, by omega⟩
  · have := h.disjoint c d hcd
    omega

/-- S_NW is the greatest multiple of W not above S_LEN (10_state.md R54). -/
theorem RunFacts.nw_toNat {s : State} (h : RunFacts p s) :
    s.sNW.toNat = s.sLen.toNat / p.laneWidth * p.laneWidth := by
  have h1 := Nat.div_mul_le_self s.sLen.toNat p.laneWidth
  have h2 := s.sLen.isLt
  rw [h.nw, laneEnd, BitVec.toNat_ofNat, Nat.mod_eq_of_lt (by omega)]

/-- A step takes at least one element and at most W, and does not pass S_LEN (40_command_engine.md R145). -/
theorem stepSize_bounds {s : State} (h : RunFacts p s) :
    0 < stepSize p s ∧ stepSize p s ≤ p.laneWidth ∧ s.progress.toNat + stepSize p s ≤ s.sLen.toNat := by
  have hw := h.width_pos
  have hb := h.below
  unfold stepSize
  split
  · next hlt =>
    refine ⟨hw, le_refl _, ?_⟩
    have hm := h.multiple hlt
    have hn := h.nw_toNat
    have hle := Nat.div_mul_le_self s.sLen.toNat p.laneWidth
    obtain ⟨q, hq⟩ := Nat.dvd_of_mod_eq_zero hm
    rw [hn, hq, Nat.mul_comm] at hlt
    have hq2 : q + 1 ≤ s.sLen.toNat / p.laneWidth := Nat.lt_of_mul_lt_mul_right hlt
    have := Nat.mul_le_mul_right p.laneWidth hq2
    rw [hq]
    have e : (q + 1) * p.laneWidth = p.laneWidth * q + p.laneWidth := by ring
    omega
  · exact ⟨by omega, hw, by omega⟩

/-- `i + m` does not wrap (40_command_engine.md R152). -/
theorem progress_add_toNat {s : State} (h : RunFacts p s) :
    (s.progress + BitVec.ofNat 32 (stepSize p s)).toNat = s.progress.toNat + stepSize p s := by
  have := (stepSize_bounds h).2.2
  have h2 := s.sLen.isLt
  rw [BitVec.toNat_add, BitVec.toNat_ofNat]
  omega

/-! ### Everything an engine step can do -/

/-- The end of a step, as one record (40_command_engine.md R147, R149). -/
theorem finishStep_eq (m : Nat) (s : State) :
    finishStep m s =
      { s with
        progress := s.progress + BitVec.ofNat 32 m
        engine := if s.progress + BitVec.ofNat 32 m = s.sLen then .idle else s.engine
        done := if s.progress + BitVec.ofNat 32 m = s.sLen then true else s.done } := by
  unfold finishStep
  simp only
  split
  · next h => simp [complete, h]
  · simp

/-- The addresses of a step's writes, in order. -/
theorem stepWrites_fst (cs : List Component) (m : Nat) (s : State) :
    (stepWrites cs m s).map Prod.fst =
      (accessOrder cs m).map fun x => elementAddress s x.1 (s.progress.toNat + x.2) := by
  simp [stepWrites, Function.comp_def]

theorem mem_stepWrites {cs : List Component} {m : Nat} {s : State} {w : Word × Word} :
    w ∈ stepWrites cs m s ↔ ∃ c j, c ∈ cs ∧ j < m ∧ w = (elementAddress s c (s.progress.toNat + j), s.laneReg c j) := by
  constructor
  · intro h
    obtain ⟨⟨c, j⟩, hm, rfl⟩ := List.mem_map.1 h
    exact ⟨c, j, (mem_accessOrder.1 hm).1, (mem_accessOrder.1 hm).2, rfl⟩
  · rintro ⟨c, j, hc, hj, rfl⟩
    exact List.mem_map.2 ⟨(c, j), mem_accessOrder.2 ⟨hc, hj⟩, rfl⟩

theorem nodup_accessOrder {cs : List Component} (hn : cs.Nodup) (m : Nat) : (accessOrder cs m).Nodup := by
  unfold accessOrder
  rw [List.nodup_flatMap]
  refine ⟨fun c _ => List.Nodup.map (fun a b h => by simpa using h) List.nodup_range, ?_⟩
  refine List.Pairwise.imp ?_ hn
  intro a b hab x hx hy
  simp only [List.mem_map] at hx hy
  obtain ⟨i, -, rfl⟩ := hx
  obtain ⟨j, -, h⟩ := hy
  exact hab (by simpa using (congrArg Prod.fst h).symm)

theorem nodup_stepWrites {s : State} (h : RunFacts p s) {cs : List Component} (hn : cs.Nodup) {m : Nat}
    (hm : s.progress.toNat + m ≤ s.sLen.toNat) (t : State) (hb : t.sBase = s.sBase) (hp : t.progress = s.progress) :
    ((stepWrites cs m t).map Prod.fst).Nodup := by
  rw [stepWrites_fst]
  refine List.Nodup.map_on ?_ (nodup_accessOrder hn m)
  rintro ⟨c, i⟩ hx ⟨d, j⟩ hy he
  have hi := (mem_accessOrder.1 hx).2
  have hj := (mem_accessOrder.1 hy).2
  simp only [hp, elementAddress_congr hb] at he
  obtain ⟨h1, h2⟩ := elementAddress_inj h (by omega) (by omega) he
  have h3 : i = j := by omega
  rw [h1, h3]

/-- The output of an element function for a component; component3 has none (40_command_engine.md R157). -/
def outputOf (y : Word × Word × Word) (other : Word) : Component → Word
  | .component0 => y.1
  | .component1 => y.2.1
  | .component2 => y.2.2
  | .component3 => other

/-- The inputs of element j of the next step: the words in memory of the components read, and for the others the lane
register, which no element function reads (40_command_engine.md R147). -/
def stepInputs (shape : CommandShape) (s : State) (j : Nat) : Quad Word :=
  let pick := fun c => if c ∈ shape.reads then elementWord s c (s.progress.toNat + j) else s.laneReg c j
  ⟨pick .component0, pick .component1, pick .component2, pick .component3⟩

/-- Everything an engine step can do when it answers a next state: an abort in its read or write phase (60_exceptions.md
R231), a wait for ever in either (70_reset_and_hazards.md R273), or its end (40_command_engine.md R147). -/
theorem engineStep_cases {shape : CommandShape} {s t : State} (h : engineStep p shape s = .next t) :
    (∃ lane addr, t = raiseError .bus addr { s with lane := lane } ∧ (∀ c, (lane.get c).length = (s.lane.get c).length) ∧
      ∃ x ∈ accessOrder shape.reads (stepSize p s), addr = elementAddress s x.1 (s.progress.toNat + x.2)) ∨
    (∃ lane a, t = ({ s with lane := lane } : State).setOutstanding a ∧
      (∀ c, (lane.get c).length = (s.lane.get c).length) ∧ a.kind = .read ∧
      (∃ x ∈ accessOrder shape.reads (stepSize p s), a.addr = elementAddress s x.1 (s.progress.toNat + x.2)) ∧
      busAnswer p a.addr a.kind = .never) ∨
    (∃ lane s1, readPhase p (accessOrder shape.reads (stepSize p s)) s = .done s1 ∧
      { s with lane := lane } = computePhase shape.element (stepSize p s) s1 ∧
      (∀ c, (lane.get c).length = (s.lane.get c).length) ∧
      ((∃ pre addr v post, stepWrites shape.writes (stepSize p s) { s with lane := lane } = pre ++ (addr, v) :: post ∧
          t = raiseError .bus addr { s with lane := lane, mem := writeAll pre s.mem }) ∨
       (∃ pre a post, stepWrites shape.writes (stepSize p s) { s with lane := lane } = pre ++ (a.addr, a.data) :: post ∧
          a.kind = .write ∧ busAnswer p a.addr a.kind = .never ∧
          t = ({ s with lane := lane, mem := writeAll pre s.mem } : State).setOutstanding a) ∨
       t = steppedTo p s (writeAll (stepWrites shape.writes (stepSize p s) { s with lane := lane }) s.mem) lane)) := by
  unfold engineStep at h
  simp only at h
  have hr := readPhase_cases (p := p) (accessOrder shape.reads (stepSize p s)) s
  revert hr h
  rcases hrp : readPhase p (accessOrder shape.reads (stepSize p s)) s with s1 | ⟨s1, a⟩ | ⟨s1, a⟩ | a
  · rintro h ⟨⟨lane1, rfl⟩, hlen, -⟩
    right; right
    obtain ⟨⟨lane, hc⟩, hlen2⟩ := computePhase_frame shape.element (stepSize p s) { s with lane := lane1 }
    have hl : ∀ c, (lane.get c).length = (s.lane.get c).length := by
      intro c
      have := (hlen2 c).trans (hlen c)
      rw [hc] at this
      exact this
    refine ⟨lane, _, rfl, hc.symm, hl, ?_⟩
    simp only [afterPhase] at h
    rw [hc] at h
    have hw := writePhase_cases (p := p) (stepWrites shape.writes (stepSize p s) { s with lane := lane }) { s with lane := lane }
    revert hw h
    rcases writePhase p (stepWrites shape.writes (stepSize p s) { s with lane := lane }) { s with lane := lane }
      with s2 | ⟨s2, a⟩ | ⟨s2, a⟩ | a
    · rintro h ⟨rfl, -⟩
      simp only [Host.Outcome.next.injEq] at h
      right; right
      rw [← h, finishStep_eq]
      rfl
    · rintro h ⟨pre, v, post, hws, -, -, rfl⟩
      simp only [Host.Outcome.next.injEq] at h
      exact Or.inl ⟨pre, a, v, post, hws, h.symm⟩
    · rintro h ⟨pre, post, hws, -, hn, hk, rfl⟩
      simp only [Host.Outcome.next.injEq] at h
      exact Or.inr (Or.inl ⟨pre, a, post, hws, hk, by rw [hk]; exact hn, h.symm⟩)
    · intro h
      simp at h
  · rintro h ⟨⟨lane, rfl⟩, hlen, x, hx, hax, -⟩
    simp only [afterPhase, Host.Outcome.next.injEq] at h
    exact Or.inl ⟨lane, a, h.symm, hlen, x, hx, hax⟩
  · rintro h ⟨⟨lane, rfl⟩, hlen, hk, ⟨x, hx, hax⟩, hn⟩
    simp only [afterPhase, Host.Outcome.next.injEq] at h
    exact Or.inr (Or.inl ⟨lane, a, h.symm, hlen, hk, ⟨x, hx, hax⟩, by rw [hk]; exact hn⟩)
  · intro h
    simp [afterPhase] at h

/-- The lane registers that the writes of a step take: the element function of the step's inputs. -/
theorem laneReg_after_compute {shape : CommandShape} {s s1 : State} (h : RunFacts p s)
    (hr : readPhase p (accessOrder shape.reads (stepSize p s)) s = .done s1) {c : Component} {j : Nat} (hj : j < stepSize p s) :
    (computePhase shape.element (stepSize p s) s1).laneReg c j =
      outputOf (shape.element s.precision (stepInputs shape s j)) ((stepInputs shape s j).get .component3) c := by
  have hb := stepSize_bounds h
  have hcases := readPhase_cases (p := p) (accessOrder shape.reads (stepSize p s)) s
  rw [hr] at hcases
  obtain ⟨⟨lane, rfl⟩, hlen, -⟩ := hcases
  have hlane := readPhase_laneReg _ _ _ hr (fun x hx => by
    have := (mem_accessOrder (c := x.1) (j := x.2)).1 hx
    rw [h.lanes]; omega)
  have hread : ∀ d, ({ s with lane := lane } : State).laneReg d j = (stepInputs shape s j).get d := by
    intro d
    rw [hlane]
    cases d <;> simp [stepInputs, Quad.get, mem_accessOrder, hj, elementWord]
  have hin : laneInputs { s with lane := lane } j = stepInputs shape s j := by
    apply Quad.ext_get
    intro d
    rw [← hread d]
    cases d <;> rfl
  obtain ⟨-, -, h3⟩ := computePhase_spec shape.element (stepSize p s) { s with lane := lane }
    (fun c => by rw [hlen, h.lanes]; omega)
  rw [h3, if_pos hj, hin, show State.precision { s with lane := lane } = s.precision from rfl]
  cases c <;> simp [outputOf, ← hread]

/-- An engine step all of whose accesses complete: it answers the state after the step, with the outputs of its elements in
the components written and every other byte as it was (40_command_engine.md R147). -/
theorem engineStep_completes {shape : CommandShape} {s : State} (h : RunFacts p s) (hn : shape.writes.Nodup)
    (hok : stepAccessesOk p shape.reads shape.writes s = true) :
    ∃ mem lane, engineStep p shape s = .next (steppedTo p s mem lane) ∧ mem.wf = true ∧
      (∀ c, (lane.get c).length = p.laneWidth) ∧
      (∀ c ∈ shape.writes, ∀ j < stepSize p s, mem.readWord (elementAddress s c (s.progress.toNat + j)) =
        outputOf (shape.element s.precision (stepInputs shape s j)) ((stepInputs shape s j).get .component3) c) ∧
      (∀ addr, (∀ c ∈ shape.writes, ∀ j < stepSize p s, holdsByte s c (s.progress.toNat + j) addr = false) →
        mem.readByte addr = s.mem.readByte addr) := by
  have hb := stepSize_bounds h
  simp only [stepAccessesOk, Bool.and_eq_true, List.all_eq_true, beq_iff_eq] at hok
  obtain ⟨s1, hr⟩ := readPhase_done (p := p) (accessOrder shape.reads (stepSize p s)) s (fun x hx => hok.1 x hx)
  have hlr := fun c j (hj : j < stepSize p s) => laneReg_after_compute (shape := shape) h hr (c := c) hj
  have hcases := readPhase_cases (p := p) (accessOrder shape.reads (stepSize p s)) s
  rw [hr] at hcases
  obtain ⟨⟨lane1, rfl⟩, hlen, -⟩ := hcases
  obtain ⟨⟨lane, hc⟩, hlen2⟩ := computePhase_frame shape.element (stepSize p s) { s with lane := lane1 }
  rw [hc] at hlr
  set s2 : State := { s with lane := lane } with hs2
  have hl : ∀ c, (lane.get c).length = p.laneWidth := by
    intro c
    have := (hlen2 c).trans (hlen c)
    rw [hc, h.lanes] at this
    exact this
  have hwok : ∀ w ∈ stepWrites shape.writes (stepSize p s) s2, busAnswer p w.1 .write = .ok := by
    intro w hw
    obtain ⟨c, j, hcm, hj, rfl⟩ := mem_stepWrites.1 hw
    exact hok.2 (c, j) (mem_accessOrder.2 ⟨hcm, hj⟩)
  have hal : ∀ w ∈ stepWrites shape.writes (stepSize p s) s2, w.1.toNat % 4 = 0 := by
    intro w hw
    obtain ⟨c, j, hcm, hj, rfl⟩ := mem_stepWrites.1 hw
    exact elementAddress_aligned h c (k := s.progress.toNat + j) (by omega)
  refine ⟨writeAll (stepWrites shape.writes (stepSize p s) s2) s.mem, lane, ?_, writeAll_wf _ h.memWf, hl, ?_, ?_⟩
  · unfold engineStep
    simp only [hr, afterPhase, hc, writePhase_done _ _ hwok, finishStep_eq]
    rfl
  · intro c hcm j hj
    rw [← hlr c j hj]
    exact readWord_writeAll_mem _ h.memWf hal
      (nodup_stepWrites h hn hb.2.2 s2 rfl rfl) (mem_stepWrites.2 ⟨c, j, hcm, hj, rfl⟩)
  · intro addr ha
    refine readByte_writeAll_outside _ h.memWf hal addr ?_
    intro w hw hin
    obtain ⟨c, j, hcm, hj, rfl⟩ := mem_stepWrites.1 hw
    have := ha c hcm j hj
    simp only [holdsByte, Bool.and_eq_false_iff, decide_eq_false_iff_not] at this
    exact absurd hin (by rintro ⟨h1, h2⟩; rcases this with h3 | h3 <;> [exact h3 h1; exact h3 h2])

end Sys2Proof.Machine
end

