-- ==== Sys2Proof/Laws/Accept.lean ====
section
/-! SUPPORT. The accept and its checks, what exec is of each command, and everything a step can do. -/

namespace Sys2Proof.Machine

variable {p : Platform}

/-- exec of a command is the next event of that command, by its shape (log 3). -/
theorem exec_eq (i : Instr) (s : State) : execOn p i s = runCommand p i (shapeOf i) s := by cases i <;> rfl

/-- Every command writes components 0 to 2 (40_command_engine.md R157). -/
theorem shapeOf_writes (i : Instr) : (shapeOf i).writes = [.component0, .component1, .component2] := by cases i <;> rfl

/-- BAD_KSCALE is checked for YCCK2RGB alone (40_command_engine.md R140). -/
theorem shapeOf_checksKScale (i : Instr) : (shapeOf i).checksKScale = (i == .ycck2rgb) := by cases i <;> rfl

/-- exec while IDLE is the accept. -/
theorem exec_idle {i : Instr} {s : State} (h : s.engine = .idle) :
    execOn p i s = .next (accept p i (shapeOf i).checksKScale s) := by
  rw [exec_eq, runCommand, h]

/-- exec while RUN, no access outstanding, is the engine's step. -/
theorem exec_run {i : Instr} {s : State} (h : s.engine = .run) (ho : s.outstanding = none) :
    execOn p i s = engineStep p (shapeOf i) s := by
  rw [exec_eq, runCommand, h, ho]
  rfl

/-- exec of an engine that waits for an access the bus never answers leaves the state as it is. -/
theorem exec_stuck {i : Instr} {s : State} (h : s.engine = .run) (ho : s.outstanding.isSome = true) :
    execOn p i s = .next s := by
  rw [exec_eq, runCommand, h]
  simp [ho]

/-- Everything an accept can do (40_command_engine.md R131): a rejection, a completion at once, or the start. -/
theorem accept_cases (i : Instr) (k : Bool) (s : State) :
    (∃ code, code ≠ .none ∧ checkCommand k (beginAccept (encode i) s) = code ∧
      accept p i k s = raiseError code 0#32 (beginAccept (encode i) s)) ∨
    (checkCommand k (beginAccept (encode i) s) = .none ∧ s.compLen.c0 = 0#32 ∧
      accept p i k s = { beginAccept (encode i) s with
        op := i, sNW := laneEnd p.laneWidth s.compLen.c0, done := true }) ∨
    (checkCommand k (beginAccept (encode i) s) = .none ∧ s.compLen.c0 ≠ 0#32 ∧
      accept p i k s = { beginAccept (encode i) s with
        op := i, sNW := laneEnd p.laneWidth s.compLen.c0, engine := .run, memAtAccept := s.mem }) := by
  by_cases hc : checkCommand k (beginAccept (encode i) s) = .none
  · right
    have ha : accept p i k s = startCommand p i (beginAccept (encode i) s) := by
      unfold accept; simp only [hc, if_true]
    by_cases hz : s.compLen.c0 = 0#32
    · left
      refine ⟨hc, hz, ?_⟩
      rw [ha]
      unfold startCommand
      simp [hz]
    · right
      refine ⟨hc, hz, ?_⟩
      rw [ha]
      unfold startCommand
      simp [hz]
  · left
    refine ⟨_, hc, rfl, ?_⟩
    unfold accept; simp only [hc, if_false]

/-- What a passed check says (40_command_engine.md R135). -/
theorem checkCommand_none {k : Bool} {s : State} (h : checkCommand k s = .none) :
    lengthsEqual s = true ∧ maxLegal s = true ∧ halfLegal s = true ∧ (k = true → kScaleLegal s = true) ∧
      (s.sLen = 0#32 ∨ (basesAligned s = true ∧ regionsInRange s = true ∧ regionsDisjoint s = true)) := by
  unfold checkCommand at h
  split_ifs at h with h1 h2 h3 h4 h5 h6 h7 h8 <;>
    simp only [Bool.not_eq_true', Bool.not_eq_false, Bool.and_eq_true, not_and, beq_iff_eq] at * <;>
    simp_all

/-- Everything a step can do: the engine's turn, or the oldest event of the outside world (log 4). -/
theorem step_cases (s : State) :
    (s.inputs = [] ∧ stepOn p s = engineTurn p s) ∨
      ∃ e rest, s.inputs = e :: rest ∧ stepOn p s = performEvent p e (s.setInputs rest) := by
  unfold stepOn
  cases h : s.inputs with
  | nil => exact Or.inl ⟨rfl, rfl⟩
  | cons e rest => exact Or.inr ⟨e, rest, rfl, rfl⟩

/-- Everything the engine's turn can do: nothing, or exec of the running command. -/
theorem engineTurn_cases (s : State) :
    ((s.resetHeld = true ∨ s.engine = .idle) ∧ engineTurn p s = .next s) ∨
      (s.resetHeld = false ∧ s.engine = .run ∧ engineTurn p s = execOn p s.op s) := by
  unfold engineTurn
  cases hr : s.resetHeld <;> cases he : s.engine <;> simp

/-- Everything a CMD write can do: an overrun, the accept of the command it spells, or the rejection of an illegal word. -/
theorem commandWrite_cases (w : Word) (s : State) :
    (s.engine = .run ∧ commandWrite p w s = .next (overrun s)) ∨
      (s.engine = .idle ∧ ∃ i, decode w = .ok i ∧ commandWrite p w s = .next (accept p i (shapeOf i).checksKScale s)) ∨
      (s.engine = .idle ∧ (∃ e, decode w = .error e) ∧ commandWrite p w s = .next (acceptIllegal w s)) := by
  unfold commandWrite
  cases he : s.engine with
  | run => exact Or.inl ⟨rfl, rfl⟩
  | idle =>
    cases hd : decode w with
    | ok i => exact Or.inr (Or.inl ⟨rfl, i, rfl, exec_idle he⟩)
    | error e => exact Or.inr (Or.inr ⟨rfl, ⟨e, rfl⟩, rfl⟩)

end Sys2Proof.Machine
end

