-- ==== Sys2Proof/Laws/Binary32.lean ====
section
/-! SUPPORT. The fields of a binary32 pattern, of a signed result and of the canonical NaN (00_scope.md R16, R18), and the
bound of a rounded pattern (R17). -/

namespace Sys2Proof.Machine

theorem fractionField_eq (u : Word) : fractionField u = u.toNat % 2 ^ 23 := by
  simp [fractionField, BitVec.extractLsb'_toNat]

theorem exponentField_eq (u : Word) : exponentField u = u.toNat / 2 ^ 23 % 2 ^ 8 := by
  simp [exponentField, BitVec.extractLsb'_toNat, Nat.shiftRight_eq_div_pow]

theorem signBit_eq (u : Word) : signBit u = decide (2 ^ 31 ≤ u.toNat) := by
  have h := u.isLt
  unfold signBit
  rw [Bool.eq_iff_iff, beq_iff_eq, decide_eq_true_iff, ← BitVec.toNat_inj]
  simp only [BitVec.extractLsb'_toNat, Nat.shiftRight_eq_div_pow, BitVec.toNat_ofNat]
  omega

/-- A result's pattern as a number. -/
theorem withSign_toNat (negative : Bool) {p : Nat} (h : p < 2 ^ 31) :
    (withSign negative p).toNat = if negative then 2 ^ 31 + p else p := by
  cases negative <;> simp [withSign] <;> omega

@[simp] theorem signBit_withSign (negative : Bool) {p : Nat} (h : p < 2 ^ 31) :
    signBit (withSign negative p) = negative := by
  rw [signBit_eq, withSign_toNat negative h]
  cases negative
  · simpa using h
  · simp

theorem fractionField_withSign (negative : Bool) {p : Nat} (h : p < 2 ^ 31) :
    fractionField (withSign negative p) = p % 2 ^ 23 := by
  rw [fractionField_eq, withSign_toNat negative h]
  cases negative
  · simp
  · simp
    omega

theorem exponentField_withSign (negative : Bool) {p : Nat} (h : p < 2 ^ 31) :
    exponentField (withSign negative p) = p / 2 ^ 23 := by
  rw [exponentField_eq, withSign_toNat negative h]
  cases negative <;> simp <;> omega

/-- A result whose pattern is at most infinity's is not a NaN. -/
theorem isNaN_withSign (negative : Bool) {p : Nat} (h : p ≤ infinityPattern) : isNaN (withSign negative p) = false := by
  have hp : p < 2 ^ 31 := by unfold infinityPattern at h; omega
  unfold isNaN
  rw [exponentField_withSign negative hp, fractionField_withSign negative hp, Bool.and_eq_false_iff]
  unfold infinityPattern at h
  by_cases h1 : p / 2 ^ 23 = 255
  · right
    have : p % 2 ^ 23 = 0 := by omega
    norm_num at this ⊢
    exact this
  · left
    simpa using h1

/-- Rounding gives at most infinity (00_scope.md R17: overflow to infinity). -/
theorem roundPattern_le (num den : Nat) : roundPattern num den ≤ infinityPattern := Nat.min_le_right _ _

@[simp] theorem isNaN_canonicalNaN : isNaN canonicalNaN = true := by decide

@[simp] theorem signBit_fneg (a : Word) : signBit (fneg a) = !signBit a := by
  have h : (fneg a).toNat = a.toNat ^^^ 2 ^ 31 := by simp [fneg]
  have ha : a.toNat.testBit 31 = decide (2 ^ 31 ≤ a.toNat) := by
    have := a.isLt
    rw [Nat.testBit_eq_decide_div_mod_eq]
    simp only [decide_eq_decide]
    omega
  have hn : (fneg a).toNat.testBit 31 = decide (2 ^ 31 ≤ (fneg a).toNat) := by
    have := (fneg a).isLt
    rw [Nat.testBit_eq_decide_div_mod_eq]
    simp only [decide_eq_decide]
    omega
  rw [signBit_eq, signBit_eq, ← ha, ← hn, h, Nat.testBit_xor, Nat.testBit_two_pow_self, Bool.xor_true]

end Sys2Proof.Machine
end

