-- ==== Sys2Proof/Laws/Events.lean ====
section
/-! SUPPORT. Everything each event of the outside world can do: the register port, host accesses of the data space, `wait` and
the reset input. -/

namespace Sys2Proof.Machine

variable {p : Platform}

/-- exec is the command's event at the platform of Config (log 1). -/
theorem exec_eq_execOn (i : Instr) (s : State) : exec i s = execOn Config.platform i s := by cases i <;> rfl

/-! ### The register port -/

/-- What an access inside the window selects (30_encoding.md R107, 10_state.md R46). -/
theorem portTarget_inside (p : Platform) (size : Nat) {off : Nat} (h : off < 256) :
    portTarget p size (p.blkBase + off) =
      if size == 4 && off % 4 == 0 then .register (regOfIndex (off / 4)) else .slaveError := by
  unfold portTarget
  rw [if_neg (by simp; omega), Nat.add_sub_cancel_left]

/-- An access outside the window selects nothing. -/
theorem portTarget_outside {p : Platform} {size addr : Nat} :
    portTarget p size addr = .outside ↔ addr < p.blkBase ∨ p.blkBase + 256 ≤ addr := by
  unfold portTarget
  by_cases h : addr < p.blkBase ∨ p.blkBase + 256 ≤ addr
  · simp [h]
  · rw [if_neg (by simpa using h)]
    simp only [h, iff_false]
    split <;> simp

/-- Everything a register-port read can do. -/
theorem portRead_cases (size addr : Nat) (s : State) :
    (s.resetHeld = true ∧ portRead p size addr s = .refused .portAccessDuringReset) ∨
      (s.resetHeld = false ∧
        ((portTarget p size addr = .outside ∧ portRead p size addr s = .fault .outsideRegisterWindow) ∨
          (portTarget p size addr = .slaveError ∧ portRead p size addr s = .next (s.setResponse .slaveError)) ∨
          ∃ r, portTarget p size addr = .register r ∧
            portRead p size addr s = .next (s.setResponse (.data (readRegister p r s))))) := by
  unfold portRead
  cases hr : s.resetHeld <;> cases ht : portTarget p size addr <;> simp

/-- Everything a register-port write can do. -/
theorem portWrite_cases (size addr : Nat) (v : Word) (s : State) :
    (s.resetHeld = true ∧ portWrite p size addr v s = .refused .portAccessDuringReset) ∨
      (s.resetHeld = false ∧
        ((portTarget p size addr = .outside ∧ portWrite p size addr v s = .fault .outsideRegisterWindow) ∨
          (portTarget p size addr = .slaveError ∧
            portWrite p size addr v s = .next (s.setResponse .slaveError)) ∨
          (portTarget p size addr = .register .cmd ∧
            portWrite p size addr v s = commandWrite p v (s.setResponse .written)) ∨
          ∃ r, r ≠ .cmd ∧ portTarget p size addr = .register r ∧
            portWrite p size addr v s = .next (writeRegister r v (s.setResponse .written)))) := by
  unfold portWrite
  cases hr : s.resetHeld with
  | true => simp
  | false =>
    cases ht : portTarget p size addr with
    | outside => simp
    | slaveError => simp
    | register r => cases r <;> simp

/-- A STATUS write field by field (10_state.md R36). -/
theorem writeStatus_eq (v : Word) (s : State) :
    writeStatus v s = { s with
      done := s.done && !v.getLsbD 1
      err := s.err && !v.getLsbD 2
      errCode := if v.getLsbD 2 then .none else s.errCode
      errAddr := if v.getLsbD 2 then 0#32 else s.errAddr
      ovr := s.ovr && !v.getLsbD 3 } := by
  unfold writeStatus
  cases v.getLsbD 1 <;> cases v.getLsbD 2 <;> cases v.getLsbD 3 <;> simp [clearDone, clearError, clearOverrun]

/-- A register write leaves the engine, its shadows, its lane registers and memory as they are. -/
theorem writeRegister_frame (r : Reg) (v : Word) (s : State) :
    (writeRegister r v s).engine = s.engine ∧ (writeRegister r v s).op = s.op ∧ (writeRegister r v s).sMax = s.sMax ∧
      (writeRegister r v s).sHalf = s.sHalf ∧ (writeRegister r v s).sKScale = s.sKScale ∧
      (writeRegister r v s).sBase = s.sBase ∧ (writeRegister r v s).sLen = s.sLen ∧ (writeRegister r v s).sNW = s.sNW ∧
      (writeRegister r v s).progress = s.progress ∧ (writeRegister r v s).kScale = s.kScale ∧
      (writeRegister r v s).lastCmd = s.lastCmd ∧ (writeRegister r v s).lane = s.lane ∧
      (writeRegister r v s).mem = s.mem ∧ (writeRegister r v s).memAtAccept = s.memAtAccept ∧
      (writeRegister r v s).resetHeld = s.resetHeld ∧ (writeRegister r v s).outstanding = s.outstanding ∧
      (writeRegister r v s).hostCache = s.hostCache := by
  cases r <;> simp [writeRegister, writeStatus_eq]

/-- Everything a round of `wait` can do (30_encoding.md R109). -/
theorem waitRound_cases (s : State) :
    (s.resetHeld = true ∧ waitRound s = .refused .portAccessDuringReset) ∨
      (s.resetHeld = false ∧ s.engine = .idle ∧ waitRound s = .next (s.setResponse (.data (statusWord s)))) ∨
      (s.resetHeld = false ∧ s.engine = .run ∧
        waitRound s = .next ((s.setResponse (.data (statusWord s))).setInputs (.engineTurn :: .wait :: s.inputs))) := by
  unfold waitRound
  cases hr : s.resetHeld <;> cases he : s.engine <;> simp [busy, he]

/-! ### Host accesses of the data space -/

/-- Everything a host read can do (20_memory.md R70, R88). -/
theorem hostRead_cases (addr count : Nat) (s : State) :
    (2 ^ 32 < addr + count ∧ hostRead p addr count s = .fault .outsideDataSpace) ∨
      (addr + count ≤ 2 ^ 32 ∧ hostRead p addr count s = .next { s with
        response := .bytes ((List.range count).map fun k => hostView p s (addr + k))
        hostCache := if p.coherent then s.hostCache else cacheFill (hostWord s) addr count s.hostCache
        freeCount := s.freeCount + 1 }) := by
  unfold hostRead
  by_cases h : 2 ^ 32 < addr + count
  · exact Or.inl ⟨h, if_pos h⟩
  · exact Or.inr ⟨by omega, if_neg h⟩

/-- On a coherent platform a host read sees the data space itself. -/
theorem hostView_coherent (h : p.coherent = true) (s : State) (addr : Nat) : hostView p s addr = hostByte s addr := by
  rw [hostView, if_pos h]

/-- Without coherence a host read of a byte whose word the caches hold a copy of sees the copy. -/
theorem hostView_cached (h : p.coherent = false) {s : State} {addr : Nat} {e : CachedWord}
    (he : cacheLookup s.hostCache (addr / 4) = some e) : hostView p s addr = byteOfWord e.value (addr % 4) := by
  simp [hostView, h, cachedOr, he]

/-- A byte of a fetched word is the byte that a host read of it sees. -/
theorem byteOfWord_hostWord (s : State) (addr : Nat) : byteOfWord (hostWord s (addr / 4)) (addr % 4) = hostByte s addr := by
  have h := byteOfWord_wordOfBytes (fun k => hostByte s (4 * (addr / 4) + k)) (Nat.mod_lt addr (show 0 < 4 by omega))
  rw [show 4 * (addr / 4) + addr % 4 = addr by omega] at h
  exact h

/-- A host read of a byte whose word the caches hold no copy of sees the data space. -/
theorem hostView_uncached {s : State} {addr : Nat} (he : cacheLookup s.hostCache (addr / 4) = none) :
    hostView p s addr = hostByte s addr := by
  unfold hostView
  split
  · rfl
  · rw [cachedOr, he, byteOfWord_hostWord]

/-- Everything a host write can do (20_memory.md R70, R89, R94). -/
theorem hostWrite_cases (addr : Nat) (bytes : List Byte) (s : State) :
    (2 ^ 32 < addr + bytes.length ∧ hostWrite p addr bytes s = .fault .outsideDataSpace) ∨
      (addr + bytes.length ≤ 2 ^ 32 ∧ (∃ k < bytes.length, (activeComponent s (addr + k)).isSome = true) ∧
        hostWrite p addr bytes s = .fault .hostWriteDuringBusy) ∨
      (addr + bytes.length ≤ 2 ^ 32 ∧ (∀ k < bytes.length, activeComponent s (addr + k) = none) ∧
        ((p.coherent = true ∧
            hostWrite p addr bytes s = .next { s with mem := s.mem.writeBytes addr bytes, response := .written }) ∨
          (p.coherent = false ∧
            hostWrite p addr bytes s = .next { s with
              hostCache := cacheWrite (fun i => s.mem.readWord (wordAddress i)) addr bytes s.hostCache
              response := .written }))) := by
  unfold hostWrite
  by_cases h : 2 ^ 32 < addr + bytes.length
  · exact Or.inl ⟨h, if_pos h⟩
  · right
    rw [if_neg h]
    by_cases hb : (List.range bytes.length).any (fun k => (activeComponent s (addr + k)).isSome) = true
    · rw [if_pos hb]
      exact Or.inl ⟨by omega, by simpa using hb, rfl⟩
    · rw [if_neg hb]
      refine Or.inr ⟨by omega, by simpa [Option.isSome_eq_false_iff] using hb, ?_⟩
      cases hc : p.coherent <;> simp

/-- A word is active when one of its bytes is. -/
theorem wordActive_eq_false (s : State) (i : Nat) :
    wordActive s i = false ↔ ∀ k < 4, activeComponent s (4 * i + k) = none := by
  simp [wordActive, Option.isSome_eq_false_iff]

/-- Everything a write-back of the host's caches can do (20_memory.md R94, R89). -/
theorem cacheClean_cases (addr count : Nat) (s : State) :
    ((∃ e ∈ dirtyIn addr count s.hostCache, wordActive s e.index = true) ∧
        cacheClean addr count s = .fault .hostWriteDuringBusy) ∨
      ((∀ e ∈ dirtyIn addr count s.hostCache, wordActive s e.index = false) ∧
        cacheClean addr count s = .next { s with
          mem := writeBack (dirtyIn addr count s.hostCache) s.mem
          hostCache := cacheCleaned addr count s.hostCache }) := by
  unfold cacheClean
  by_cases hb : (dirtyIn addr count s.hostCache).any (fun e => wordActive s e.index) = true
  · exact Or.inl ⟨by simpa using hb, if_pos hb⟩
  · exact Or.inr ⟨by simpa using hb, if_neg hb⟩

/-- No byte is in an active region while IDLE. -/
theorem activeComponent_idle {s : State} (h : s.engine = .idle) (addr : Nat) : activeComponent s addr = none := by
  simp [activeComponent, busy, h]

/-- While RUN a byte is in no active region exactly when it is in no component's region. -/
theorem activeComponent_run {s : State} (h : s.engine = .run) (addr : Nat) :
    activeComponent s addr = none ↔ ∀ c, inRegion s c addr = false := by
  simp only [activeComponent, busy, h, beq_self_eq_true, if_true, List.find?_eq_none]
  exact ⟨fun hn c => by simpa using hn c (Component.mem_all c), fun hn c _ => by simp [hn c]⟩

/-- A byte read after consecutive bytes are written. -/
theorem Memory.readByte_writeBytes : ∀ (bytes : List Byte) {mem : Memory} {addr : Nat} (x : Nat), mem.wf = true →
    addr + bytes.length ≤ 2 ^ 32 →
    (mem.writeBytes addr bytes).readByte x =
      if addr ≤ x ∧ x < addr + bytes.length then bytes.getD (x - addr) 0#8 else mem.readByte x
  | [], mem, addr, x, _, _ => by
    rw [Memory.writeBytes, if_neg (by simp)]
  | b :: rest, mem, addr, x, hw, hl => by
    rw [List.length_cons] at hl
    rw [Memory.writeBytes,
      Memory.readByte_writeBytes rest x (Memory.wf_writeByte hw b (by omega)) (by omega),
      Memory.readByte_writeByte hw, List.length_cons]
    by_cases h1 : x = addr
    · subst h1
      rw [if_neg (by omega), if_pos rfl, if_pos (by omega), Nat.sub_self]
      rfl
    · by_cases h2 : addr + 1 ≤ x ∧ x < addr + 1 + rest.length
      · rw [if_pos h2, if_pos (by omega), show x - addr = (x - (addr + 1)) + 1 by omega]
        rfl
      · rw [if_neg h2, if_neg h1, if_neg (by omega)]

/-! ### The reset input -/

/-- What a reset inside a write phase leaves is a prefix of the phase's writes (70_reset_and_hazards.md R262). -/
theorem writesBeforeReset_prefix (p : Platform) (landed : Bool) : ∀ (n : Nat) (ws : List (Word × Word)) (mem : Memory),
    ∃ pre post, ws = pre ++ post ∧ writesBeforeReset p landed n ws mem = writeAll pre mem
  | n, [], mem => ⟨[], [], rfl, by cases n <;> rfl⟩
  | n, (addr, v) :: rest, mem => by
    unfold writesBeforeReset
    split
    · exact ⟨[], _, rfl, rfl⟩
    · exact ⟨[], _, rfl, rfl⟩
    · cases landed
      · exact ⟨[], _, rfl, rfl⟩
      · exact ⟨[(addr, v)], rest, rfl, rfl⟩
    · split
      · cases landed
        · exact ⟨[], _, rfl, rfl⟩
        · exact ⟨[(addr, v)], rest, rfl, rfl⟩
      · next m =>
        obtain ⟨pre, post, h1, h2⟩ := writesBeforeReset_prefix p landed m rest (mem.writeWord addr v)
        exact ⟨(addr, v) :: pre, post, by rw [h1]; rfl, h2⟩

/-- The memory that a reset leaves: as it was, with the write that the engine waits for, or with a prefix of the writes of the
step in progress (70_reset_and_hazards.md R262, R263). -/
theorem memoryAtReset_cases (n : Nat) (landed : Bool) (s : State) :
    memoryAtReset p n landed s = s.mem ∨
      (s.engine = .run ∧ ∃ a, s.outstanding = some a ∧ a.kind = .write ∧
        memoryAtReset p n landed s = s.mem.writeWord a.addr a.data) ∨
      (s.engine = .run ∧ s.outstanding = none ∧ ∃ s1 pre post,
        readPhase p (accessOrder (shapeOf s.op).reads (stepSize p s)) s = .done s1 ∧
        stepWrites (shapeOf s.op).writes (stepSize p s) (computePhase (shapeOf s.op).element (stepSize p s) s1) = pre ++ post ∧
        memoryAtReset p n landed s = writeAll pre s.mem) := by
  unfold memoryAtReset
  cases he : s.engine with
  | idle => exact Or.inl rfl
  | run =>
    cases ho : s.outstanding with
    | some a =>
      by_cases hk : (landed && a.kind == .write) = true
      · refine Or.inr (Or.inl ⟨rfl, a, rfl, ?_, by simp only [hk, if_true]⟩)
        simp only [Bool.and_eq_true, beq_iff_eq] at hk
        exact hk.2
      · exact Or.inl (by simp only [hk]; rfl)
    | none =>
      simp only
      unfold memoryMidStep
      simp only
      split
      · exact Or.inl rfl
      · cases hr : readPhase p (accessOrder (shapeOf s.op).reads (stepSize p s)) s with
        | done s1 =>
          obtain ⟨pre, post, h1, h2⟩ := writesBeforeReset_prefix p landed
            (n - (accessOrder (shapeOf s.op).reads (stepSize p s)).length)
            (stepWrites (shapeOf s.op).writes (stepSize p s) (computePhase (shapeOf s.op).element (stepSize p s) s1)) s.mem
          exact Or.inr (Or.inr ⟨trivial, trivial, s1, pre, post, rfl, h1, h2⟩)
        | busError s1 a => exact Or.inl rfl
        | unanswered s1 a => exact Or.inl rfl
        | device a => exact Or.inl rfl

/-- A reset leaves a canonical memory canonical. -/
theorem memoryAtReset_wf (n : Nat) (landed : Bool) {s : State} (h : s.mem.wf = true) :
    (memoryAtReset p n landed s).wf = true := by
  rcases memoryAtReset_cases n landed s with h1 | ⟨-, a, -, -, h1⟩ | ⟨-, -, s1, pre, post, -, -, h1⟩ <;> rw [h1]
  · exact h
  · exact Memory.wf_writeWord h _ _
  · exact writeAll_wf _ h

end Sys2Proof.Machine
end

