-- ==== Sys2Proof/Laws/HostCache.lean ====
section
/-! SUPPORT. The host's caches: what a copy put, written, filled, cleaned or dropped leaves to look up, what a write-back
leaves in memory, and the canonical form. -/

namespace Sys2Proof.Machine

/-! ### Words -/

theorem wordAddress_toNat {i : Nat} (h : i < 2 ^ 30) : (wordAddress i).toNat = 4 * i := by
  rw [wordAddress, BitVec.toNat_ofNat]
  omega

/-- A byte of an aligned word that memory holds. -/
theorem byteOfWord_readWord (mem : Memory) {i k : Nat} (hi : i < 2 ^ 30) (hk : k < 4) :
    byteOfWord (mem.readWord (wordAddress i)) k = mem.readByte (4 * i + k) := by
  unfold Memory.readWord
  rw [byteOfWord_wordOfBytes (fun k => mem.readByte (byteAddress (wordAddress i) k)) hk,
    byteAddress_aligned (by rw [wordAddress_toNat hi]; omega) hk, wordAddress_toNat hi]

theorem wordTouched_iff (addr count i : Nat) :
    wordTouched addr count i = true ↔ addr < 4 * i + 4 ∧ 4 * i < addr + count ∧ 0 < count := by
  simp [wordTouched, and_assoc]

/-- The words touched are listed. -/
theorem mem_touchedWords {addr count i : Nat} : i ∈ touchedWords addr count ↔ wordTouched addr count i = true := by
  rw [wordTouched_iff, touchedWords]
  split
  · next h => simp [h]
  · simp only [List.mem_map, List.mem_range]
    constructor
    · rintro ⟨k, hk, rfl⟩
      omega
    · intro h
      exact ⟨i - addr / 4, by omega, by omega⟩

theorem nodup_touchedWords (addr count : Nat) : (touchedWords addr count).Nodup := by
  unfold touchedWords
  split
  · exact List.nodup_nil
  · exact List.Nodup.map (fun a b h => by simpa using h) List.nodup_range

/-- A byte of an overwritten word. -/
theorem byteOfWord_overwritten (addr : Nat) (bytes : List Byte) (i : Nat) (w : Word) {k : Nat} (hk : k < 4) :
    byteOfWord (overwritten addr bytes i w) k = overwrittenByte addr bytes i w k :=
  byteOfWord_wordOfBytes (overwrittenByte addr bytes i w) hk

/-! ### The canonical form -/

theorem cacheWfFrom_cons (lo : Nat) (e : CachedWord) (rest : List CachedWord) :
    cacheWfFrom lo (e :: rest) = true ↔ lo ≤ e.index ∧ e.index < 2 ^ 30 ∧ cacheWfFrom (e.index + 1) rest = true := by
  simp [cacheWfFrom, and_assoc]

theorem cacheWfFrom_mono {lo hi : Nat} (h : lo ≤ hi) : ∀ {cache : List CachedWord}, cacheWfFrom hi cache = true →
    cacheWfFrom lo cache = true
  | [], _ => rfl
  | e :: rest, hw => by
    rw [cacheWfFrom_cons] at hw ⊢
    exact ⟨by omega, hw.2⟩

/-- Every copy lies inside the data space, at or above the form's bound. -/
theorem cacheWfFrom_mem : ∀ {cache : List CachedWord} {lo : Nat}, cacheWfFrom lo cache = true → ∀ e ∈ cache,
    lo ≤ e.index ∧ e.index < 2 ^ 30
  | f :: rest, lo, hw, e, he => by
    rw [cacheWfFrom_cons] at hw
    rcases List.mem_cons.1 he with rfl | he
    · exact ⟨hw.1, hw.2.1⟩
    · have := cacheWfFrom_mem hw.2.2 e he
      exact ⟨by omega, this.2⟩

/-- What is looked up is a copy held, of the word asked for. -/
theorem cacheLookup_mem : ∀ {cache : List CachedWord} {i : Nat} {e : CachedWord}, cacheLookup cache i = some e →
    e ∈ cache ∧ e.index = i
  | f :: rest, i, e, h => by
    rw [cacheLookup] at h
    split at h
    · next hi => cases h; exact ⟨List.mem_cons_self .., hi.symm⟩
    · exact ⟨List.mem_cons_of_mem _ (cacheLookup_mem h).1, (cacheLookup_mem h).2⟩

/-- Every copy held is the one looked up at its index. -/
theorem cacheLookup_of_mem : ∀ {cache : List CachedWord} {lo : Nat}, cacheWfFrom lo cache = true → ∀ e ∈ cache,
    cacheLookup cache e.index = some e
  | f :: rest, lo, hw, e, he => by
    have hc := (cacheWfFrom_cons lo f rest).1 hw
    rcases List.mem_cons.1 he with rfl | he
    · simp [cacheLookup]
    · have := (cacheWfFrom_mem hc.2.2 e he).1
      rw [cacheLookup, if_neg (by omega)]
      exact cacheLookup_of_mem hc.2.2 e he

/-- No copy lies below the form's bound. -/
theorem cacheLookup_below : ∀ {cache : List CachedWord} {lo i : Nat}, cacheWfFrom lo cache = true → i < lo →
    cacheLookup cache i = none
  | [], _, _, _, _ => rfl
  | e :: rest, lo, i, hw, hi => by
    have hc := (cacheWfFrom_cons lo e rest).1 hw
    rw [cacheLookup, if_neg (by omega)]
    exact cacheLookup_below hc.2.2 (by omega)

/-! ### A copy put -/

/-- A word looked up after a copy is put: the copy at its index, what stood there elsewhere. -/
theorem cacheLookup_cachePut (e : CachedWord) : ∀ (cache : List CachedWord) (i : Nat),
    cacheLookup (cachePut e cache) i = if i = e.index then some e else cacheLookup cache i
  | [], i => rfl
  | f :: rest, i => by
    unfold cachePut
    split
    · rfl
    · split
      · next he =>
        simp only [cacheLookup, ← he]
        split <;> rfl
      · next hne =>
        simp only [cacheLookup, cacheLookup_cachePut e rest i]
        by_cases hi : i = f.index
        · simp [hi, Ne.symm hne]
        · simp [hi]

theorem cacheWfFrom_cachePut {e : CachedWord} (he : e.index < 2 ^ 30) : ∀ {cache : List CachedWord} {lo : Nat},
    lo ≤ e.index → cacheWfFrom lo cache = true → cacheWfFrom lo (cachePut e cache) = true
  | [], lo, hlo, _ => (cacheWfFrom_cons _ _ _).2 ⟨hlo, he, rfl⟩
  | f :: rest, lo, hlo, hw => by
    have hc := (cacheWfFrom_cons lo f rest).1 hw
    unfold cachePut
    split
    · next hlt =>
      exact (cacheWfFrom_cons _ _ _).2 ⟨hlo, he, (cacheWfFrom_cons _ _ _).2 ⟨by omega, hc.2⟩⟩
    · split
      · next heq => exact (cacheWfFrom_cons _ _ _).2 ⟨hlo, he, by rw [heq]; exact hc.2.2⟩
      · exact (cacheWfFrom_cons _ _ _).2 ⟨hc.1, hc.2.1, cacheWfFrom_cachePut he (by omega) hc.2.2⟩

/-! ### The host's writes and reads -/

theorem cacheLookup_foldl_write (fetched : Nat → Word) (addr : Nat) (bytes : List Byte) :
    ∀ (words : List Nat) (cache : List CachedWord) (i : Nat), words.Nodup →
      cacheLookup (words.foldl (cacheWriteWord fetched addr bytes) cache) i =
        if i ∈ words then some ⟨i, overwritten addr bytes i (cachedOr fetched cache i), true⟩ else cacheLookup cache i
  | [], _, _, _ => by simp
  | w :: words, cache, i, hn => by
    obtain ⟨hw, hn⟩ := List.nodup_cons.1 hn
    rw [List.foldl_cons, cacheLookup_foldl_write fetched addr bytes words _ i hn, cacheWriteWord, cachedOr,
      cacheLookup_cachePut]
    by_cases hi : i = w
    · subst hi
      simp [hw]
    · simp [hi, cachedOr]

/-- A word looked up after the host writes bytes: a dirty copy of each word they touch, what stood there elsewhere. -/
theorem cacheLookup_cacheWrite (fetched : Nat → Word) (addr : Nat) (bytes : List Byte) (cache : List CachedWord) (i : Nat) :
    cacheLookup (cacheWrite fetched addr bytes cache) i =
      if wordTouched addr bytes.length i = true then
        some ⟨i, overwritten addr bytes i (cachedOr fetched cache i), true⟩
      else cacheLookup cache i := by
  unfold cacheWrite
  rw [cacheLookup_foldl_write _ _ _ _ _ _ (nodup_touchedWords _ _)]
  simp only [mem_touchedWords]

theorem cacheLookup_foldl_fill (fetched : Nat → Word) : ∀ (words : List Nat) (cache : List CachedWord) (i : Nat),
    cacheLookup (words.foldl (cacheFillWord fetched) cache) i =
      if i ∈ words ∧ cacheLookup cache i = none then some ⟨i, fetched i, false⟩ else cacheLookup cache i
  | [], _, _ => by simp
  | w :: words, cache, i => by
    rw [List.foldl_cons, cacheLookup_foldl_fill fetched words, cacheFillWord]
    cases hc : cacheLookup cache w with
    | some e =>
      by_cases hi : i = w
      · subst hi; simp [hc]
      · simp [hi]
    | none =>
      simp only [cacheLookup_cachePut]
      by_cases hi : i = w
      · subst hi; simp [hc]
      · simp [hi]

/-- A word looked up after the host reads bytes: the copy that stood there, else a clean copy, as fetched, of each word read
of. -/
theorem cacheLookup_cacheFill (fetched : Nat → Word) (addr count : Nat) (cache : List CachedWord) (i : Nat) :
    cacheLookup (cacheFill fetched addr count cache) i =
      if wordTouched addr count i = true ∧ cacheLookup cache i = none then some ⟨i, fetched i, false⟩
      else cacheLookup cache i := by
  unfold cacheFill
  rw [cacheLookup_foldl_fill]
  simp only [mem_touchedWords]

theorem touchedWords_lt {addr count : Nat} (h : addr + count ≤ 2 ^ 32) : ∀ i ∈ touchedWords addr count, i < 2 ^ 30 := by
  intro i hi
  have := (wordTouched_iff _ _ _).1 (mem_touchedWords.1 hi)
  omega

theorem cacheWfFrom_cacheWrite (fetched : Nat → Word) {addr : Nat} {bytes : List Byte} {cache : List CachedWord}
    (h : cacheWfFrom 0 cache = true) (hl : addr + bytes.length ≤ 2 ^ 32) :
    cacheWfFrom 0 (cacheWrite fetched addr bytes cache) = true := by
  have key : ∀ (words : List Nat) (cache : List CachedWord), (∀ i ∈ words, i < 2 ^ 30) → cacheWfFrom 0 cache = true →
      cacheWfFrom 0 (words.foldl (cacheWriteWord fetched addr bytes) cache) = true := by
    intro words
    induction words with
    | nil => exact fun _ _ h => h
    | cons w words ih =>
      intro cache hb h
      exact ih _ (fun i hi => hb i (List.mem_cons_of_mem _ hi))
        (cacheWfFrom_cachePut (hb w (List.mem_cons_self ..)) (Nat.zero_le _) h)
  exact key _ _ (touchedWords_lt hl) h

theorem cacheWfFrom_cacheFill (fetched : Nat → Word) {addr count : Nat} {cache : List CachedWord}
    (h : cacheWfFrom 0 cache = true) (hl : addr + count ≤ 2 ^ 32) :
    cacheWfFrom 0 (cacheFill fetched addr count cache) = true := by
  have key : ∀ (words : List Nat) (cache : List CachedWord), (∀ i ∈ words, i < 2 ^ 30) → cacheWfFrom 0 cache = true →
      cacheWfFrom 0 (words.foldl (cacheFillWord fetched) cache) = true := by
    intro words
    induction words with
    | nil => exact fun _ _ h => h
    | cons w words ih =>
      intro cache hb h
      refine ih _ (fun i hi => hb i (List.mem_cons_of_mem _ hi)) ?_
      unfold cacheFillWord
      split
      · exact h
      · exact cacheWfFrom_cachePut (hb w (List.mem_cons_self ..)) (Nat.zero_le _) h
  exact key _ _ (touchedWords_lt hl) h

/-! ### Maintenance -/

/-- A write-back keeps every copy, clean if its word is among those written back. -/
theorem cacheLookup_cacheCleaned (addr count : Nat) : ∀ (cache : List CachedWord) (i : Nat),
    cacheLookup (cacheCleaned addr count cache) i =
      if wordTouched addr count i = true then (cacheLookup cache i).map fun e => { e with dirty := false }
      else cacheLookup cache i
  | [], i => by simp [cacheCleaned, cacheLookup]
  | e :: rest, i => by
    have ih := cacheLookup_cacheCleaned addr count rest i
    unfold cacheCleaned at ih ⊢
    rw [List.map_cons]
    by_cases hi : i = e.index
    · subst hi
      by_cases ht : wordTouched addr count e.index = true <;> simp [ht, cacheLookup]
    · split <;> simp [cacheLookup, hi, ih]

theorem cacheWfFrom_cacheCleaned (addr count : Nat) : ∀ {cache : List CachedWord} {lo : Nat},
    cacheWfFrom lo cache = true → cacheWfFrom lo (cacheCleaned addr count cache) = true
  | [], _, _ => rfl
  | e :: rest, lo, hw => by
    have hc := (cacheWfFrom_cons lo e rest).1 hw
    unfold cacheCleaned
    rw [List.map_cons]
    have hr := cacheWfFrom_cacheCleaned addr count hc.2.2
    split
    · exact (cacheWfFrom_cons _ _ _).2 ⟨hc.1, hc.2.1, hr⟩
    · exact (cacheWfFrom_cons _ _ _).2 ⟨hc.1, hc.2.1, hr⟩

/-- A dropped copy is gone, and no other one is. -/
theorem cacheLookup_cacheDropped (addr count : Nat) : ∀ (cache : List CachedWord) (i : Nat),
    cacheLookup (cacheDropped addr count cache) i =
      if wordTouched addr count i = true then none else cacheLookup cache i
  | [], i => by simp [cacheDropped, cacheLookup]
  | e :: rest, i => by
    have ih := cacheLookup_cacheDropped addr count rest i
    unfold cacheDropped at ih ⊢
    rw [List.filter_cons]
    by_cases hi : i = e.index
    · subst hi
      by_cases ht : wordTouched addr count e.index = true
      · simp only [ht, Bool.not_true, Bool.false_eq_true, if_false, ih, if_true]
      · simp [ht, cacheLookup]
    · by_cases ht : wordTouched addr count e.index = true
      · simp only [ht, Bool.not_true, Bool.false_eq_true, if_false, ih, cacheLookup, hi]
      · simp only [ht, Bool.not_false, if_true, cacheLookup, ih, hi, if_false]

theorem cacheWfFrom_cacheDropped (addr count : Nat) : ∀ {cache : List CachedWord} {lo : Nat},
    cacheWfFrom lo cache = true → cacheWfFrom lo (cacheDropped addr count cache) = true
  | [], _, _ => rfl
  | e :: rest, lo, hw => by
    have hc := (cacheWfFrom_cons lo e rest).1 hw
    have ih := cacheWfFrom_cacheDropped addr count hc.2.2
    unfold cacheDropped at ih ⊢
    rw [List.filter_cons]
    split
    · exact (cacheWfFrom_cons _ _ _).2 ⟨hc.1, hc.2.1, ih⟩
    · exact cacheWfFrom_mono (by omega) ih

/-- A write-back keeps memory canonical. -/
theorem writeBack_wf : ∀ (copies : List CachedWord) {mem : Memory}, mem.wf = true → (writeBack copies mem).wf = true
  | [], _, h => h
  | e :: rest, _, h => writeBack_wf rest (Memory.wf_writeWord h (wordAddress e.index) e.value)

/-- A byte read after a write-back: the byte of its word's copy if that is dirty and among the words written back, else as
before. -/
theorem readByte_writeBack (addr count : Nat) : ∀ {cache : List CachedWord} {lo : Nat} {mem : Memory} (a : Nat),
    cacheWfFrom lo cache = true → mem.wf = true →
    (writeBack (dirtyIn addr count cache) mem).readByte a =
      match cacheLookup cache (a / 4) with
      | some e =>
        if (e.dirty && wordTouched addr count e.index) = true then byteOfWord e.value (a % 4) else mem.readByte a
      | none => mem.readByte a
  | [], _, _, _, _, _ => rfl
  | e :: rest, lo, mem, a, hw, hm => by
    have hc := (cacheWfFrom_cons lo e rest).1 hw
    have ih := fun {mem : Memory} (hm : mem.wf = true) => readByte_writeBack addr count (mem := mem) a hc.2.2 hm
    have hn := wordAddress_toNat hc.2.1
    unfold dirtyIn at ih ⊢
    rw [List.filter_cons]
    by_cases hd : (e.dirty && wordTouched addr count e.index) = true
    · rw [if_pos hd,
        show ∀ l, writeBack (e :: l) mem = writeBack l (mem.writeWord (wordAddress e.index) e.value) from fun _ => rfl,
        ih (Memory.wf_writeWord hm _ _), cacheLookup, Memory.readByte_writeWord hm (by omega), hn]
      by_cases ha : a / 4 = e.index
      · rw [if_pos ha, if_pos (by omega), cacheLookup_below hc.2.2 (by omega)]
        simp only [hd, if_true, show a - 4 * e.index = a % 4 by omega]
      · rw [if_neg ha, if_neg (by omega)]
    · rw [if_neg hd, ih hm, cacheLookup]
      by_cases ha : a / 4 = e.index
      · rw [if_pos ha, cacheLookup_below hc.2.2 (by omega)]
        simp [hd]
      · rw [if_neg ha]

end Sys2Proof.Machine
end

