-- ==== Sys2Proof/Laws/PerInstr.lean ====
section
/-! SUPPORT. What holds of every command as syntax, one lemma for each constructor: its word has RSVD zero and a mapped OPC
(30_encoding.md R101, R102). -/

namespace Sys2Proof.Laws

/-- A command is well formed, and the 28 high bits of its word are zero and the low four its operation code. -/
def ReservedBitsClear.Statement (i : Instr) : Prop :=
  i.wellFormed = true ∧ (encode i).toNat / 16 = 0 ∧ (encode i).toNat % 16 = i.fields.opc.toNat

theorem ReservedBitsClear.rgb2cmy : ReservedBitsClear.Statement .rgb2cmy := ⟨by decide, by decide, by decide⟩

theorem ReservedBitsClear.cmy2rgb : ReservedBitsClear.Statement .cmy2rgb := ⟨by decide, by decide, by decide⟩

theorem ReservedBitsClear.ycck2rgb : ReservedBitsClear.Statement .ycck2rgb := ⟨by decide, by decide, by decide⟩

theorem ReservedBitsClear.rgb2ycck : ReservedBitsClear.Statement .rgb2ycck := ⟨by decide, by decide, by decide⟩

end Sys2Proof.Laws
end

