-- ==== Sys2Proof/Machine/HostScript.lean ====
section
/-! DEFINITION. The host-script notation of 30_encoding.md R108 to R110: statements, their expansion to register-port
accesses, and a script placed before the machine. A script is what a host does; no step reads it. -/

namespace Sys2Proof.Machine

/-- A decimal of a script, `digits / 10^places`, negated or not. -/
structure ScriptDecimal where
  negative : Bool
  digits : Nat
  places : Nat
  deriving DecidableEq, Repr

/-- `f:<decimal>`: the binary32 pattern nearest the decimal (30_encoding.md R108). -/
def decimalWord (d : ScriptDecimal) : Word := nearestPattern d.negative d.digits (10 ^ d.places)

/-- A value of a script (30_encoding.md R108). -/
inductive ScriptValue where
  /-- A hexadecimal 32-bit number. -/
  | hex (w : Word)
  /-- A decimal integer, negative or not. -/
  | int (n : Int)
  /-- `f:<decimal>`. -/
  | float (d : ScriptDecimal)
  deriving DecidableEq, Repr

/-- The 32-bit value written: an integer modulo 2^32, a decimal as the binary32 pattern nearest it (30_encoding.md R108). -/
def scriptWord : ScriptValue → Word
  | .hex w => w
  | .int n => BitVec.ofInt 32 n
  | .float d => decimalWord d

/-- The statements of 30_encoding.md R108 and the pseudo-instructions of R109. -/
inductive ScriptStmt where
  | wr (r : Reg) (v : ScriptValue)
  | rd (r : Reg)
  | f32 (addr : Nat) (values : List ScriptValue)
  | cmd (i : Instr)
  | setprec (max half : ScriptDecimal)
  | setbuf (c : Component) (base len : ScriptValue)
  | wait
  | clr
  deriving DecidableEq, Repr

/-- `wr REG, value` (30_encoding.md R108). -/
def scriptWrite (p : Platform) (r : Reg) (v : Word) : HostEvent := .portWrite 4 (regAddress p r) v

/-- The little-endian bytes of a list of words, lowest address first (20_memory.md R72). -/
def wordsToBytes (ws : List Word) : List Byte :=
  ws.flatMap fun w => [byteOfWord w 0, byteOfWord w 1, byteOfWord w 2, byteOfWord w 3]

/-- The bytes that a `.f32` line puts at its address. -/
def floatBytes (values : List ScriptValue) : List Byte := wordsToBytes (values.map scriptWord)

/-- The accesses a statement expands to, in order (30_encoding.md R108, R109). `setprec` converts both its decimals. `.f32` is
no access of the block. -/
def expandStmt (p : Platform) : ScriptStmt → List HostEvent
  | .wr r v => [scriptWrite p r (scriptWord v)]
  | .rd r => [.portRead 4 (regAddress p r)]
  | .f32 _ _ => []
  | .cmd i => [scriptWrite p .cmd (encode i)]
  | .setprec max half => [scriptWrite p .maxValue (decimalWord max), scriptWrite p .halfValue (decimalWord half)]
  | .setbuf c base len => [scriptWrite p (.compBase c) (scriptWord base), scriptWrite p (.compLen c) (scriptWord len)]
  | .wait => [.wait]
  | .clr => [scriptWrite p .status 0x0000000E#32]

/-- The statement writes CMD. -/
def writesCommand : ScriptStmt → Bool
  | .cmd _ => true
  | .wr r _ => r == .cmd
  | .rd _ => false
  | .f32 _ _ => false
  | .setprec _ _ => false
  | .setbuf _ _ _ => false
  | .wait => false
  | .clr => false

/-- What the host does so that the data space holds a `.f32` line's values: it writes them and cleans its caches over them
(30_encoding.md R108, 70_reset_and_hazards.md R266). -/
def floatEvents : ScriptStmt → List HostEvent
  | .f32 addr values =>
    [.memWrite addr (floatBytes values), .cacheClean addr (floatBytes values).length,
      .cacheInvalidate addr (floatBytes values).length]
  | .wr _ _ => []
  | .rd _ => []
  | .cmd _ => []
  | .setprec _ _ => []
  | .setbuf _ _ _ => []
  | .wait => []
  | .clr => []

/-- The initial data space with the values of a `.f32` line (30_encoding.md R110). -/
def stmtMemory (mem : Memory) : ScriptStmt → Memory
  | .f32 addr values => mem.writeBytes addr (floatBytes values)
  | .wr _ _ => mem
  | .rd _ => mem
  | .cmd _ => mem
  | .setprec _ _ => mem
  | .setbuf _ _ _ => mem
  | .wait => mem
  | .clr => mem

/-- The events of statements with the `.f32` lines `pending` since the last CMD write: the host does those lines right before
the next CMD write, which is when the data space holds their values (30_encoding.md R108). -/
def scriptEvents (p : Platform) (pending : List HostEvent) : List ScriptStmt → List HostEvent
  | [] => pending
  | st :: rest =>
    if writesCommand st then pending ++ expandStmt p st ++ scriptEvents p [] rest
    else expandStmt p st ++ scriptEvents p (pending ++ floatEvents st) rest

/-- Events with engine turns before them: as many before the n-th as `turns` has at n, none beyond its end. -/
def withTurns : List Nat → List HostEvent → List HostEvent
  | [], events => events
  | _ :: _, [] => []
  | n :: turns, e :: events => List.replicate n .engineTurn ++ e :: withTurns turns events

/-- A script before the machine: its `.f32` lines before the first CMD write are the initial contents of the data space
(30_encoding.md R110), and its accesses, with the later `.f32` lines, the events to come. The spec fixes no place of the
engine's steps between the accesses (60_exceptions.md R233, 93 P16): `turns` says how many of them come before each, so that
every interleaving there is some `turns`. With none, the engine steps only inside `wait` and after the script, and
95_test_vectors.md P5 ends as its outcome (a). DESIGN CHOICE (log 27). -/
def State.withScript (p : Platform) (turns : List Nat) (s : State) (script : List ScriptStmt) : State :=
  let first := script.takeWhile fun st => !writesCommand st
  let later := script.dropWhile fun st => !writesCommand st
  { s with
    mem := first.foldl stmtMemory s.mem
    inputs := withTurns turns (first.flatMap (expandStmt p) ++ scriptEvents p [] later) }

end Sys2Proof.Machine
end

