-- ==== Sys2Proof/Tests/Slice0.lean ====
section
/-! SUPPORT. Tests of the model on values of the spec (95_test_vectors.md and the rules named), and one witness for each
obligation that has hypotheses: concrete states and operands that meet them. -/

namespace Sys2Proof.Tests

set_option Elab.async false

open Sys2Proof.Machine

/-! ### Helpers -/

/-- A coherent platform of lane width `w` with the given regions, the window at 0. -/
def platformOf (w : Nat) (regions : List BusRegion) : Platform := 
  { laneWidth := w, blkBase := 0, regions := regions, coherent := true }

/-- The platform of most tests: W = 2. -/
def p2 : Platform := platformOf 2 []

/-- The same without coherence of the data port with the host's caches. -/
def p2Stale : Platform := { p2 with coherent := false }

/-- The words x0 to x3 at the start of the buffers of the components, in elements 0 and 2. -/
def memoryOf (x : Quad Word) : Memory :=
  [0x1000, 0x1100, 0x1200, 0x1300].zip [x.c0, x.c1, x.c2, x.c3] |>.foldl
    (fun m (a, v) => (m.writeWord (BitVec.ofNat 32 a) v).writeWord (BitVec.ofNat 32 (a + 8)) v) []

/-- An IDLE block after the setup of 95_test_vectors.md L2.6, with L elements. -/
def idleOn (p : Platform) (len : Nat) (x : Quad Word) : State :=
  { State.resetOn p with
    maxValue := 0x437F0000#32
    halfValue := 0x43000000#32
    compBase := ⟨0x1000#32, 0x1100#32, 0x1200#32, 0x1300#32⟩
    compLen := Quad.const (BitVec.ofNat 32 len)
    mem := memoryOf x }

def isNext : Host.Outcome State Fault Refusal → Bool
  | .next _ => true
  | .fault _ => false
  | .refused _ => false

/-- The next state of an outcome, and the given state when it has none. -/
def nextState (s : State) : Host.Outcome State Fault Refusal → State
  | .next t => t
  | .fault _ => s
  | .refused _ => s

theorem eq_next (s : State) {o : Host.Outcome State Fault Refusal} (h : isNext o = true) : o = .next (nextState s o) := by
  cases o <;> simp_all [isNext, nextState]

/-- The grey element of 42_ycck_to_rgb.md R192, Y = Cb = Cr = 128 and K = 255. -/
def grey : Quad Word := ⟨0x43000000#32, 0x43000000#32, 0x43000000#32, 0x437F0000#32⟩

def idle3 : State := idleOn p2 3 grey

/-- The state after the accept of a command. -/
def acceptedOf (p : Platform) (i : Instr) (s : State) : State := nextState s (execOn p i s)

/-- A command running at element 0 of L. -/
def runningOn (p : Platform) (len : Nat) (i : Instr) (x : Quad Word) : State := acceptedOf p i (idleOn p len x)

/-- A command running with L = 1 and W = 2: one scalar step is left. -/
def running1 (i : Instr) (x : Quad Word) : State := runningOn p2 1 i x

/-- The same at the platform of Config. -/
def runningConfig (i : Instr) : State := runningOn Config.platform 1 i grey

/-- A command running with L = 3 and W = 2: one lane step and one scalar step are left. -/
def running3 (i : Instr) : State := runningOn p2 3 i grey

def stepped (p : Platform) (s : State) : State := nextState s (stepOn p s)

/-- The next state at the platform of Config. -/
def steppedAtConfig (s : State) : State := nextState s (step s)

def withEvent (s : State) (e : HostEvent) : State := { s with inputs := [e] }

/-- The words of element 0 in components 0 to 2. -/
def outputs (s : State) : Word × Word × Word :=
  (s.mem.readWord 0x1000#32, s.mem.readWord 0x1100#32, s.mem.readWord 0x1200#32)

/-- STATUS after a CMD write. -/
def statusAfter (w : Word) (s : State) : Word := statusWord (nextState s (commandWrite p2 w s))

/-! ### WellFormed: a term that each check refuses -/

theorem test_wellFormed_refuses_reserved_bits : CommandFields.reservedClear { opc := 3#4, rsvd := 1#28 } = false := by decide

theorem test_wellFormed_refuses_reserved_opcodes :
    CommandFields.opcodeMapped { opc := 0#4, rsvd := 0#28 } = false ∧
      CommandFields.opcodeMapped { opc := 5#4, rsvd := 0#28 } = false ∧
      CommandFields.wellFormed { opc := 15#4, rsvd := 0#28 } = false := by decide

theorem test_wellFormed_refuses_lane_widths :
    (platformOf 0 []).laneWidthInRange = false ∧ (platformOf 65536 []).laneWidthInRange = false ∧
      (platformOf 65535 []).laneWidthInRange = true := by decide

theorem test_wellFormed_refuses_misaligned_window :
    Platform.windowAligned { platformOf 1 [] with blkBase := 2 } = false := by decide

/-! ### Decoding: words written out bit by bit from 30_encoding.md R101 and R102, RSVD[31:4] then OPC[3:0] -/

theorem test_decode_rgb2cmy : decode 0b00000000000000000000000000000001#32 = .ok .rgb2cmy := by decide

theorem test_decode_cmy2rgb : decode 0b00000000000000000000000000000010#32 = .ok .cmy2rgb := by decide

theorem test_decode_ycck2rgb : decode 0b00000000000000000000000000000011#32 = .ok .ycck2rgb := by decide

theorem test_decode_rgb2ycck : decode 0b00000000000000000000000000000100#32 = .ok .rgb2ycck := by decide

theorem test_decode_bytes : decodeBytes [0x03#8, 0x00#8, 0x00#8, 0x00#8, 0xAA#8] = .ok (.ycck2rgb, [0xAA#8]) := by decide

theorem test_decode_refuses :
    decode 0x80000001#32 = .error (.reservedBitsSet 0x8000000#28) ∧ decode 0x0000000F#32 = .error (.reservedOpcode 0xF#4) ∧
      decodeBytes [0x01#8, 0x00#8, 0x00#8] = .error .truncated := by decide

theorem test_decodeTableWord : decodeTableWord 32 4 = some .rgb2ycck ∧ decodeTableWord 32 0x13 = none := by decide

/-! ### The data space keeps its canonical form -/

theorem test_memory_little_endian :
    Memory.writeWord [] 0x10#32 0x437F0001#32 = [(0x10, 0x01#8), (0x12, 0x7F#8), (0x13, 0x43#8)] := by decide

theorem test_memory_zero_removes_entries : Memory.writeWord [(0x10, 1#8), (0x14, 2#8)] 0x10#32 0#32 = [(0x14, 2#8)] := by decide

/-! ### The four commands: the accept from withFetchWord, and one step on a vector of 95_test_vectors.md -/

theorem test_rgb2cmy_accepts : statusWord (steppedAtConfig (idle3.withFetchWord 32 1)) = 0x00000001#32 := by decide +kernel

/-- L2.2: 100.25, 300, -5 give 154.75, -45, 260. -/
theorem test_rgb2cmy_step :
    outputs (stepped p2 (running1 .rgb2cmy ⟨0x42C88000#32, 0x43960000#32, 0xC0A00000#32, 0x437F0000#32⟩)) =
      (0x431AC000#32, 0xC2340000#32, 0x43820000#32) := by decide +kernel

theorem test_cmy2rgb_accepts : (steppedAtConfig (idle3.withFetchWord 32 2)).op = .cmy2rgb := by decide +kernel

/-- L2.2: 154.75, 255, -inf give 100.25, +0, +inf. -/
theorem test_cmy2rgb_step :
    outputs (stepped p2 (running1 .cmy2rgb ⟨0x431AC000#32, 0x437F0000#32, 0xFF800000#32, 0#32⟩)) =
      (0x42C88000#32, 0x00000000#32, 0x7F800000#32) := by decide +kernel

/-- L2.6 A15: BAD_KSCALE, K_SCALE reads +inf. -/
theorem test_ycck2rgb_checks_kScale :
    let t := steppedAtConfig ({ idle3 with maxValue := 0x1F800000#32 }.withFetchWord 32 3)
    statusWord t = 0x00000504#32 ∧ readRegister p2 .kScale t = 0x7F800000#32 := by decide +kernel

/-- L2.3: (100, 150, 200, 128). -/
theorem test_ycck2rgb_step :
    outputs (stepped p2 (running1 .ycck2rgb ⟨0x42C80000#32, 0x43160000#32, 0x43480000#32, 0x43000000#32⟩)) =
      (0x3DD9B28B#32, 0x3ED7AE85#32, 0x3E69D2BC#32) := by decide +kernel

theorem test_rgb2ycck_accepts : (steppedAtConfig (idle3.withFetchWord 32 4)).op = .rgb2ycck := by decide +kernel

/-- L2.4: (200, 100, 50). -/
theorem test_rgb2ycck_step :
    outputs (stepped p2 (running1 .rgb2ycck ⟨0x43480000#32, 0x42C80000#32, 0x42480000#32, 0x437F0000#32⟩)) =
      (0x42F86666#32, 0x42AC40B8#32, 0x433610CB#32) := by decide +kernel

/-! ### The accept: rows of 95_test_vectors.md L2.6 -/

theorem test_accept_illegal_before_lengths :
    statusAfter 0x13#32 { idle3 with compLen := ⟨4#32, 4#32, 4#32, 3#32⟩ } = 0x00000104#32 := by decide +kernel

theorem test_accept_lengths : statusAfter 1#32 { idle3 with compLen := ⟨4#32, 4#32, 4#32, 3#32⟩ } = 0x00000204#32 := by
  decide +kernel

theorem test_accept_negative_zero_max :
    statusAfter 2#32 { idle3 with maxValue := 0x80000000#32, compLen := Quad.const 0#32 } = 0x00000304#32 := by
  decide +kernel

theorem test_accept_half :
    statusAfter 4#32 { idle3 with halfValue := 0x7F800000#32 } = 0x00000404#32 ∧
      statusAfter 4#32 { idle3 with halfValue := 0xC3000000#32 } = 0x00000001#32 := by decide +kernel

theorem test_accept_kScale_only_for_ycck2rgb :
    statusAfter 3#32 { idle3 with maxValue := 0x60AD78EC#32 } = 0x00000504#32 ∧
      statusAfter 1#32 { idle3 with maxValue := 0x60AD78EC#32 } = 0x00000001#32 := by decide +kernel

theorem test_accept_misaligned_before_overlap :
    statusAfter 1#32 { idle3 with compBase := ⟨0x1000#32, 0x1002#32, 0x1204#32, 0x1300#32⟩ } = 0x00000604#32 := by
  decide +kernel

theorem test_accept_range :
    statusAfter 1#32 { idle3 with compBase.c0 := 0xFFFFFFF0#32, compLen := Quad.const 4#32 } = 0x00000001#32 ∧
      statusAfter 1#32 { idle3 with compBase.c0 := 0xFFFFFFF0#32, compLen := Quad.const 5#32 } = 0x00000704#32 := by
  decide +kernel

theorem test_accept_overlap :
    statusAfter 1#32 { idle3 with compBase.c1 := 0x1010#32, compLen := Quad.const 4#32 } = 0x00000001#32 ∧
      statusAfter 1#32 { idle3 with compBase.c1 := 0x100C#32, compLen := Quad.const 4#32 } = 0x00000804#32 := by
  decide +kernel

/-! ### Registers: rows of 95_test_vectors.md L2.8, and R236 -/

theorem test_status_clears_error_alone :
    let s := { idle3 with err := true, errCode := .bus, errAddr := 0x4108#32 }
    statusWord (stepped p2 (withEvent s (.portWrite 4 0x0C 0x4#32))) = 0#32 ∧
      statusWord (stepped p2 (withEvent s (.portWrite 4 0x0C 0x2#32))) = 0x00000904#32 := by decide +kernel

theorem test_overrun :
    let t := stepped p2 (withEvent (running3 .rgb2cmy) (.portWrite 4 0x08 0x2#32))
    statusWord t = 0x00000009#32 ∧ t.lastCmd = 1#32 := by decide +kernel

theorem test_narrow_read_is_slave_error : (stepped p2 (withEvent idle3 (.portRead 2 0x0C))).response = .slaveError := by
  decide +kernel

theorem test_param_reads_lane_width : readRegister Config.platform .param State.reset = 0x00010008#32 := by decide

theorem test_irq_enables :
    irq { idle3 with done := true, irqEn := 1#3 } = true ∧ irq { idle3 with done := true, irqEn := 2#3 } = false := by decide

/-! ### Numbers: rows of 95_test_vectors.md L2.1 and L2.2 -/

theorem test_roundTA :
    roundTA 0x4AFFFFFF#32 = 0x4B000000#32 ∧ roundTA 0x4B000001#32 = 0x4B000001#32 ∧ roundTA 0xBFC00000#32 = 0xC0000000#32 := by
  decide +kernel

theorem test_kScale_rounds_twice :
    fmul 0x1FEC1E4A#32 0x1FEC1E4A#32 = 0x006CE3EE#32 ∧ kScaleOf 0x1FEC1E4A#32 = 0x7E96769A#32 := by decide +kernel

theorem test_nan_payload_lost : fsub 0x437F0000#32 0xFFC00001#32 = 0x7FC00000#32 := by decide +kernel

/-- 00_scope.md R21: each constant is the binary32 value nearest its decimal. -/
theorem test_constants :
    [C_1402, C_0344136, C_0714136, C_1772, C_0299, C_0587, C_0114] =
        [nearestPattern false 1402 (10 ^ 3), nearestPattern false 344136 (10 ^ 6), nearestPattern false 714136 (10 ^ 6),
          nearestPattern false 1772 (10 ^ 3), nearestPattern false 299 (10 ^ 3), nearestPattern false 587 (10 ^ 3),
          nearestPattern false 114 (10 ^ 3)] ∧
      [C_0168736, C_0331264, C_05, C_0418688, C_0081312, ONE] =
        [nearestPattern false 168736 (10 ^ 6), nearestPattern false 331264 (10 ^ 6), nearestPattern false 5 10,
          nearestPattern false 418688 (10 ^ 6), nearestPattern false 81312 (10 ^ 6), nearestPattern false 1 1] := by
  decide +kernel

/-! ### Scripts (30_encoding.md R108, R109) -/

theorem test_setprec_expands :
    expandStmt p2 (.setprec ⟨false, 255, 0⟩ ⟨false, 1285, 1⟩) =
      [.portWrite 4 0x14 0x437F0000#32, .portWrite 4 0x18 0x43008000#32] := by decide +kernel

theorem test_script_integers : scriptWord (.int (-1)) = 0xFFFFFFFF#32 ∧ scriptWord (.int 255) = 0x000000FF#32 := by decide

/-- A `.f32` line before the first CMD write is memory's initial contents; one after it stands before the next CMD write. -/
theorem test_script_floats_stand_before_the_next_command :
    let one : ScriptValue := .float ⟨false, 1, 0⟩
    let s := State.withScript p2 [] idle3 [.f32 0x2000 [one], .cmd .rgb2cmy, .f32 0x2004 [one], .wait, .cmd .cmy2rgb]
    s.mem.readWord 0x2000#32 = 0x3F800000#32 ∧ s.mem.readWord 0x2004#32 = 0#32 ∧
      s.inputs = [.portWrite 4 0x08 1#32, .wait, .memWrite 0x2004 [0#8, 0#8, 0x80#8, 0x3F#8], .cacheClean 0x2004 4,
        .cacheInvalidate 0x2004 4, .portWrite 4 0x08 2#32] := by decide +kernel

theorem test_clr_and_cmd_expand :
    expandStmt p2 .clr = [.portWrite 4 0x0C 0x0000000E#32] ∧
      expandStmt p2 (.cmd .ycck2rgb) = [.portWrite 4 0x08 3#32] := by decide

/-- Without engine turns the second command of 95_test_vectors.md P5 comes during the first (outcome a), with three after it
(outcome b). -/
theorem test_script_engine_turns :
    let script := [ScriptStmt.cmd .rgb2cmy, .cmd .cmy2rgb]
    (State.withScript p2 [] idle3 script).inputs = [.portWrite 4 0x08 1#32, .portWrite 4 0x08 2#32] ∧
      (State.withScript p2 [0, 3] idle3 script).inputs =
        [.portWrite 4 0x08 1#32, .engineTurn, .engineTurn, .engineTurn, .portWrite 4 0x08 2#32] := by decide

/-! ### Witnesses of the hypotheses: stepping and the accept -/

/-- `s` with a 32-bit register-port write at offset `off` of a window at 0 as its next event. -/
def withWrite (s : State) (off : Nat) (v : Word) : State := withEvent s (.portWrite 4 off v)

theorem witness_StepRunsDecodedCommand :
    ∀ p ∈ [p2, Config.platform],
      let s := withEvent (idleOn p 3 grey) (.portWrite 4 (p.blkBase + 0x08) 4#32)
      s.inputs = [.portWrite 4 (p.blkBase + 0x08) 4#32] ∧ s.resetHeld = false ∧ s.engine = .idle ∧
        decode 4#32 = .ok .rgb2ycck := by decide +kernel

theorem witness_EngineTurnRunsTheCommand :
    let s := running3 .ycck2rgb
    let t := withEvent s .engineTurn
    (s.inputs = [] ∧ s.engine = .run ∧ s.resetHeld = false) ∧
      (t.inputs = [.engineTurn] ∧ t.engine = .run ∧ t.resetHeld = false) ∧
      (idle3.inputs = [] ∧ idle3.engine = .idle) ∧ { idle3 with resetHeld := true }.resetHeld = true := by decide +kernel

/-- The hypotheses do not name the platform, so they hold at Config's too. -/
theorem witness_AcceptStartsTheCommand :
    ∀ i ∈ Instr.all, ∀ len ∈ [1, 3, 64], let s := idleOn p2 len grey
      s.engine = .idle ∧ contextAccepted i s = true ∧ buffersAccepted s = true ∧ s.compLen.c0 ≠ 0#32 := by decide +kernel

theorem witness_ZeroLengthCompletesAtOnce :
    let s := idleOn p2 0 grey
    let bad := { s with maxValue := 0x80000000#32 }
    (∀ i ∈ Instr.all, s.engine = .idle ∧ s.compLen.c0 = 0#32 ∧ contextAccepted i s = true) ∧
      bad.engine = .idle ∧ bad.compLen.c0 = 0#32 ∧ contextAccepted .cmy2rgb bad = false := by decide +kernel

/-- The conditions of CheckRecordsTheFirstFailure but for `overlap`, in its order. -/
def failures (w : Word) (s : State) : List Bool :=
  let k := fdiv ONE (fmul s.maxValue s.maxValue)
  let len := s.compLen.c0.toNat
  [decide (w.toNat / 16 ≠ 0 ∨ ¬ (w.toNat % 16 = 1 ∨ w.toNat % 16 = 2 ∨ w.toNat % 16 = 3 ∨ w.toNat % 16 = 4)),
    decide (¬ (s.compLen.c0 = s.compLen.c1 ∧ s.compLen.c0 = s.compLen.c2 ∧ s.compLen.c0 = s.compLen.c3)),
    decide (¬ (isFinite s.maxValue = true ∧ isPositive s.maxValue = true)), decide (¬ isFinite s.halfValue = true),
    decide (w.toNat % 16 = 3 ∧ ¬ (isFinite k = true ∧ isPositive k = true)),
    decide (0 < len) && Component.all.any fun c => (s.compBase.get c).toNat % 4 != 0,
    decide (0 < len) && Component.all.any fun c => decide (2 ^ 32 < (s.compBase.get c).toNat + 4 * len)]

theorem witness_CheckRecordsTheFirstFailure :
    idle3.engine = .idle ∧ (failures 5#32 idle3).head? = some true ∧
      failures 1#32 { idle3 with compLen := ⟨3#32, 3#32, 3#32, 4#32⟩ } = [false, true, false, false, false, false, false] ∧
      failures 1#32 { idle3 with maxValue := 0#32 } = [false, false, true, false, false, false, false] ∧
      failures 1#32 { idle3 with halfValue := 0x7FC00000#32 } = [false, false, false, true, false, false, false] ∧
      failures 3#32 { idle3 with maxValue := 0x5F800000#32 } = [false, false, false, false, true, false, false] ∧
      failures 1#32 { idle3 with compBase.c3 := 0x1301#32 } = [false, false, false, false, false, true, false] ∧
      failures 1#32 { idle3 with compBase.c3 := 0xFFFFFFF8#32 } = [false, false, false, false, false, false, true] := by
  decide +kernel

/-- Two bases one byte short of 4 * L apart, at the byte 0x1008 that both regions hold. -/
theorem witness_CheckRecordsTheFirstFailure_overlap :
    let s := { idle3 with compBase.c1 := 0x1008#32 }
    failures 1#32 s = [false, false, false, false, false, false, false] ∧
      ((s.compBase.get .component0).toNat ≤ 0x1008 ∧ 0x1008 < (s.compBase.get .component0).toNat + 4 * s.compLen.c0.toNat) ∧
      ((s.compBase.get .component1).toNat ≤ 0x1008 ∧ 0x1008 < (s.compBase.get .component1).toNat + 4 * s.compLen.c0.toNat) := by
  decide +kernel

/-- Two bases exactly 4 * L apart: no byte is in both regions. -/
theorem witness_CheckRecordsTheFirstFailure_none :
    let s := { idle3 with compBase.c1 := 0x100C#32 }
    failures 1#32 s = [false, false, false, false, false, false, false] ∧
      ¬ ∃ c d, c ≠ d ∧ ∃ a : Nat,
        ((s.compBase.get c).toNat ≤ a ∧ a < (s.compBase.get c).toNat + 4 * s.compLen.c0.toNat) ∧
          ((s.compBase.get d).toNat ≤ a ∧ a < (s.compBase.get d).toNat + 4 * s.compLen.c0.toNat) := by
  refine ⟨by decide +kernel, ?_⟩
  rintro ⟨c, d, hne, a, h⟩
  cases c <;> cases d <;> simp [idle3, idleOn, State.resetOn, Quad.get, Quad.const] at hne h <;> omega

theorem witness_RejectionLeavesEverythingElse :
    idle3.engine = .idle ∧ (nextState idle3 (commandWrite p2 1#32 idle3)).errCode = .none ∧
      (nextState idle3 (commandWrite p2 0#32 idle3)).errCode ≠ .none := by decide +kernel

theorem witness_IllegalWordIsRejected :
    ∀ n ∈ [0x00000000, 0x00000005, 0x00000011, 0xFFFFFFFF], let w := BitVec.ofNat 32 n
      let s := withWrite idle3 0x08 w
      let t := withWrite (running3 .rgb2cmy) 0x08 w
      (∀ i ∈ Instr.all, w ≠ encode i) ∧
        (s.inputs = [.portWrite 4 (p2.blkBase + 0x08) w] ∧ s.resetHeld = false ∧ s.engine = .idle) ∧
        (t.inputs = [.portWrite 4 (p2.blkBase + 0x08) w] ∧ t.resetHeld = false ∧ t.engine = .run) := by decide +kernel

theorem witness_CommandWriteDuringRunIsDropped :
    let s := withWrite (running3 .ycck2rgb) 0x08 0xFFFFFFFF#32
    s.inputs = [.portWrite 4 (p2.blkBase + 0x08) 0xFFFFFFFF#32] ∧ s.resetHeld = false ∧ s.engine = .run := by
  decide +kernel

theorem witness_KScaleFollowsMaxValue :
    idle3.engine = .idle ∧ (0 < 0x1F800000 ∧ 0x1F800000 ≤ 0x1F800000) ∧ (0 < 0x1A000000 ∧ 0x1A000000 ≤ 0x1A000000) ∧
      (∀ u ∈ [0x1F800001, 0x5EFFFFFF], 0x1F800000 < u ∧ u < 0x5F000000) ∧
      (∀ u ∈ [0x5F000001, 0x5F7FFFFF], 0x5F000000 < u ∧ u < 0x5F800000) ∧
      (∀ u ∈ [0x5F800000, 0x7F800000], 0x5F800000 ≤ u ∧ u ≤ 0x7F800000) ∧ isNaN 0x7F800001#32 = true := by decide

/-- kScale at the boundary values of its clauses (40_command_engine.md R134). -/
theorem test_kScale_boundaries :
    [0x1F800000#32, 0x1A000000#32, 0x5EFFFFFF#32, 0x5F000001#32, 0x5F7FFFFF#32, 0x5F800000#32, 0x7F800000#32].map kScaleOf =
      [0x7F800000#32, 0x7F800000#32, 0x00800001#32, 0x007FFFFE#32, 0x00200000#32, 0#32, 0#32] := by decide +kernel

/-! ### Witnesses: the commands' steps -/

theorem witness_ComplementStepsComplement :
    ∀ i ∈ [Instr.rgb2cmy, .cmy2rgb],
      ∀ x ∈ [(p2, running1 i grey), (p2, running3 i), (Config.platform, runningConfig i)],
      legal x.1 x.2 = true ∧ canStep x.2 = true ∧
        stepAccessesOk x.1 [.component0, .component1, .component2] [.component0, .component1, .component2] x.2 = true := by
  decide +kernel

theorem witness_Ycck2rgbStepConverts :
    ∀ x ∈ [(p2, running1 .ycck2rgb grey), (p2, running3 .ycck2rgb), (Config.platform, runningConfig .ycck2rgb)],
      legal x.1 x.2 = true ∧ canStep x.2 = true ∧
        stepAccessesOk x.1 [.component0, .component1, .component2, .component3] [.component0, .component1, .component2]
          x.2 = true := by
  decide +kernel

theorem witness_Rgb2ycckStepConverts :
    ∀ x ∈ [(p2, running1 .rgb2ycck grey), (p2, running3 .rgb2ycck), (Config.platform, runningConfig .rgb2ycck)],
      legal x.1 x.2 = true ∧ canStep x.2 = true ∧
        stepAccessesOk x.1 [.component0, .component1, .component2] [.component0, .component1, .component2] x.2 = true := by
  decide +kernel

theorem witness_CompletionSetsDone :
    ∀ i ∈ Instr.all, let s := running1 i grey
      legal p2 s = true ∧ buffersConsistent s = true ∧ canStep s = true ∧
        stepAccessesOk p2 (shapeOf s.op).reads (shapeOf s.op).writes s = true ∧
        s.progress.toNat + stepSize p2 s = s.sLen.toNat := by decide +kernel

theorem witness_ElementAddressesDoNotWrap :
    let s := running3 .ycck2rgb
    legal p2 s = true ∧ busy s = true ∧ 0 < s.sLen.toNat ∧ 2 < s.sLen.toNat ∧
      execOn p2 s.op s = .next (nextState s (execOn p2 s.op s)) :=
  ⟨by decide +kernel, by decide +kernel, by decide +kernel, by decide +kernel, eq_next _ (by decide +kernel)⟩

theorem witness_AccessesGoComponentByComponent : 0 < 1 ∧ 0 < 65535 := by decide

theorem witness_ProgressAdvancesByLaneOrOne :
    let s := running3 .rgb2ycck
    let t := stepped p2 s
    (∀ u ∈ [s, t], legal p2 u = true ∧ canStep u = true ∧
        stepAccessesOk p2 (shapeOf u.op).reads (shapeOf u.op).writes u = true) ∧
      s.progress.toNat < s.sNW.toNat ∧ t.sNW.toNat ≤ t.progress.toNat := by decide +kernel

/-! ### Witnesses: the bus -/

/-- W = 2, and the bus answers accesses of component1's second word as given. -/
def busPlatform (onRead onWrite : BusAnswer) : Platform := platformOf 2 [⟨0x1104, 4, onRead, onWrite⟩]

/-- A command running there with L = 3. -/
def runningBus (onRead onWrite : BusAnswer) : State := runningOn (busPlatform onRead onWrite) 3 .ycck2rgb grey

theorem witness_ReadBusErrorAborts :
    let p := busPlatform .error .ok
    let s := runningBus .error .ok
    canStep s = true ∧
      accessOrder (shapeOf .ycck2rgb).reads (stepSize p s) =
        [(.component0, 0), (.component0, 1), (.component1, 0)] ++ (.component1, 1) ::
          [(.component2, 0), (.component2, 1), (.component3, 0), (.component3, 1)] ∧
      (∀ x ∈ [(Component.component0, 0), (.component0, 1), (.component1, 0)],
        busAnswer p (elementAddress s x.1 (s.progress.toNat + x.2)) .read = .ok) ∧
      busOk p (elementAddress s .component1 (s.progress.toNat + 1)) .read = false := by decide +kernel

theorem witness_WriteBusErrorAborts :
    let p := busPlatform .ok .error
    let s := runningBus .ok .error
    legal p s = true ∧ canStep s = true ∧ stepAccessesOk p (shapeOf .ycck2rgb).reads [] s = true ∧
      accessOrder (shapeOf .ycck2rgb).writes (stepSize p s) =
        [(.component0, 0), (.component0, 1), (.component1, 0)] ++ (.component1, 1) :: [(.component2, 0), (.component2, 1)] ∧
      (∀ x ∈ [(Component.component0, 0), (.component0, 1), (.component1, 0)],
        busAnswer p (elementAddress s x.1 (s.progress.toNat + x.2)) .write = .ok) ∧
      busOk p (elementAddress s .component1 (s.progress.toNat + 1)) .write = false := by decide +kernel

/-- The first read of the step is never answered; in another, the fourth write. -/
theorem witness_UnansweredAccessStaysBusy :
    (let p := platformOf 2 [⟨0x1000, 4, .never, .ok⟩]
     let s := runningOn p 3 .rgb2cmy grey
     canStep s = true ∧
      accessOrder (shapeOf .rgb2cmy).reads (stepSize p s) =
        [] ++ (.component0, 0) ::
          [(.component0, 1), (.component1, 0), (.component1, 1), (.component2, 0), (.component2, 1)] ∧
      busAnswer p (elementAddress s .component0 (s.progress.toNat + 0)) .read = .never) ∧
    (let p := busPlatform .ok .never
     let s := runningBus .ok .never
     canStep s = true ∧ legal p s = true ∧ stepAccessesOk p (shapeOf .ycck2rgb).reads [] s = true ∧
      accessOrder (shapeOf .ycck2rgb).writes (stepSize p s) =
        [(.component0, 0), (.component0, 1), (.component1, 0)] ++ (.component1, 1) :: [(.component2, 0), (.component2, 1)] ∧
      (∀ x ∈ [(Component.component0, 0), (.component0, 1), (.component1, 0)],
        busAnswer p (elementAddress s x.1 (s.progress.toNat + x.2)) .write = .ok) ∧
      busAnswer p (elementAddress s .component1 (s.progress.toNat + 1)) .write = .never) := by decide +kernel

/-- An abort by a write reports the failing address and keeps PROGRESS (60_exceptions.md R231). -/
theorem test_write_bus_error :
    let t := stepped (busPlatform .ok .error) (runningBus .ok .error)
    statusWord t = 0x00000904#32 ∧ t.errAddr = 0x1104#32 ∧ t.progress = 0#32 ∧
      outputs t = (0x3EFEFEFE#32, 0x3EFEFEFE#32, 0x43000000#32) := by
  decide +kernel

/-! ### Witnesses: the register window -/

theorem witness_RegisterReadsAnswerTheTable :
    (∀ off ∈ [0x00, 0x44, 0x48, 0xFC], let s := withEvent (running3 .rgb2cmy) (.portRead 4 off)
      off < 256 ∧ off % 4 = 0 ∧ s.resetHeld = false ∧ s.inputs = [.portRead 4 (p2.blkBase + off)]) ∧
      ∀ w ∈ [1, 65535], 1 ≤ (platformOf w []).laneWidth ∧ (platformOf w []).laneWidth ≤ 65535 := by decide +kernel

theorem witness_StatusWriteClearsByBits :
    ∀ n ∈ [0x00000000, 0x00000002, 0x00000004, 0x00000008, 0xFFFFFFFF], let v := BitVec.ofNat 32 n
      let s := withWrite (running3 .rgb2cmy) 0x0C v
      s.inputs = [.portWrite 4 (p2.blkBase + 0x0C) v] ∧ s.resetHeld = false := by decide +kernel

theorem witness_RegisterWritesStoreTheirValue :
    ∀ off ∈ [0x10, 0x14, 0x18, 0x20, 0x24, 0x28, 0x2C, 0x30, 0x34, 0x38, 0x3C],
      let s := withWrite (running3 .rgb2cmy) off 0xFFFFFFFF#32
      s.resetHeld = false ∧ s.inputs = [.portWrite 4 (p2.blkBase + off) 0xFFFFFFFF#32] := by decide +kernel

theorem witness_ReservedAndReadOnlyWritesIgnored :
    (∀ off ∈ [0x00, 0x04, 0x1C, 0x40, 0x44, 0x48, 0xFC], let s := withWrite idle3 off 1#32
      s.resetHeld = false ∧ off < 256 ∧ off % 4 = 0 ∧ (off ∈ [0x00, 0x04, 0x1C, 0x40, 0x44] ∨ 0x48 ≤ off) ∧
        s.inputs = [.portWrite 4 (p2.blkBase + off) 1#32]) ∧
      ∀ off ∈ [0x48, 0xFC], let s := withEvent idle3 (.portRead 4 off)
        s.resetHeld = false ∧ 0x48 ≤ off ∧ off < 256 ∧ off % 4 = 0 ∧
          s.inputs = [.portRead 4 (p2.blkBase + off)] := by decide +kernel

theorem witness_NarrowOrMisalignedAccessIsSlaveError :
    ∀ x ∈ [(1, 0), (2, 0x0C), (4, 1), (4, 0xFF), (8, 0xF8)],
      let r := withEvent idle3 (.portRead x.1 x.2)
      let w := withEvent idle3 (.portWrite x.1 x.2 0#32)
      x.2 < 256 ∧ (x.1 ≠ 4 ∨ x.2 % 4 ≠ 0) ∧ r.resetHeld = false ∧ r.inputs = [.portRead x.1 (p2.blkBase + x.2)] ∧
        w.resetHeld = false ∧ w.inputs = [.portWrite x.1 (p2.blkBase + x.2) 0#32] := by decide +kernel

theorem witness_RegisterWritesDoNotReachTheRunningCommand :
    let s := running3 .ycck2rgb
    (Reg.maxValue ∈ [Reg.irqEn, .maxValue, .halfValue]) ∧ (∃ c, Reg.compBase .component3 = .compBase c) ∧
      (∃ c, Reg.compLen .component0 = .compLen c) ∧ s.engine = .run ∧
      execOn p2 s.op s = .next (nextState s (execOn p2 s.op s)) :=
  ⟨by decide, ⟨_, rfl⟩, ⟨_, rfl⟩, by decide +kernel, eq_next _ (by decide +kernel)⟩

theorem witness_WaitPollsStatus :
    ∀ s ∈ [withEvent idle3 .wait, withEvent (running3 .rgb2cmy) .wait], s.inputs = [.wait] ∧ s.resetHeld = false := by
  decide +kernel

/-! ### Witnesses: rules of the whole machine -/

/-- A cache holding a dirty copy of the word at 0x2000, which memory has as 0, and a clean one of the word at 0x1000, stale. -/
def staleCache : List CachedWord := [⟨0x400, 0x99999999#32, false⟩, ⟨0x800, 0x00000700#32, true⟩]

/-- The states from which the next step shows each outcome of the rules below: completion, abort, reset inside a step, an
accept, an overrun, a STATUS write, a host write, and without coherence a write-back and a read. -/
def samples : List (Platform × State) :=
  [(p2, running1 .ycck2rgb grey), (busPlatform .ok .error, runningBus .ok .error),
    (p2, withEvent (running3 .rgb2cmy) (.assertReset 7 true)), (p2, withWrite idle3 0x08 3#32),
    (p2, withWrite (running3 .rgb2cmy) 0x08 2#32), (p2, withWrite idle3 0x0C 0xE#32),
    (p2, withEvent (running3 .rgb2cmy) (.memWrite 0x2000 [1#8])),
    (p2Stale, withEvent { running3 .rgb2cmy with hostCache := staleCache } (.cacheClean 0x2000 8)),
    (p2Stale, withEvent { running3 .rgb2cmy with hostCache := staleCache } (.memRead 0x0FFE 4))]

theorem samples_next (x : Platform × State) (h : x ∈ samples) : stepOn x.1 x.2 = .next (stepped x.1 x.2) :=
  eq_next _ (List.all_eq_true.1 (show samples.all (fun x => isNext (stepOn x.1 x.2)) = true by decide +kernel) x h)

theorem samples_legal : ∀ x ∈ samples, legal x.1 x.2 = true ∧ buffersConsistent x.2 = true := by decide +kernel

theorem witness_OverrunStaysUntilCleared :
    ∀ x ∈ samples, let s := { x.2 with ovr := true }
      stepOn x.1 s = .next (stepped x.1 s) ∧ s.ovr = true :=
  fun x h => ⟨eq_next _ (List.all_eq_true.1
    (show samples.all (fun x => isNext (stepOn x.1 { x.2 with ovr := true })) = true by decide +kernel) x h), rfl⟩

theorem witness_BusyChangesOnlyAsTheRulesSay :
    (∀ x ∈ samples, legal x.1 x.2 = true ∧ stepOn x.1 x.2 = .next (stepped x.1 x.2)) ∧
      (∀ x ∈ samples.take 3, x.2.engine = .run ∧ (stepped x.1 x.2).engine = .idle) ∧
      ∀ x ∈ (samples.drop 3).take 1, x.2.engine = .idle ∧ (stepped x.1 x.2).engine = .run :=
  ⟨fun x h => ⟨(samples_legal x h).1, samples_next x h⟩, by decide +kernel, by decide +kernel⟩

theorem witness_LastCommandAndShadowsChangeOnlyAtAccept :
    let s := withWrite idle3 0x08 3#32
    (∀ x ∈ samples, stepOn x.1 x.2 = .next (stepped x.1 x.2)) ∧ stepOn p2 s = .next (stepped p2 s) ∧
      s.inputs = [.portWrite 4 (p2.blkBase + 0x08) 3#32] ∧ s.engine = .idle ∧ (stepped p2 s).lastCmd ≠ s.lastCmd :=
  ⟨samples_next, eq_next _ (by decide +kernel), by decide +kernel, by decide +kernel, by decide +kernel⟩

/-- The last byte of an element of component0 changes in a command's step, the byte of a host write, and a byte written back. -/
theorem witness_MemoryChangesOnlyInOutputRegions :
    let s := running1 .ycck2rgb grey
    let t := withEvent s (.memWrite 0x2000 [1#8])
    let u := withEvent { s with hostCache := staleCache } (.cacheClean 0x2000 8)
    (legal p2 s = true ∧ stepOn p2 s = .next (stepped p2 s) ∧ (stepped p2 s).mem.readByte 0x1003 ≠ s.mem.readByte 0x1003) ∧
      (legal p2 t = true ∧ stepOn p2 t = .next (stepped p2 t) ∧
        (stepped p2 t).mem.readByte 0x2000 ≠ t.mem.readByte 0x2000) ∧
      legal p2Stale u = true ∧ stepOn p2Stale u = .next (stepped p2Stale u) ∧
        (stepped p2Stale u).mem.readByte 0x2001 ≠ u.mem.readByte 0x2001 :=
  ⟨⟨by decide +kernel, eq_next _ (by decide +kernel), by decide +kernel⟩,
    ⟨by decide +kernel, eq_next _ (by decide +kernel), by decide +kernel⟩,
    by decide +kernel, eq_next _ (by decide +kernel), by decide +kernel⟩

/-- Memory with other bytes in component3 and outside every buffer, for a command that does not read component3. -/
theorem witness_MemoryNotReadHasNoInfluence :
    let s := running1 .rgb2ycck grey
    let other := (s.mem.writeWord 0x1300#32 0xDEADBEEF#32).writeByte 0x2000 1#8
    legal p2 s = true ∧ canStep s = true ∧ other.wf = true ∧
      (∀ addr, (∃ c ∈ (shapeOf s.op).reads, inRegion s c addr = true) → other.readByte addr = s.mem.readByte addr) ∧
      execOn p2 s.op s = .next (nextState s (execOn p2 s.op s)) := by
  refine ⟨by decide +kernel, by decide +kernel, by decide +kernel, ?_, eq_next _ (by decide +kernel)⟩
  rintro addr ⟨c, hc, h⟩
  have hr : (running1 .rgb2ycck grey).sBase = ⟨0x1000#32, 0x1100#32, 0x1200#32, 0x1300#32⟩ := by decide +kernel
  have hl : (running1 .rgb2ycck grey).sLen = 1#32 := by decide +kernel
  have ho : (shapeOf (running1 .rgb2ycck grey).op).reads = [.component0, .component1, .component2] := by decide +kernel
  have hw : (running1 .rgb2ycck grey).mem.wf = true := by decide +kernel
  rw [ho] at hc
  rw [Memory.readByte_writeByte (Memory.wf_writeWord hw _ _), Memory.readByte_writeWord hw (by decide)]
  simp only [inRegion, hr, hl, Bool.and_eq_true, decide_eq_true_eq] at h
  cases c <;> simp [Quad.get] at hc h <;> (rw [if_neg (by omega)]; norm_num; intros; omega)

theorem witness_SafeEventsNeverStop :
    ∀ e ∈ [HostEvent.portRead 3 0xFF, .portWrite 4 0x08 0#32, .engineTurn, .wait, .memRead 0xFFFFFFFF 1,
        .memWrite 0x100C [1#8], .memWrite 0xFFF [1#8], .assertReset 0 false, .releaseReset, .cacheClean 0 5000,
        .cacheInvalidate 0 5000],
      stepSafe p2 (withEvent (running3 .ycck2rgb) e) = true := by decide +kernel

/-! ### Witnesses: the host and the data space -/

theorem witness_HostWriteToActiveBufferFaults :
    ∀ addr ∈ [0xFFF, 0x100A], let s := withEvent (running3 .ycck2rgb) (.memWrite addr [1#8, 2#8])
      s.inputs = [.memWrite addr [1#8, 2#8]] ∧ addr + 2 ≤ 2 ^ 32 ∧ s.engine = .run ∧ 1 < 2 ∧
        inRegion s .component0 (addr + 1) = true := by decide +kernel

theorem witness_HostWriteElsewhereStoresItsBytes :
    p2.coherent = true ∧ p2Stale.coherent = false ∧
      ∀ x ∈ [(idle3, 0x1000), (running3 .ycck2rgb, 0x100C), (running3 .ycck2rgb, 0xFFE), (idle3, 0xFFFFFFFE)],
        let s := withEvent x.1 (.memWrite x.2 [1#8, 0#8])
        s.mem.wf = true ∧ s.inputs = [.memWrite x.2 [1#8, 0#8]] ∧ x.2 + 2 ≤ 2 ^ 32 ∧
          ∀ k < 2, s.engine = .run → ∀ c ∈ Component.all, inRegion s c (x.2 + k) = false := by decide +kernel

/-- Both platforms with nothing cached, the whole word and its last byte alone; and without coherence a copy of the word. -/
theorem witness_HostReadDuringBusyIsOldOrNew :
    (∀ p ∈ [p2, p2Stale], ∀ c ∈ Component.all, ∀ k ∈ [0, 2], ∀ x ∈ [(0, 4), (3, 1)], let r := running3 .ycck2rgb
      let s := withEvent r (.memRead ((elementAddress r c k).toNat + x.1) x.2)
      legal p s = true ∧ buffersConsistent s = true ∧ canStep s = true ∧ k < s.sLen.toNat ∧ 0 < x.2 ∧ x.1 + x.2 ≤ 4 ∧
        s.inputs = [.memRead ((elementAddress s c k).toNat + x.1) x.2] ∧
        cacheLookup s.hostCache ((elementAddress s c k).toNat / 4) = none) ∧
      (let s := withEvent { running3 .ycck2rgb with hostCache := staleCache } (.memRead 0x1000 4)
       legal p2Stale s = true ∧ buffersConsistent s = true ∧ canStep s = true ∧ 0 < s.sLen.toNat ∧
        s.inputs = [.memRead ((elementAddress s .component0 0).toNat + 0) 4] ∧
        cacheLookup s.hostCache ((elementAddress s .component0 0).toNat / 4) = some ⟨0x400, 0x99999999#32, false⟩) := by
  decide +kernel

/-- An idle block at the top of the data space, and a running one next to its buffers: a byte of a word with a copy, and one
of a word with none. -/
theorem witness_HostReadElsewhereReturnsItsBytes :
    p2.coherent = true ∧ p2Stale.coherent = false ∧
      (let s := withEvent idle3 (.memRead 0xFFFFFFFC 4)
       0xFFFFFFFC + 4 ≤ 2 ^ 32 ∧ s.inputs = [.memRead 0xFFFFFFFC 4] ∧ s.engine ≠ .run) ∧
      (let s := withEvent { running3 .ycck2rgb with hostCache := staleCache } (.memRead 0x2003 2)
       0x2003 + 2 ≤ 2 ^ 32 ∧ s.inputs = [.memRead 0x2003 2] ∧
        (∀ k < 8, ∀ c ∈ Component.all, inRegion s c (0x2000 + k) = false) ∧ touchedWords 0x2003 2 = [0x800, 0x801] ∧
        wordTouched 0x2003 2 0x802 = false ∧ cacheLookup s.hostCache 0x801 = none ∧
        cacheLookup s.hostCache 0x800 = some ⟨0x800, 0x00000700#32, true⟩) := by
  decide +kernel

/-- A clean while a command runs that writes one word back outside its buffers, one that reaches the last word of a buffer,
and an invalidation. -/
theorem witness_HostCacheMaintenanceMovesOrDropsCopies :
    (let s := withEvent { running3 .ycck2rgb with hostCache := staleCache } (.cacheClean 0x2001 1)
     s.mem.wf = true ∧ cacheWfFrom 0 s.hostCache = true ∧ s.inputs = [.cacheClean 0x2001 1] ∧
      (∀ e ∈ s.hostCache, e.dirty = true → ∀ k < 4, ∀ c ∈ Component.all, inRegion s c (4 * e.index + k) = false) ∧
      wordTouched 0x2001 1 0x800 = true ∧ cacheLookup s.hostCache 0x800 = some ⟨0x800, 0x00000700#32, true⟩) ∧
    (let s := withEvent { running3 .ycck2rgb with hostCache := [⟨0x402, 7#32, true⟩] } (.cacheClean 0x1000 12)
     s.mem.wf = true ∧ cacheWfFrom 0 s.hostCache = true ∧ s.inputs = [.cacheClean 0x1000 12] ∧
      wordTouched 0x1000 12 (0x100B / 4) = true ∧ cacheLookup s.hostCache (0x100B / 4) = some ⟨0x402, 7#32, true⟩ ∧
      inRegion s .component0 0x100B = true ∧ s.engine = .run) ∧
    (let s := withEvent { idle3 with hostCache := staleCache } (.cacheInvalidate 0x2000 2)
     s.mem.wf = true ∧ cacheWfFrom 0 s.hostCache = true ∧ s.inputs = [.cacheInvalidate 0x2000 2]) := by decide +kernel

/-- 20_memory.md R79, R88: a word that the caches hold stays whole for the host when the block writes it, whichever bytes it
reads; and a write of one byte keeps the word's other bytes. -/
theorem test_cached_words_are_whole :
    let s := stepped p2Stale { running1 .rgb2cmy grey with hostCache := [⟨0x400, 0x43000000#32, false⟩] }
    let read := fun addr n => (stepped p2Stale (withEvent s (.memRead addr n))).response
    s.mem.readWord 0x1000#32 = 0x42FE0000#32 ∧ read 0x1000 4 = .bytes [0#8, 0#8, 0#8, 0x43#8] ∧
      read 0x1002 2 = .bytes [0#8, 0x43#8] ∧
      (let t := withEvent { idle3 with hostCache := staleCache } (.memWrite 0x2002 [5#8])
       cacheLookup (stepped p2Stale t).hostCache 0x800 = some ⟨0x800, 0x00050700#32, true⟩) := by decide +kernel

/-- 93 P15: without a clean the block reads a stale input, without an invalidation the host reads a stale output. -/
theorem test_stale_without_maintenance :
    let host := fun s => stepped p2Stale (withEvent s (.memWrite 0x1000 [0#8, 0#8, 0#8, 0#8]))
    let run := fun s => stepped p2Stale (acceptedOf p2Stale .rgb2cmy s)
    let read := fun s => (stepped p2Stale (withEvent s (.memRead 0x1000 4))).response
    let clean := fun s => stepped p2Stale (withEvent s (.cacheClean 0x1000 4))
    let drop := fun s => stepped p2Stale (withEvent s (.cacheInvalidate 0x1000 4))
    let s := idleOn p2Stale 1 grey
    (run (host s)).mem.readWord 0x1000#32 = 0x42FE0000#32 ∧ (run (clean (host s))).mem.readWord 0x1000#32 = 0x437F0000#32 ∧
      read (run (clean (host s))) = .bytes [0#8, 0#8, 0#8, 0#8] ∧
      read (drop (run (clean (host s)))) = .bytes [0#8, 0#8, 0x7F#8, 0x43#8] := by decide +kernel

/-! ### Witnesses: reset -/

theorem witness_ResetRegistersReadTheirValues :
    ∀ w ∈ [1, 65535], ∀ off ∈ [0x00, 0x04, 0x08, 0xFC],
      (platformOf w []).laneWidthInRange = true ∧ off < 256 ∧ off % 4 = 0 := by decide

theorem witness_ResetWhileIdle :
    let s := withEvent idle3 (.assertReset 0 false)
    s.inputs = [.assertReset 0 false] ∧ s.engine = .idle := by decide +kernel

theorem witness_ResetDuringRunLeavesInputsOrOutputs :
    ∀ n ∈ [0, 6, 9, 99], let s := withEvent (running3 .rgb2ycck) (.assertReset n true)
      legal p2 s = true ∧ buffersConsistent s = true ∧ canStep s = true ∧ s.inputs = [.assertReset n true] := by decide +kernel

/-- A reset after the six reads and one write of a lane step, with the second write in flight and landing
(70_reset_and_hazards.md R262): the first two elements of component0 hold their outputs, component1's hold their inputs. -/
theorem test_reset_inside_a_step :
    let t := stepped p2 (withEvent (runningOn p2 2 .rgb2cmy grey) (.assertReset 7 true))
    t.mem.readWord 0x1000#32 = 0x42FE0000#32 ∧ t.mem.readWord 0x1004#32 = 0x437F0000#32 ∧
      t.mem.readWord 0x1100#32 = 0x43000000#32 ∧ t.done = false ∧ t.err = false ∧ t.engine = .idle := by decide +kernel

theorem witness_PortAccessDuringResetIsRefused :
    ∀ e ∈ [HostEvent.portRead 4 0x0C, .portWrite 4 0x08 1#32, .wait, .engineTurn],
      let s := withEvent { idle3 with resetHeld := true } e
      s.resetHeld = true ∧ s.inputs = [e] := by decide +kernel

theorem witness_ResetIsLegal :
    ∀ w ∈ [1, 65535], (platformOf w [⟨0, 2 ^ 32, .error, .never⟩]).wellFormed = true := by decide

/-! ### Witnesses: invariants and whole commands -/

theorem witness_EveryStepKeepsLegal : ∀ x ∈ samples, legal x.1 x.2 = true ∧ stepOn x.1 x.2 = .next (stepped x.1 x.2) :=
  fun x h => ⟨(samples_legal x h).1, samples_next x h⟩

theorem witness_EveryStepKeepsBuffersConsistent :
    ∀ x ∈ samples, legal x.1 x.2 = true ∧ buffersConsistent x.2 = true ∧ stepOn x.1 x.2 = .next (stepped x.1 x.2) :=
  fun x h => ⟨(samples_legal x h).1, (samples_legal x h).2, samples_next x h⟩

theorem witness_CommandRunsToCompletion :
    ∀ i ∈ Instr.all, legal p2 idle3 = true ∧ idle3.engine = .idle ∧ idle3.resetHeld = false ∧ idle3.inputs = [] ∧
      contextAccepted i idle3 = true ∧ buffersAccepted idle3 = true ∧ idle3.compLen.c0 ≠ 0#32 ∧
      busAlwaysOk p2 = true := by decide +kernel

theorem run_two (p : Platform) (s : State) (h : isNext (stepOn p s) = true) (h2 : isNext (stepOn p (stepped p s)) = true) :
    (machineOn p).run 2 s = .next (stepped p (stepped p s)) := by
  have e (u : State) (h : isNext (stepOn p u) = true) : (machineOn p).step u = .next (stepped p u) := eq_next u h
  simp only [Host.Core.run, e _ h, e _ h2]

theorem run_three (p : Platform) (s : State) (h : isNext (stepOn p s) = true)
    (h2 : isNext (stepOn p (stepped p s)) = true) (h3 : isNext (stepOn p (stepped p (stepped p s))) = true) :
    (machineOn p).run 3 s = .next (stepped p (stepped p (stepped p s))) := by
  have e (u : State) (h : isNext (stepOn p u) = true) : (machineOn p).step u = .next (stepped p u) := eq_next u h
  simp only [Host.Core.run, e _ h, e _ h2, e _ h3]

/-- Lane widths 2 and 1 on one command of three elements: two steps and three. -/
theorem witness_ResultsDoNotDependOnLaneWidth :
    let p := p2
    let p' := platformOf 1 []
    let s := idle3
    let s' := { s with lane := Quad.const (List.replicate 1 0#32) }
    let i := Instr.ycck2rgb
    legal p s = true ∧ p' = { p with laneWidth := p'.laneWidth } ∧ s' = { s with lane := s'.lane } ∧ legal p' s' = true ∧
      s.engine = .idle ∧ s.resetHeld = false ∧ s.inputs = [] ∧
      execOn p i s = .next (acceptedOf p i s) ∧ execOn p' i s' = .next (acceptedOf p' i s') ∧
      (machineOn p).run 2 (acceptedOf p i s) = .next (stepped p (stepped p (acceptedOf p i s))) ∧
      (machineOn p').run 3 (acceptedOf p' i s') = .next (stepped p' (stepped p' (stepped p' (acceptedOf p' i s')))) ∧
      (stepped p (stepped p (acceptedOf p i s))).done = true ∧
      (stepped p' (stepped p' (stepped p' (acceptedOf p' i s')))).done = true := by
  refine ⟨by decide +kernel, rfl, rfl, by decide +kernel, by decide +kernel, by decide +kernel, by decide +kernel,
    eq_next _ (by decide +kernel), eq_next _ (by decide +kernel), run_two _ _ (by decide +kernel) (by decide +kernel),
    run_three _ _ (by decide +kernel) (by decide +kernel) (by decide +kernel), by decide +kernel, by decide +kernel⟩

/-! ### Witnesses: binary32 -/

theorem witness_EveryNaNResultIsCanonical :
    isNaN (fadd 0x7F800000#32 0xFF800000#32) = true ∧ isNaN (fsub 0x7F800000#32 0x7F800000#32) = true ∧
      isNaN (fmul 0#32 0x7F800000#32) = true ∧ isNaN (fdiv 0#32 0#32) = true ∧ isNaN (roundTA 0xFFFFFFFF#32) = true ∧
      isNaN 0x7F800001#32 = true := by decide +kernel

theorem witness_ArithmeticRoundsOnceToNearestEven :
    isFinite 0x7F7FFFFF#32 = true ∧ isFinite 0x00000001#32 = true ∧ isFinite 0x80000001#32 = true ∧
      unitValue 0x7F7FFFFF#32 + unitValue 0x00000001#32 ≠ 0 ∧ unitValue 0x00000001#32 + unitValue 0x80000001#32 = 0 ∧
      magnitude 0x00000001#32 ≠ 0 ∧ overflows (magnitude 0x7F7FFFFF#32 * magnitude 0x7F7FFFFF#32) (2 ^ 149) ∧
      ¬ overflows (magnitude 0x00000001#32 * magnitude 0x00000001#32) (2 ^ 149) := by
  unfold overflows
  decide +kernel

theorem witness_ListedSpecialCasesHold :
    isFinite 0x7F7FFFFF#32 = true ∧ (isInfinite 0xFF800000#32 = true ∧ signBit 0xFF800000#32 = signBit 0xFF800000#32) ∧
      isZero 0x80000000#32 = true ∧ isZero 0x00000000#32 = true := by decide

theorem witness_RoundTAIsExact :
    isNaN 0xFFFFFFFF#32 = true ∧ isInfinite 0xFF800000#32 = true ∧ isZero 0x80000000#32 = true ∧
      (isFinite 0x4B000000#32 = true ∧ 2 ^ 23 * 2 ^ 149 ≤ magnitude 0x4B000000#32) ∧
      ∀ n ∈ [0x00000001, 0xCAFFFFFF], let u := BitVec.ofNat 32 n
        isFinite u = true ∧ isZero u = false ∧ magnitude u < 2 ^ 23 * 2 ^ 149 := by
  decide +kernel

/-- The Precision Context of 8-bit samples. -/
def precision8 : Precision := ⟨0x437F0000#32, 0x43000000#32, 0x37810182#32⟩

theorem witness_ZeroBlackGivesSignedZeros :
    (isFinite precision8.sMax = true ∧ isPositive precision8.sMax = true ∧ isFinite precision8.sKScale = true ∧
      isPositive precision8.sKScale = true) ∧
      (let d := fun y : Word => fsub precision8.sMax (ycckRed y 0#32)
       (isFinite (d 0x437F0000#32) = true ∧ signBit (d 0x437F0000#32) = false) ∧
        (isFinite (d 0x43800000#32) = true ∧ signBit (d 0x43800000#32) = true) ∧
        isFinite (ycckRed 0x7F800000#32 0#32) = false) := by decide +kernel

theorem witness_BlackScalingIsMonotonic :
    let k' := 0x7F7FFFFF#32
    isFinite precision8.sKScale = true ∧ isPositive precision8.sKScale = true ∧ (0#32).toNat ≤ k'.toNat ∧
      k'.toNat < 0x7F800000 ∧ isFinite (fmul k' precision8.sKScale) = true ∧
      isFinite (fsub precision8.sMax (ycckRed 0#32 0#32)) = true ∧
      isFinite (fsub precision8.sMax (ycckGreen 0#32 0#32 0#32)) = true ∧
      isFinite (fsub precision8.sMax (ycckBlue 0#32 0#32)) = true := by decide +kernel

/-- S_MAX = 2^24 and the samples 0 and 2^24, in each component. -/
theorem witness_ComplementTwiceReturnsIntegers :
    let p : Precision := ⟨0x4B800000#32, 0#32, 0#32⟩
    ∀ c ∈ [Component.component0, .component1, .component2],
      ∀ x ∈ [((0 : Int), Quad.const 0x00000000#32), (2 ^ 24, Quad.const 0x4B800000#32)],
        isFinite p.sMax = true ∧ isFinite (x.2.get c) = true ∧ unitValue p.sMax = 2 ^ 24 * 2 ^ 149 ∧
          unitValue (x.2.get c) = x.1 * 2 ^ 149 ∧ x.2.get c ≠ 0x80000000#32 ∧ x.1.natAbs ≤ 2 ^ 24 ∧
          (2 ^ 24 : Int).natAbs ≤ 2 ^ 24 ∧ (2 ^ 24 - x.1).natAbs ≤ 2 ^ 24 := by decide +kernel

end Sys2Proof.Tests
end

section
/-! SUPPORT. What each predicate of binary32 says of the pattern, and when an operation gives a NaN (00_scope.md R18, R22). -/

namespace Sys2Proof.Machine

/-! ### The predicates by the pattern -/

theorem isFinite_iff (u : Word) : isFinite u = true ↔ exponentField u ≠ 255 := by simp [isFinite]

theorem isInfinite_iff (u : Word) : isInfinite u = true ↔ exponentField u = 255 ∧ fractionField u = 0 := by
  simp [isInfinite]

theorem isNaN_iff (u : Word) : isNaN u = true ↔ exponentField u = 255 ∧ fractionField u ≠ 0 := by simp [isNaN]

theorem isZero_iff (u : Word) : isZero u = true ↔ exponentField u = 0 ∧ fractionField u = 0 := by simp [isZero]

theorem isNaN_of_isFinite {u : Word} (h : isFinite u = true) : isNaN u = false := by
  rw [isFinite_iff] at h; simp [isNaN, h]

theorem isInfinite_of_isFinite {u : Word} (h : isFinite u = true) : isInfinite u = false := by
  rw [isFinite_iff] at h; simp [isInfinite, h]

theorem isNaN_of_isInfinite {u : Word} (h : isInfinite u = true) : isNaN u = false := by
  rw [isInfinite_iff] at h; simp [isNaN, h]

theorem isNaN_of_isZero {u : Word} (h : isZero u = true) : isNaN u = false := by
  rw [isZero_iff] at h; simp [isNaN, h]

theorem isInfinite_of_isZero {u : Word} (h : isZero u = true) : isInfinite u = false := by
  rw [isZero_iff] at h; simp [isInfinite, h]

/-- `x > 0` by the pattern: above +0 and not above +infinity (00_scope.md R22). -/
theorem isPositive_iff (u : Word) : isPositive u = true ↔ 0 < u.toNat ∧ u.toNat ≤ infinityPattern := by
  have hlt := u.isLt
  simp only [isPositive, isNaN, isZero, signBit_eq, exponentField_eq, fractionField_eq, infinityPattern,
    Bool.and_eq_true, Bool.not_eq_true', Bool.and_eq_false_iff, decide_eq_false_iff_not, beq_eq_false_iff_ne,
    bne_eq_false_iff_eq]
  omega

/-- Settles O56: the predicates and `x > 0` read the exponent, the fraction and the sign. -/
theorem predicatesReadThePattern : Obligations.PredicatesReadThePattern := by
  intro u
  refine ⟨?_, ?_, ?_, ?_, isPositive_iff u⟩
  · rw [isFinite_iff]
    simp only [isInfinite, isNaN]
    by_cases h : exponentField u = 255 <;> by_cases hf : fractionField u = 0 <;> simp [h, hf]
  · rw [isFinite_iff, exponentField_eq]
  · rw [isInfinite_iff, exponentField_eq, fractionField_eq]
  · rw [isNaN_iff, exponentField_eq, fractionField_eq]

/-! ### The sign changed -/

@[simp] theorem exponentField_fneg (a : Word) : exponentField (fneg a) = exponentField a := by
  simp [exponentField, fneg, BitVec.extractLsb'_xor]

@[simp] theorem fractionField_fneg (a : Word) : fractionField (fneg a) = fractionField a := by
  simp [fractionField, fneg, BitVec.extractLsb'_xor]

@[simp] theorem isNaN_fneg (a : Word) : isNaN (fneg a) = isNaN a := by simp [isNaN]

@[simp] theorem isInfinite_fneg (a : Word) : isInfinite (fneg a) = isInfinite a := by simp [isInfinite]

@[simp] theorem isFinite_fneg (a : Word) : isFinite (fneg a) = isFinite a := by simp [isFinite]

@[simp] theorem magnitude_fneg (a : Word) : magnitude (fneg a) = magnitude a := by simp [magnitude]

@[simp] theorem unitValue_fneg (a : Word) : unitValue (fneg a) = -unitValue a := by
  cases h : signBit a <;> simp [unitValue, h]

/-! ### The operations on special operands -/

theorem fadd_of_isNaN {a b : Word} (h : isNaN a = true ∨ isNaN b = true) : fadd a b = canonicalNaN := by
  simp [fadd, h]

theorem fsub_of_isNaN {a b : Word} (h : isNaN a = true ∨ isNaN b = true) : fsub a b = canonicalNaN :=
  fadd_of_isNaN (by simpa using h)

theorem fmul_of_isNaN {a b : Word} (h : isNaN a = true ∨ isNaN b = true) : fmul a b = canonicalNaN := by
  simp [fmul, h]

theorem fdiv_of_isNaN {a b : Word} (h : isNaN a = true ∨ isNaN b = true) : fdiv a b = canonicalNaN := by
  simp [fdiv, h]

theorem roundTA_of_isNaN {x : Word} (h : isNaN x = true) : roundTA x = canonicalNaN := by simp [roundTA, h]

theorem roundTA_of_isInfinite_or_isZero {x : Word} (h : isInfinite x = true ∨ isZero x = true) : roundTA x = x := by
  have hn : isNaN x = false := h.elim isNaN_of_isInfinite isNaN_of_isZero
  simp [roundTA, hn, h]

/-- Two infinities of different signs have no sum (00_scope.md R17). -/
theorem fadd_of_opposite_infinities {a b : Word} (ha : isInfinite a = true) (hb : isInfinite b = true)
    (hs : signBit a ≠ signBit b) : fadd a b = canonicalNaN := by
  simp [fadd, isNaN_of_isInfinite, ha, hb, hs]

/-- A zero times an infinity has no value, in either order (00_scope.md R17). -/
theorem fmul_of_zero_and_infinity {a b : Word}
    (h : isZero a = true ∧ isInfinite b = true ∨ isInfinite a = true ∧ isZero b = true) : fmul a b = canonicalNaN := by
  rcases h with ⟨ha, hb⟩ | ⟨ha, hb⟩ <;> simp [fmul, ha, hb]

/-- A zero divided by a zero has no value (00_scope.md R17). -/
theorem fdiv_of_zeros {a b : Word} (ha : isZero a = true) (hb : isZero b = true) : fdiv a b = canonicalNaN := by
  simp [fdiv, isInfinite_of_isZero, ha, hb]

/-! ### The operations on finite operands -/

theorem fadd_of_isFinite {a b : Word} (ha : isFinite a = true) (hb : isFinite b = true) :
    fadd a b =
      if unitValue a + unitValue b = 0 then withSign (signBit a && signBit b) 0
      else withSign (decide (unitValue a + unitValue b < 0)) (roundPattern (unitValue a + unitValue b).natAbs 1) := by
  simp [fadd, isNaN_of_isFinite, isInfinite_of_isFinite, ha, hb]

theorem fmul_of_isFinite {a b : Word} (ha : isFinite a = true) (hb : isFinite b = true) :
    fmul a b = withSign (signBit a != signBit b) (roundPattern (magnitude a * magnitude b) (2 ^ 149)) := by
  simp [fmul, isNaN_of_isFinite, isInfinite_of_isFinite, ha, hb]

theorem isZero_iff_magnitude (u : Word) : isZero u = true ↔ magnitude u = 0 := by
  rw [isZero_iff, magnitude]
  split
  · next h => simp [h]
  · next h => simp [h]

theorem fdiv_of_isFinite {a b : Word} (ha : isFinite a = true) (hb : isFinite b = true) (hz : magnitude b ≠ 0) :
    fdiv a b = withSign (signBit a != signBit b) (roundPattern (magnitude a * 2 ^ 149) (magnitude b)) := by
  have hz : isZero b = false := by rwa [← Bool.not_eq_true, isZero_iff_magnitude]
  simp [fdiv, isNaN_of_isFinite, isInfinite_of_isFinite, ha, hb, hz]

theorem roundTA_of_isFinite {x : Word} (hx : isFinite x = true) (hz : isZero x = false) :
    roundTA x =
      if 2 ^ 23 * 2 ^ 149 ≤ magnitude x then x
      else withSign (signBit x) (roundPattern ((magnitude x + 2 ^ 148) / 2 ^ 149 * 2 ^ 149) 1) := by
  simp [roundTA, isNaN_of_isFinite, isInfinite_of_isFinite, hx, hz]

/-! ### Every NaN is canonical -/

/-- The word is the canonical NaN or no NaN (00_scope.md R18). -/
def NaNCanonical (r : Word) : Prop := isNaN r = true → r = canonicalNaN

theorem NaNCanonical.canonicalNaN : NaNCanonical canonicalNaN := fun _ => rfl

theorem NaNCanonical.of_not_isNaN {r : Word} (h : isNaN r = false) : NaNCanonical r := fun hn => by simp [h] at hn

theorem NaNCanonical.withSign (negative : Bool) {p : Nat} (h : p ≤ infinityPattern) :
    NaNCanonical (withSign negative p) := .of_not_isNaN (isNaN_withSign negative h)

theorem NaNCanonical.withSign_roundPattern (negative : Bool) (num den : Nat) :
    NaNCanonical (Machine.withSign negative (roundPattern num den)) := .withSign negative (roundPattern_le num den)

theorem fadd_nanCanonical (a b : Word) : NaNCanonical (fadd a b) := by
  by_cases hn : isNaN a = true ∨ isNaN b = true
  · rw [fadd_of_isNaN hn]; exact .canonicalNaN
  · obtain ⟨ha, hb⟩ : isNaN a = false ∧ isNaN b = false := by simpa using hn
    simp only [fadd, ha, hb]
    split_ifs
    · exact .canonicalNaN
    · exact .canonicalNaN
    · exact .of_not_isNaN ha
    · exact .of_not_isNaN hb
    · exact .withSign _ (by decide)
    · exact .withSign_roundPattern _ _ _

theorem fsub_nanCanonical (a b : Word) : NaNCanonical (fsub a b) := fadd_nanCanonical a (fneg b)

theorem fmul_nanCanonical (a b : Word) : NaNCanonical (fmul a b) := by
  unfold fmul
  simp only
  split_ifs
  · exact .canonicalNaN
  · exact .canonicalNaN
  · exact .withSign _ (le_refl _)
  · exact .withSign_roundPattern _ _ _

theorem fdiv_nanCanonical (a b : Word) : NaNCanonical (fdiv a b) := by
  unfold fdiv
  simp only
  split_ifs
  · exact .canonicalNaN
  · exact .canonicalNaN
  · exact .withSign _ (le_refl _)
  · exact .withSign _ (by decide)
  · exact .canonicalNaN
  · exact .withSign _ (le_refl _)
  · exact .withSign_roundPattern _ _ _

theorem roundTA_nanCanonical (x : Word) : NaNCanonical (roundTA x) := by
  by_cases hn : isNaN x = true
  · rw [roundTA_of_isNaN hn]; exact .canonicalNaN
  · have hx : isNaN x = false := by simpa using hn
    rw [roundTA, if_neg hn]
    split_ifs
    · exact .of_not_isNaN hx
    · exact .of_not_isNaN hx
    · exact .withSign_roundPattern _ _ _

/-- Settles O52: each operation, by its branches, gives an operand that is no NaN, a signed pattern up to infinity's, or
the canonical NaN. -/
theorem everyNaNResultIsCanonical : Obligations.EveryNaNResultIsCanonical := fun a b =>
  ⟨fadd_nanCanonical a b, fsub_nanCanonical a b, fmul_nanCanonical a b, fdiv_nanCanonical a b, roundTA_nanCanonical a,
    fun h => ⟨fadd_of_isNaN h, fsub_of_isNaN h, fmul_of_isNaN h, fdiv_of_isNaN h⟩, roundTA_of_isNaN⟩

/-- Settles O54: the finite difference `x - x` is an exact zero of operands with different signs; the others are the
special operands above. -/
theorem listedSpecialCasesHold : Obligations.ListedSpecialCasesHold := by
  refine ⟨?_, ?_, ?_, ?_, by decide +kernel, fun _ _ => rfl⟩
  · intro x hx
    rw [fsub, fadd_of_isFinite hx (by simpa using hx), unitValue_fneg, if_pos (add_neg_cancel _), signBit_fneg,
      Bool.and_not_self]
    rfl
  · intro x y hx hy hs
    exact fadd_of_opposite_infinities hx (by simpa using hy) (by simp [hs])
  · intro x y hx hy
    exact ⟨fmul_of_zero_and_infinity (.inl ⟨hx, hy⟩), fmul_of_zero_and_infinity (.inr ⟨hy, hx⟩)⟩
  · intro x y hx hy
    exact fdiv_of_zeros hx hy

end Sys2Proof.Machine
end

section
/-! SUPPORT. Rounding to nearest even: what the quotient, the pattern and the value of a rounded result are (00_scope.md R17),
and what follows for the operations on finite operands and for roundTA (R19). -/

namespace Sys2Proof.Machine

/-! ### The quotient rounded to an integer -/

/-- The rounded quotient is the quotient or the next integer. -/
theorem roundDivEven_bounds (num den : Nat) :
    num / den ≤ roundDivEven num den ∧ roundDivEven num den ≤ num / den + 1 := by
  unfold roundDivEven
  simp only
  split <;> omega

/-- The rounded quotient is off by half a unit at most, and is even when off by just that. -/
theorem roundDivEven_half (num : Nat) {den : Nat} (hd : 0 < den) :
    let m := roundDivEven num den
    2 * num ≤ 2 * (m * den) + den ∧ 2 * (m * den) ≤ 2 * num + den ∧
      (2 * num = 2 * (m * den) + den ∨ 2 * (m * den) = 2 * num + den → m % 2 = 0) := by
  have hq := Nat.div_add_mod' num den
  have hr := Nat.mod_lt num hd
  simp only [roundDivEven, Bool.or_eq_true, Bool.and_eq_true, decide_eq_true_eq, beq_iff_eq]
  split
  · rw [Nat.add_mul]
    omega
  · omega

/-- No integer is nearer than the rounded quotient, and it is even when another is as near. -/
theorem roundDivEven_nearest (num j : Nat) {den : Nat} (hd : 0 < den) :
    let m := roundDivEven num den
    Int.natAbs (num - m * den) ≤ Int.natAbs (num - j * den) ∧
      (Int.natAbs (num - m * den) = Int.natAbs (num - j * den) → j = m ∨ m % 2 = 0) := by
  have hhalf := roundDivEven_half num hd
  revert hhalf
  generalize roundDivEven num den = m
  simp only [← Nat.cast_mul]
  rintro ⟨hlo, hhi, htie⟩
  rcases Nat.lt_trichotomy j m with hlt | heq | hgt
  · have := Nat.mul_le_mul_right den (Nat.succ_le_of_lt hlt)
    rw [Nat.succ_mul] at this
    omega
  · rw [heq]; simp
  · have := Nat.mul_le_mul_right den (Nat.succ_le_of_lt hgt)
    rw [Nat.succ_mul] at this
    omega

/-- A quotient without remainder is not rounded. -/
theorem roundDivEven_of_dvd {num den : Nat} (hd : 0 < den) (h : den ∣ num) : roundDivEven num den * den = num := by
  have hm := Nat.mod_eq_zero_of_dvd h
  simp [roundDivEven, hm, hd.ne, Nat.div_mul_cancel h]

/-! ### The bits dropped -/

/-- The significand of a result has 24 bits at most, and just 24 when any are dropped (00_scope.md R16). -/
theorem excessBits_spec (num : Nat) {den : Nat} (hd : 0 < den) :
    num < 2 ^ 24 * (den * 2 ^ excessBits num den) ∧
      (excessBits num den = 0 ∨ 2 ^ 23 * (den * 2 ^ excessBits num den) ≤ num) := by
  have hlt : num / den < 2 ^ (24 + excessBits num den) :=
    Nat.lt_log2_self.trans_le (Nat.pow_le_pow_right (by omega) (by unfold excessBits; omega))
  constructor
  · rw [Nat.div_lt_iff_lt_mul hd, Nat.pow_add] at hlt
    linarith
  · by_cases hk : excessBits num den = 0
    · exact .inl hk
    · right
      have hq : num / den ≠ 0 := by
        intro h
        simp [excessBits, h] at hk
      have hle := Nat.log2_self_le hq
      rw [show (num / den).log2 = 23 + excessBits num den by unfold excessBits at hk ⊢; omega,
        Nat.le_div_iff_mul_le hd, Nat.pow_add] at hle
      linarith

/-- The significand of a rounded result. -/
def roundedSignificand (num den : Nat) : Nat := roundDivEven num (den * 2 ^ excessBits num den)

theorem roundPattern_eq (num den : Nat) :
    roundPattern num den = min (excessBits num den * 2 ^ 23 + roundedSignificand num den) infinityPattern := rfl

theorem roundedSignificand_bounds (num : Nat) {den : Nat} (hd : 0 < den) :
    roundedSignificand num den ≤ 2 ^ 24 ∧ (excessBits num den = 0 ∨ 2 ^ 23 ≤ roundedSignificand num den) := by
  obtain ⟨hlt, hge⟩ := excessBits_spec num hd
  have hD : 0 < den * 2 ^ excessBits num den := by positivity
  obtain ⟨hlo, hhi⟩ := roundDivEven_bounds num (den * 2 ^ excessBits num den)
  rw [← Nat.div_lt_iff_lt_mul hD] at hlt
  refine ⟨hhi.trans hlt, hge.imp_right fun h => ?_⟩
  rw [← Nat.le_div_iff_mul_le hD] at h
  exact h.trans hlo

/-! ### The value of a pattern -/

/-- A significand m with k bits dropped makes a finite pattern of the value m * 2^k, a carry into 2^24 included. -/
theorem withSign_scaled (negative : Bool) {k m : Nat} (hm : m ≤ 2 ^ 24) (hk : k = 0 ∨ 2 ^ 23 ≤ m)
    (hlt : k * 2 ^ 23 + m < infinityPattern) :
    isFinite (withSign negative (k * 2 ^ 23 + m)) = true ∧ magnitude (withSign negative (k * 2 ^ 23 + m)) = m * 2 ^ k := by
  have hlt' : k * 2 ^ 23 + m < 255 * 2 ^ 23 := hlt
  have hp : k * 2 ^ 23 + m < 2 ^ 31 := by omega
  rw [isFinite_iff, magnitude, exponentField_withSign negative hp, fractionField_withSign negative hp]
  refine ⟨by omega, ?_⟩
  rcases (by omega : k = 0 ∧ m < 2 ^ 23 ∨ 2 ^ 23 ≤ m ∧ m < 2 ^ 24 ∨ m = 2 ^ 24) with ⟨rfl, h⟩ | ⟨h1, h2⟩ | rfl
  · rw [if_pos (by omega)]
    omega
  · rw [if_neg (by omega), show (k * 2 ^ 23 + m) / 2 ^ 23 - 1 = k by omega,
      show 2 ^ 23 + (k * 2 ^ 23 + m) % 2 ^ 23 = m by omega]
  · rw [if_neg (by omega), show (k * 2 ^ 23 + 2 ^ 24) / 2 ^ 23 - 1 = k + 1 by omega,
      show 2 ^ 23 + (k * 2 ^ 23 + 2 ^ 24) % 2 ^ 23 = 2 ^ 23 by omega]
    ring

/-- A finite value is a multiple of 2^k or has fewer bits than a 24-bit multiple of it. -/
theorem magnitude_dvd_or_lt (u : Word) (k : Nat) : 2 ^ k ∣ magnitude u ∨ magnitude u < 2 ^ 23 * 2 ^ k := by
  have hf : fractionField u < 2 ^ 23 := by rw [fractionField_eq]; exact Nat.mod_lt _ (by omega)
  have hk : 0 < 2 ^ k := by positivity
  unfold magnitude
  split
  · exact .inr (by nlinarith)
  · next he =>
    by_cases hle : k ≤ exponentField u - 1
    · exact .inl (Dvd.dvd.mul_left (pow_dvd_pow 2 hle) _)
    · right
      calc (2 ^ 23 + fractionField u) * 2 ^ (exponentField u - 1)
          < 2 ^ 24 * 2 ^ (exponentField u - 1) := Nat.mul_lt_mul_of_pos_right (by omega) (by positivity)
        _ = 2 ^ 23 * 2 ^ (exponentField u - 1 + 1) := by ring
        _ ≤ 2 ^ 23 * 2 ^ k := Nat.mul_le_mul_left _ (Nat.pow_le_pow_right (by omega) (by omega))

/-! ### Overflow -/

/-- A value overflows exactly when its pattern reaches infinity's: with 253 bits dropped that takes the significand 2^24. -/
theorem overflows_iff (num : Nat) {den : Nat} (hd : 0 < den) :
    overflows num den ↔ infinityPattern ≤ excessBits num den * 2 ^ 23 + roundedSignificand num den := by
  obtain ⟨hlt, hge⟩ := excessBits_spec num hd
  obtain ⟨hm, hm'⟩ := roundedSignificand_bounds num hd
  rw [show infinityPattern = 255 * 2 ^ 23 from rfl, overflows]
  rcases Nat.lt_trichotomy (excessBits num den) 253 with h | h | h
  · have hpow : den * 2 ^ excessBits num den ≤ den * 2 ^ 252 :=
      Nat.mul_le_mul_left _ (Nat.pow_le_pow_right (by omega) (by omega))
    omega
  · obtain ⟨hlo, hhi, htie⟩ := roundDivEven_half num (den := den * 2 ^ 253) (by positivity)
    rw [roundedSignificand, h] at hm ⊢
    generalize roundDivEven num (den * 2 ^ 253) = m at *
    rw [h] at hlt
    rw [show (2 ^ 25 - 1) * 2 ^ 252 * den = (2 ^ 25 - 1) * (den * 2 ^ 252) by ring]
    have hD : den * 2 ^ 253 = 2 * (den * 2 ^ 252) := by ring
    have hE : 0 < den * 2 ^ 252 := by positivity
    rcases (by omega : m + 2 ≤ 2 ^ 24 ∨ m = 2 ^ 24 - 1 ∨ m = 2 ^ 24) with hle | rfl | rfl
    · have := Nat.mul_le_mul_right (den * 2 ^ 253) hle
      rw [Nat.add_mul] at this
      omega
    · omega
    · omega
  · have hpow : den * 2 ^ 254 ≤ den * 2 ^ excessBits num den :=
      Nat.mul_le_mul_left _ (Nat.pow_le_pow_right (by omega) (by omega))
    omega

/-! ### A result rounded once -/

/-- The word has the given sign and the value `num / den` rounded once to nearest, ties to even, overflow to infinity
(00_scope.md R17). -/
def RoundedOnce (negative : Bool) (num den : Nat) (r : Word) : Prop :=
  signBit r = negative ∧ (overflows num den → absPattern r = infinityPattern) ∧
    (¬ overflows num den → isFinite r = true ∧ nearestEven num den r)

theorem absPattern_withSign (negative : Bool) {p : Nat} (h : p < 2 ^ 31) : absPattern (withSign negative p) = p := by
  rw [absPattern, withSign_toNat negative h]
  cases negative
  · exact Nat.mod_eq_of_lt h
  · simpa using h

theorem withSign_toNat_mod_two (negative : Bool) {p : Nat} (h : p < 2 ^ 31) :
    (withSign negative p).toNat % 2 = p % 2 := by
  rw [withSign_toNat negative h]
  cases negative
  · rfl
  · simp only [if_true]
    omega

/-- Among finite values none is nearer than the rounded significand, and it is even when a different one is as near. A value
that is no multiple of the last bit kept lies below every significand of 24 bits, so it is farther than 2^23 of them. -/
theorem roundedSignificand_nearest (num : Nat) {den : Nat} (hd : 0 < den) (u : Word) :
    let m := roundedSignificand num den
    let k := excessBits num den
    Int.natAbs (num - (m * 2 ^ k : Nat) * den) ≤ Int.natAbs (num - magnitude u * den) ∧
      (Int.natAbs (num - (m * 2 ^ k : Nat) * den) = Int.natAbs (num - magnitude u * den) →
        magnitude u = m * 2 ^ k ∨ m % 2 = 0) := by
  intro m k
  have hD : 0 < den * 2 ^ k := by positivity
  have hnear (j : Nat) := roundDivEven_nearest num j hD
  have hscale (j : Nat) : ((j * 2 ^ k : Nat) : Int) * den = j * (den * 2 ^ k : Nat) := by push_cast; ring
  rw [hscale]
  by_cases hdvd : 2 ^ k ∣ magnitude u
  · obtain ⟨j, hj⟩ := hdvd
    rw [hj, Nat.mul_comm (2 ^ k) j, hscale]
    refine ⟨(hnear j).1, fun he => ((hnear j).2 he).imp_left fun h => ?_⟩
    rw [h]
    rfl
  · have hk : k ≠ 0 := fun h => hdvd (by simp [h])
    have hge : 2 ^ 23 * (den * 2 ^ k) ≤ num := (excessBits_spec num hd).2.resolve_left hk
    have hlt : magnitude u * den < 2 ^ 23 * (den * 2 ^ k) :=
      calc magnitude u * den
          < 2 ^ 23 * 2 ^ k * den := Nat.mul_lt_mul_of_pos_right ((magnitude_dvd_or_lt u k).resolve_left hdvd) hd
        _ = 2 ^ 23 * (den * 2 ^ k) := by ring
    have hfar : Int.natAbs (num - m * (den * 2 ^ k : Nat)) < Int.natAbs (num - magnitude u * den) := by
      refine (hnear (2 ^ 23)).1.trans_lt ?_
      simp only [← Nat.cast_mul]
      omega
    exact ⟨hfar.le, fun he => absurd he hfar.ne⟩

theorem roundPattern_lt (num den : Nat) : roundPattern num den < 2 ^ 31 := (roundPattern_le num den).trans_lt (by decide)

theorem roundPattern_roundedOnce (negative : Bool) (num : Nat) {den : Nat} (hd : 0 < den) :
    RoundedOnce negative num den (withSign negative (roundPattern num den)) := by
  have hp := roundPattern_lt num den
  refine ⟨signBit_withSign negative hp, fun ho => ?_, fun ho => ?_⟩
  · rw [absPattern_withSign negative hp, roundPattern_eq, Nat.min_eq_right ((overflows_iff num hd).1 ho)]
  · rw [overflows_iff num hd, not_le] at ho
    obtain ⟨hm, hm'⟩ := roundedSignificand_bounds num hd
    obtain ⟨hfin, hmag⟩ := withSign_scaled negative hm hm' ho
    rw [roundPattern_eq, Nat.min_eq_left ho.le] at hp ⊢
    refine ⟨hfin, fun u _ => ?_⟩
    rw [hmag, withSign_toNat_mod_two negative hp]
    refine (roundedSignificand_nearest num hd u).imp_right fun h he => (h he).imp_right fun h => ?_
    omega

/-- Settles O53: each operation rounds its exact result by `roundPattern`, which rounds once. -/
theorem arithmeticRoundsOnceToNearestEven : Obligations.ArithmeticRoundsOnceToNearestEven := by
  intro a b ha hb rounded sum
  refine ⟨fun hs => ?_, fun hs => ?_, ?_, fun hz => ?_, rfl⟩
  · rw [fadd_of_isFinite ha hb, if_neg hs]
    exact roundPattern_roundedOnce _ _ Nat.one_pos
  · rw [fadd_of_isFinite ha hb, if_pos hs]
    cases signBit a <;> cases signBit b <;> rfl
  · rw [fmul_of_isFinite ha hb]
    exact roundPattern_roundedOnce _ _ (by positivity)
  · rw [fdiv_of_isFinite ha hb hz]
    exact roundPattern_roundedOnce _ _ (Nat.pos_of_ne_zero hz)

/-! ### Exact results -/

/-- A multiple of 2^e below 2^24 of them loses no bit to rounding. -/
theorem roundedSignificand_exact {n e : Nat} (hn : n < 2 ^ 24) :
    roundedSignificand (n * 2 ^ e) 1 * 2 ^ excessBits (n * 2 ^ e) 1 = n * 2 ^ e := by
  have hke : excessBits (n * 2 ^ e) 1 ≤ e := by
    rcases (excessBits_spec (n * 2 ^ e) Nat.one_pos).2 with h | h
    · omega
    · have hlt : n * 2 ^ e < 2 ^ 24 * 2 ^ e := Nat.mul_lt_mul_of_pos_right hn (by positivity)
      have hpow : 2 ^ excessBits (n * 2 ^ e) 1 < 2 ^ (e + 1) := by
        rw [Nat.pow_succ]
        omega
      exact Nat.lt_succ_iff.1 ((Nat.pow_lt_pow_iff_right (by omega)).1 hpow)
  have hdvd : 1 * 2 ^ excessBits (n * 2 ^ e) 1 ∣ n * 2 ^ e := by
    rw [Nat.one_mul]
    exact Dvd.dvd.mul_left (pow_dvd_pow 2 hke) n
  simpa [roundedSignificand] using roundDivEven_of_dvd (by positivity) hdvd

/-- A multiple of 2^e of 24 bits at most is a binary32 value, and rounding leaves it as it is (00_scope.md R16, R17). -/
theorem roundPattern_exact (negative : Bool) {n e : Nat} (hn : n < 2 ^ 24) (he : e ≤ 253) :
    isFinite (withSign negative (roundPattern (n * 2 ^ e) 1)) = true ∧
      magnitude (withSign negative (roundPattern (n * 2 ^ e) 1)) = n * 2 ^ e := by
  have ho : ¬ overflows (n * 2 ^ e) 1 := by
    have hle : n * 2 ^ e ≤ (2 ^ 24 - 1) * 2 ^ 253 :=
      Nat.mul_le_mul (Nat.le_pred_of_lt hn) (Nat.pow_le_pow_right (by omega) he)
    unfold overflows
    omega
  rw [overflows_iff _ Nat.one_pos, not_le] at ho
  obtain ⟨hm, hm'⟩ := roundedSignificand_bounds (n * 2 ^ e) Nat.one_pos
  rw [roundPattern_eq, Nat.min_eq_left ho.le]
  exact (withSign_scaled negative hm hm' ho).imp_right fun h => h.trans (roundedSignificand_exact hn)

/-- Settles O55: below 2^23 the rounded magnitude is an integer of 24 bits at most, so that `roundPattern` keeps it. -/
theorem roundTAIsExact : Obligations.RoundTAIsExact := by
  refine ⟨fun x => ⟨roundTA_of_isNaN, roundTA_of_isInfinite_or_isZero, fun hx hge => ?_, fun hx hz hlt => ?_⟩, ?_⟩
  · have hz : isZero x = false := by
      rw [← Bool.not_eq_true, isZero_iff_magnitude]
      omega
    rw [roundTA_of_isFinite hx hz, if_pos hge]
  · rw [roundTA_of_isFinite hx hz, if_neg (by omega)]
    obtain ⟨hfin, hmag⟩ := roundPattern_exact (signBit x) (n := (magnitude x + 2 ^ 148) / 2 ^ 149) (e := 149) (by omega)
      (by omega)
    exact ⟨hfin, signBit_withSign _ (roundPattern_lt _ _), hmag⟩
  · decide +kernel

end Sys2Proof.Machine
end

section
/-! SUPPORT. A command from its accept to its end: what the steps have written so far does not depend on how many elements each
took (00_scope.md R11; 40_command_engine.md R146, R147). -/

namespace Sys2Proof.Machine

variable {p : Platform}

/-! ### Bytes of aligned words -/

/-- A byte of an aligned word, from the word read. -/
theorem readByte_eq_byteOfWord (mem : Memory) {a : Word} (ha : a.toNat % 4 = 0) {y : Nat} (hlo : a.toNat ≤ y)
    (hhi : y < a.toNat + 4) : mem.readByte y = byteOfWord (mem.readWord a) (y - a.toNat) := by
  unfold Memory.readWord
  rw [byteOfWord_wordOfBytes (fun k => mem.readByte (byteAddress a k)) (by omega), byteAddress_aligned ha (by omega),
    show a.toNat + (y - a.toNat) = y by omega]

/-- An aligned word depends on its four bytes alone. -/
theorem readWord_congr {m n : Memory} {a : Word} (ha : a.toNat % 4 = 0)
    (h : ∀ y, a.toNat ≤ y → y < a.toNat + 4 → m.readByte y = n.readByte y) : m.readWord a = n.readWord a := by
  have hb (k : Nat) (hk : k < 4) : m.readByte (byteAddress a k) = n.readByte (byteAddress a k) := by
    rw [byteAddress_aligned ha hk]
    exact h _ (by omega) (by omega)
  unfold Memory.readWord
  rw [hb 0 (by omega), hb 1 (by omega), hb 2 (by omega), hb 3 (by omega)]

theorem holdsByte_iff (s : State) (c : Component) (k addr : Nat) :
    holdsByte s c k addr = true ↔
      (elementAddress s c k).toNat ≤ addr ∧ addr < (elementAddress s c k).toNat + 4 := by
  simp [holdsByte]

/-- No byte is in two elements of a running command. -/
theorem holdsByte_unique {s : State} (h : RunFacts p s) {c d : Component} {k l addr : Nat} (hk : k < s.sLen.toNat)
    (hl : l < s.sLen.toNat) (hc : holdsByte s c k addr = true) (hd : holdsByte s d l addr = true) : c = d ∧ k = l := by
  rw [holdsByte_iff] at hc hd
  have hca := elementAddress_aligned h c hk
  have hda := elementAddress_aligned h d hl
  exact elementAddress_inj h hk hl (BitVec.eq_of_toNat_eq (by omega))

/-- A byte of one element is in no other element. -/
theorem holdsByte_of_ne {s : State} (h : RunFacts p s) {c d : Component} {k l y : Nat} (hk : k < s.sLen.toNat)
    (hl : l < s.sLen.toNat) (hne : l ≠ k) (hlo : (elementAddress s c k).toNat ≤ y)
    (hhi : y < (elementAddress s c k).toNat + 4) : holdsByte s d l y = false := by
  rw [← Bool.not_eq_true]
  exact fun hd => hne (holdsByte_unique h hk hl ((holdsByte_iff s c k y).2 ⟨hlo, hhi⟩) hd).2.symm

/-! ### What the steps so far have written -/

/-- The memory of the command that starts in `s` when it has done the elements below `i`: they hold their outputs, and every
other byte is as in `s` (40_command_engine.md R146, R157). -/
structure WrittenBelow (s : State) (i : Nat) (mem : Memory) : Prop where
  wf : mem.wf = true
  written : ∀ c ∈ (shapeOf s.op).writes, ∀ k < i,
    mem.readWord (elementAddress s c k) = commandOutput s.op s.precision (elementInputs s k) c
  kept : ∀ addr, (∀ c ∈ (shapeOf s.op).writes, ∀ k < i, holdsByte s c k addr = false) →
    mem.readByte addr = s.mem.readByte addr

theorem writtenBelow_zero {s : State} {i : Nat} (hi : i = 0) (h : s.mem.wf = true) : WrittenBelow s i s.mem :=
  ⟨h, fun _ _ k hk => by omega, fun _ _ => rfl⟩

/-- There is one such memory: a byte is in an output or as in `s`. -/
theorem WrittenBelow.unique {s : State} {i : Nat} {m n : Memory}
    (ha : ∀ c, ∀ k < i, (elementAddress s c k).toNat % 4 = 0) (hm : WrittenBelow s i m) (hn : WrittenBelow s i n) :
    m = n := by
  refine Memory.ext_of_wf hm.wf hn.wf fun addr => ?_
  by_cases hin : ∃ c ∈ (shapeOf s.op).writes, ∃ k < i, holdsByte s c k addr = true
  · obtain ⟨c, hc, k, hk, hb⟩ := hin
    obtain ⟨hlo, hhi⟩ := (holdsByte_iff s c k addr).1 hb
    rw [readByte_eq_byteOfWord m (ha c k hk) hlo hhi, readByte_eq_byteOfWord n (ha c k hk) hlo hhi,
      hm.written c hc k hk, hn.written c hc k hk]
  · push Not at hin
    have hout : ∀ c ∈ (shapeOf s.op).writes, ∀ k < i, holdsByte s c k addr = false := by simpa using hin
    rw [hm.kept addr hout, hn.kept addr hout]

/-- An element not done yet is as in `s`. -/
theorem WrittenBelow.readWord_above {s : State} (h : RunFacts p s) {i : Nat} {mem : Memory} (hw : WrittenBelow s i mem)
    {k : Nat} (hik : i ≤ k) (hk : k < s.sLen.toNat) (c : Component) :
    mem.readWord (elementAddress s c k) = s.mem.readWord (elementAddress s c k) := by
  exact readWord_congr (elementAddress_aligned h c hk) fun y hlo hhi => hw.kept y fun d _ l hl =>
    holdsByte_of_ne h hk (by omega) (by omega) hlo hhi

/-- The element functions do not read the components that their command does not read (40_command_engine.md R157). -/
theorem outputOf_stepInputs (i : Instr) (q : Precision) (s : State) (j : Nat) (other : Word) {c : Component}
    (hc : c ∈ (shapeOf i).writes) :
    outputOf ((shapeOf i).element q (stepInputs (shapeOf i) s j)) other c =
      commandOutput i q (elementInputs s (s.progress.toNat + j)) c := by
  have he : (shapeOf i).element q (stepInputs (shapeOf i) s j) =
      (shapeOf i).element q (elementInputs s (s.progress.toNat + j)) := by cases i <;> rfl
  rw [he]
  rw [shapeOf_writes] at hc
  cases c with
  | component3 => simp at hc
  | _ => rfl

/-! ### One step of a started command -/

/-- `s` with other memory, lane registers and PROGRESS: all that the steps before the last change. -/
def advanced (s : State) (mem : Memory) (lane : Quad (List Word)) (i : Word) : State :=
  { s with mem := mem, lane := lane, progress := i }

/-- A step from elements below PROGRESS done makes it the elements below PROGRESS + m. -/
theorem WrittenBelow.step {s : State} {mem mem' : Memory} {lane : Quad (List Word)} {i : Word} {m : Nat}
    (h : RunFacts p s) (hm : i.toNat + m ≤ s.sLen.toNat) (hw : WrittenBelow s i.toNat mem) (hwf : mem'.wf = true)
    (hout : ∀ c ∈ (shapeOf s.op).writes, ∀ j < m, mem'.readWord (elementAddress s c (i.toNat + j)) =
      commandOutput s.op s.precision (elementInputs (advanced s mem lane i) (i.toNat + j)) c)
    (hkept : ∀ addr, (∀ c ∈ (shapeOf s.op).writes, ∀ j < m, holdsByte s c (i.toNat + j) addr = false) →
      mem'.readByte addr = mem.readByte addr) : WrittenBelow s (i.toNat + m) mem' := by
  refine ⟨hwf, fun c hc k hk => ?_, fun addr ho => ?_⟩
  · by_cases hki : k < i.toNat
    · rw [← hw.written c hc k hki]
      have hlen : k < s.sLen.toNat := by omega
      exact readWord_congr (elementAddress_aligned h c hlen) fun y hlo hhi => hkept y fun d _ j hj =>
        holdsByte_of_ne h hlen (by omega) (by omega) hlo hhi
    · obtain ⟨j, rfl⟩ : ∃ j, k = i.toNat + j := ⟨k - i.toNat, by omega⟩
      have hin : elementInputs (advanced s mem lane i) (i.toNat + j) = elementInputs s (i.toNat + j) := by
        have hword := hw.readWord_above h (Nat.le_add_right i.toNat j) (by omega)
        exact Quad.ext_get fun d => by cases d <;> exact hword _
      rw [hout c hc j (by omega), hin]
  · rw [hkept addr fun c hc j hj => ho c hc _ (by omega), hw.kept addr fun c hc k hk => ho c hc k (by omega)]

/-- A step that is not the last leaves what a running command has. -/
theorem RunFacts.step {s : State} {mem : Memory} {lane : Quad (List Word)} (h : RunFacts p s) (hwf : mem.wf = true)
    (hl : ∀ c, (lane.get c).length = p.laneWidth) (hne : s.progress + BitVec.ofNat 32 (stepSize p s) ≠ s.sLen) :
    RunFacts p (advanced s mem lane (s.progress + BitVec.ofNat 32 (stepSize p s))) := by
  have hprog := progress_add_toNat h
  have hle := (stepSize_bounds h).2.2
  have hne' : s.progress.toNat + stepSize p s ≠ s.sLen.toNat := fun e => hne (BitVec.eq_of_toNat_eq (hprog.trans e))
  exact
    { width_pos := h.width_pos
      memWf := hwf
      aligned := h.aligned
      range := h.range
      disjoint := h.disjoint
      nw := h.nw
      below := by
        show (s.progress + BitVec.ofNat 32 (stepSize p s)).toNat < s.sLen.toNat
        omega
      multiple := by
        show (s.progress + BitVec.ofNat 32 (stepSize p s)).toNat < s.sNW.toNat →
          (s.progress + BitVec.ofNat 32 (stepSize p s)).toNat % p.laneWidth = 0
        rw [hprog]
        intro hlt
        have hlane : s.progress.toNat < s.sNW.toNat := by omega
        rw [stepSize, if_pos hlane, Nat.add_mod_right]
        exact h.multiple hlane
      lanes := hl }

/-- An engine step with an access that does not complete ends in an abort or in a wait for ever; DONE stays as it was
(60_exceptions.md R231, 70_reset_and_hazards.md R273). -/
theorem engineStep_halts {shape : CommandShape} {s t : State} (h : engineStep p shape s = .next t)
    (hok : stepAccessesOk p shape.reads shape.writes s = false) :
    t.done = s.done ∧ t.inputs = s.inputs ∧ (t.engine = .idle ∨ t.outstanding.isSome = true) := by
  unfold engineStep at h
  simp only at h
  have hr := readPhase_cases (p := p) (accessOrder shape.reads (stepSize p s)) s
  revert hr h
  rcases readPhase p (accessOrder shape.reads (stepSize p s)) s with s1 | ⟨s1, a⟩ | ⟨s1, a⟩ | a
  · rintro h ⟨⟨lane1, rfl⟩, -, hreads⟩
    obtain ⟨⟨lane, hc⟩, -⟩ := computePhase_frame shape.element (stepSize p s) { s with lane := lane1 }
    rw [afterPhase, hc] at h
    have hw := writePhase_cases (p := p) (stepWrites shape.writes (stepSize p s) { s with lane := lane })
      { s with lane := lane }
    revert hw h
    rcases writePhase p (stepWrites shape.writes (stepSize p s) { s with lane := lane }) { s with lane := lane }
      with s2 | ⟨s2, a⟩ | ⟨s2, a⟩ | a
    · rintro - ⟨-, hwrites⟩
      refine absurd ?_ (Bool.eq_false_iff.1 hok)
      simp only [stepAccessesOk, Bool.and_eq_true, List.all_eq_true, beq_iff_eq]
      refine ⟨fun x hx => hreads x hx, fun x hx => ?_⟩
      obtain ⟨hc, hj⟩ := (mem_accessOrder (c := x.1) (j := x.2)).1 hx
      exact hwrites _ (mem_stepWrites.2 ⟨x.1, x.2, hc, hj, rfl⟩)
    · rintro h ⟨pre, v, post, -, -, -, rfl⟩
      cases h
      exact ⟨rfl, rfl, .inl rfl⟩
    · rintro h ⟨pre, post, -, -, -, -, rfl⟩
      cases h
      exact ⟨rfl, rfl, .inr rfl⟩
    · intro h
      simp [afterPhase] at h
  · rintro h ⟨⟨lane, rfl⟩, -⟩
    cases h
    exact ⟨rfl, rfl, .inl rfl⟩
  · rintro h ⟨⟨lane, rfl⟩, -⟩
    cases h
    exact ⟨rfl, rfl, .inr rfl⟩
  · intro h
    simp [afterPhase] at h

/-! ### All the steps of a started command -/

/-- A property that every step keeps holds after a run. -/
theorem run_keeps {P : State → Prop} (hstep : ∀ u v, P u → stepOn p u = .next v → P v) (n : Nat) {s t : State} (hs : P s)
    (h : (machineOn p).run n s = .next t) : P t := by
  induction n generalizing s with
  | zero =>
    cases h
    exact hs
  | succ n ih =>
    simp only [Host.Core.run] at h
    rcases hn : (machineOn p).step s with u | r | r <;> simp only [hn, reduceCtorEq] at h
    exact ih (hstep s u hs hn) h

/-- With no event to come, an engine that is IDLE or waits for ever changes nothing (60_exceptions.md R246). -/
theorem stepOn_of_not_canStep {s : State} (hi : s.inputs = []) (h : s.engine = .idle ∨ s.outstanding.isSome = true) :
    stepOn p s = .next s := by
  obtain ⟨-, he⟩ | ⟨e, rest, he, -⟩ := step_cases (p := p) s
  · rw [he]
    obtain ⟨-, ht⟩ | ⟨-, hr, ht⟩ := engineTurn_cases (p := p) s
    · exact ht
    · rw [ht, exec_stuck hr (h.resolve_left (by simp [hr]))]
  · rw [hi] at he
    cases he

/-- With no event to come, a running engine takes its next step. -/
theorem stepOn_of_run {s : State} (hi : s.inputs = []) (hr : s.resetHeld = false) (he : s.engine = .run)
    (ho : s.outstanding = none) : stepOn p s = engineStep p (shapeOf s.op) s := by
  simp [stepOn, hi, engineTurn, hr, he, exec_run he ho]

/-- A command just accepted and not complete yet, with no event to come. -/
structure Started (p : Platform) (s : State) : Prop where
  facts : RunFacts p s
  engine : s.engine = .run
  outstanding : s.outstanding = none
  inputs : s.inputs = []
  resetHeld : s.resetHeld = false
  progress : s.progress = 0#32
  done : s.done = false

/-- Everything that can follow a started command: some elements are done, all are, or an access did not complete. -/
inductive Reached (p : Platform) (s : State) : State → Prop
  | running (mem : Memory) (lane : Quad (List Word)) (i : Word) (hf : RunFacts p (advanced s mem lane i))
      (hw : WrittenBelow s i.toNat mem) : Reached p s (advanced s mem lane i)
  | finished (mem : Memory) (lane : Quad (List Word)) (hw : WrittenBelow s s.sLen.toNat mem) :
      Reached p s (complete (advanced s mem lane s.sLen))
  | halted (u : State) (hd : u.done = false) (hi : u.inputs = []) (hh : u.engine = .idle ∨ u.outstanding.isSome = true) :
      Reached p s u

theorem steppedTo_of_last {s : State} (mem : Memory) (lane : Quad (List Word))
    (h : s.progress + BitVec.ofNat 32 (stepSize p s) = s.sLen) :
    steppedTo p s mem lane = complete (advanced s mem lane s.sLen) := by
  simp [steppedTo, complete, advanced, h]

theorem steppedTo_of_not_last {s : State} (mem : Memory) (lane : Quad (List Word))
    (h : s.progress + BitVec.ofNat 32 (stepSize p s) ≠ s.sLen) :
    steppedTo p s mem lane = advanced s mem lane (s.progress + BitVec.ofNat 32 (stepSize p s)) := by
  simp [steppedTo, advanced, h]

/-- A step whose accesses all complete does its elements: the last one completes the command. -/
theorem reached_of_completed_step {s : State} (hs : Started p s) {mem : Memory} {lane : Quad (List Word)} {i : Word}
    (hf : RunFacts p (advanced s mem lane i)) (hw : WrittenBelow s i.toNat mem)
    (hok : stepAccessesOk p (shapeOf s.op).reads (shapeOf s.op).writes (advanced s mem lane i) = true) :
    ∃ v, engineStep p (shapeOf s.op) (advanced s mem lane i) = .next v ∧ Reached p s v := by
  have hnodup : (shapeOf s.op).writes.Nodup := by rw [shapeOf_writes]; decide
  obtain ⟨mem', lane', hstep, hwf, hl, hout, hkept⟩ := engineStep_completes hf hnodup hok
  have hnext : (i + BitVec.ofNat 32 (stepSize p (advanced s mem lane i))).toNat =
      i.toNat + stepSize p (advanced s mem lane i) := progress_add_toNat hf
  have hw' : WrittenBelow s (i.toNat + stepSize p (advanced s mem lane i)) mem' :=
    hw.step hs.facts (stepSize_bounds hf).2.2 hwf
      (fun c hc j hj => (hout c hc j hj).trans (outputOf_stepInputs s.op s.precision _ j _ hc)) hkept
  rw [← hnext] at hw'
  refine ⟨_, hstep, ?_⟩
  by_cases hend : i + BitVec.ofNat 32 (stepSize p (advanced s mem lane i)) = s.sLen
  · rw [steppedTo_of_last mem' lane' hend]
    exact .finished mem' lane' (hend ▸ hw')
  · rw [steppedTo_of_not_last mem' lane' hend]
    exact .running mem' lane' _ (hf.step hwf hl hend) hw'

/-- Every step from a state that can follow a started command leads to one. -/
theorem reached_step {s u v : State} (hs : Started p s) (hu : Reached p s u) (h : stepOn p u = .next v) :
    Reached p s v := by
  cases hu with
  | running mem lane i hf hw =>
    rw [stepOn_of_run (s := advanced s mem lane i) hs.inputs hs.resetHeld hs.engine hs.outstanding] at h
    cases hok : stepAccessesOk p (shapeOf s.op).reads (shapeOf s.op).writes (advanced s mem lane i) with
    | true =>
      obtain ⟨w, hstep, hw⟩ := reached_of_completed_step hs hf hw hok
      cases hstep.symm.trans h
      exact hw
    | false =>
      obtain ⟨hd, hi, hh⟩ := engineStep_halts h hok
      exact .halted v (hd.trans hs.done) (hi.trans hs.inputs) hh
  | finished mem lane hw =>
    cases (stepOn_of_not_canStep (s := complete (advanced s mem lane s.sLen)) hs.inputs (.inl rfl)).symm.trans h
    exact .finished mem lane hw
  | halted _ hd hi hh =>
    cases (stepOn_of_not_canStep hi hh).symm.trans h
    exact .halted u hd hi hh

/-! ### A completed command -/

/-- What a completed command leaves, in terms of the state in which it starts: no lane register and no lane width is in it. -/
structure CompletedFrom (s t : State) : Prop where
  memory : WrittenBelow s s.sLen.toNat t.mem
  progress : t.progress = s.sLen
  kScale : t.kScale = s.kScale

theorem Started.completedFrom {s t : State} (hs : Started p s) (n : Nat) (h : (machineOn p).run n s = .next t)
    (hd : t.done = true) : CompletedFrom s t := by
  have hstart : Reached p s s := by
    have hzero : s.progress.toNat = 0 := by rw [hs.progress]; rfl
    exact .running s.mem s.lane s.progress hs.facts (writtenBelow_zero hzero hs.facts.memWf)
  cases run_keeps (fun u v => reached_step hs) n hstart h with
  | running mem lane i hf hw => exact absurd hd (by simp [advanced, hs.done])
  | finished mem lane hw => exact ⟨hw, rfl, rfl⟩
  | halted _ hd' _ _ => exact absurd hd (by simp [hd'])

/-- With no event to come, a run from an engine that is IDLE ends where it starts. -/
theorem run_of_idle {s t : State} (hi : s.inputs = []) (he : s.engine = .idle) (n : Nat)
    (h : (machineOn p).run n s = .next t) : t = s := by
  refine run_keeps (P := (· = s)) (fun u v hu hv => ?_) n rfl h
  rw [hu, stepOn_of_not_canStep hi (.inl he)] at hv
  exact (Host.Outcome.next.inj hv).symm

/-! ### From the accept -/

theorem legal_memWf {s : State} (h : legal p s = true) : s.mem.wf = true := by
  simp only [legal, Bool.and_eq_true] at h
  obtain ⟨⟨⟨⟨⟨⟨⟨⟨⟨⟨-, hm⟩, -⟩, -⟩, -⟩, -⟩, -⟩, -⟩, -⟩, -⟩, -⟩ := h
  exact hm

/-- An accept whose checks pass starts a running command with all that a running command has (40_command_engine.md R135). -/
theorem started_of_accept {i : Instr} {k : Bool} {s : State} (hl : legal p s = true) (he : s.engine = .idle)
    (hr : s.resetHeld = false) (hi : s.inputs = []) (hc : checkCommand k (beginAccept (encode i) s) = .none)
    (hz : s.compLen.c0 ≠ 0#32) :
    Started p { beginAccept (encode i) s with
      op := i, sNW := laneEnd p.laneWidth s.compLen.c0, engine := .run, memAtAccept := s.mem } := by
  have hpos : 0 < s.compLen.c0.toNat := Nat.pos_of_ne_zero fun h => hz (BitVec.eq_of_toNat_eq h)
  obtain ⟨-, -, -, -, hbuf⟩ := checkCommand_none hc
  obtain ⟨ha, hrange, hdisj⟩ := hbuf.resolve_left hz
  simp only [legal, Bool.and_eq_true] at hl
  obtain ⟨⟨⟨⟨⟨⟨⟨⟨⟨⟨hp, hm⟩, -⟩, -⟩, -⟩, hlanes⟩, hout⟩, -⟩, -⟩, -⟩, -⟩ := hl
  simp only [Platform.wellFormed, Platform.laneWidthInRange, Bool.and_eq_true, decide_eq_true_eq] at hp
  exact
    { facts :=
        { width_pos := hp.1.1
          memWf := hm
          aligned := (basesAligned_iff _).1 ha
          range := (regionsInRange_iff _).1 hrange
          disjoint := (regionsDisjoint_iff _ hpos).1 hdisj
          nw := rfl
          below := hpos
          multiple := fun _ => Nat.zero_mod _
          lanes := (lanesLegal_iff s).1 hlanes }
      engine := rfl
      outstanding := by
        cases ho : s.outstanding with
        | none => exact ho
        | some a => simp [outstandingLegal, ho, busy, he] at hout
      inputs := hi
      resetHeld := hr
      progress := rfl
      done := rfl }

/-- A command accepted in a legal state that ends with DONE: what it leaves is fixed by the state after the accept, and its
elements are aligned words. -/
theorem accept_completedFrom {i : Instr} {k : Bool} {s t : State} (hl : legal p s = true) (he : s.engine = .idle)
    (hr : s.resetHeld = false) (hi : s.inputs = []) (n : Nat) (h : (machineOn p).run n (accept p i k s) = .next t)
    (hd : t.done = true) :
    CompletedFrom (accept p i k s) t ∧
      ∀ c, ∀ j < (accept p i k s).sLen.toNat, (elementAddress (accept p i k s) c j).toNat % 4 = 0 := by
  obtain ⟨code, -, -, heq⟩ | ⟨-, hz, heq⟩ | ⟨hc, hz, heq⟩ := accept_cases (p := p) i k s
  · rw [heq] at h
    have ht : t = raiseError code 0#32 (beginAccept (encode i) s) := run_of_idle hi rfl n h
    rw [ht] at hd
    cases hd
  · rw [heq] at h ⊢
    have hlen : s.compLen.c0.toNat = 0 := by rw [hz]; rfl
    have hm : s.mem.wf = true := legal_memWf hl
    have ht : t = { beginAccept (encode i) s with
        op := i, sNW := laneEnd p.laneWidth s.compLen.c0, done := true } := run_of_idle hi he n h
    rw [ht]
    exact ⟨⟨writtenBelow_zero hlen hm, hz.symm, rfl⟩, fun c j hj => absurd hj (by simp [hlen])⟩
  · rw [heq] at h ⊢
    have hs := started_of_accept hl he hr hi hc hz
    exact ⟨hs.completedFrom n h hd, fun c j hj => elementAddress_aligned hs.facts c hj⟩

theorem accept_of_check_failed {i : Instr} {k : Bool} {s : State}
    (h : checkCommand k (beginAccept (encode i) s) ≠ .none) :
    accept p i k s = raiseError (checkCommand k (beginAccept (encode i) s)) 0#32 (beginAccept (encode i) s) := by
  simp [accept, h]

theorem accept_of_check_passed {i : Instr} {k : Bool} {s : State}
    (h : checkCommand k (beginAccept (encode i) s) = .none) :
    accept p i k s = startCommand p i (beginAccept (encode i) s) := by
  simp [accept, h]

/-- The lane registers and W reach S_NW alone in an accept (10_state.md R54; 40_command_engine.md R131). -/
theorem accept_lane (p p' : Platform) (i : Instr) (k : Bool) (s : State) (lane : Quad (List Word)) :
    ∃ nw, accept p' i k { s with lane := lane } = { accept p i k s with lane := lane, sNW := nw } := by
  by_cases hc : checkCommand k (beginAccept (encode i) s) = .none
  · rw [accept_of_check_passed hc, accept_of_check_passed (s := { s with lane := lane }) hc]
    refine ⟨laneEnd p'.laneWidth s.compLen.c0, ?_⟩
    by_cases hz : s.compLen.c0 = 0#32
    · simp [startCommand, hz, beginAccept, latchShadows]
    · simp [startCommand, hz, beginAccept, latchShadows]
  · rw [accept_of_check_failed hc, accept_of_check_failed (s := { s with lane := lane }) hc]
    exact ⟨s.sNW, rfl⟩

/-- Settles O51: what a completed command leaves is fixed by the state after its accept up to lane registers and S_NW, which
is all that the lane width changes there. -/
theorem resultsDoNotDependOnLaneWidth : Obligations.ResultsDoNotDependOnLaneWidth := by
  intro p p' i s s' s0 s0' t t' n n' hl _ hs' hl' he hr hi h0 h0' hrun hrun' hd hd'
  rw [exec_idle he] at h0
  rw [exec_idle (by rw [hs']; exact he)] at h0'
  cases h0
  cases h0'
  obtain ⟨hdone, halign⟩ := accept_completedFrom hl he hr hi n hrun hd
  obtain ⟨hdone', -⟩ := accept_completedFrom hl' (by rw [hs']; exact he) (by rw [hs']; exact hr) (by rw [hs']; exact hi)
    n' hrun' hd'
  obtain ⟨nw, hnw⟩ := accept_lane p p' i (shapeOf i).checksKScale s s'.lane
  rw [← hs'] at hnw
  rw [hnw] at hdone'
  have hmem : WrittenBelow (accept p i (shapeOf i).checksKScale s) (accept p i (shapeOf i).checksKScale s).sLen.toNat t'.mem :=
    ⟨hdone'.memory.wf, hdone'.memory.written, hdone'.memory.kept⟩
  exact ⟨hdone.memory.unique halign hmem, hdone.progress.trans hdone'.progress.symm,
    hdone.kScale.trans hdone'.kScale.symm⟩

end Sys2Proof.Machine
end

section
/-! SUPPORT. The register window by offset: which register an access selects, what a step does with it, and the values the
registers have after reset (10_state.md R31 to R47; 30_encoding.md R107; 40_command_engine.md R154, R155). -/

namespace Sys2Proof.Machine

variable {p : Platform}

/-! ### Which register an offset selects -/

theorem regOfIndex_of_ge {n : Nat} (h : 18 ≤ n) : regOfIndex n = .reserved := by
  unfold regOfIndex
  split <;> first | omega | rfl

theorem regOffset_regOfIndex {n : Nat} (h : n < 18) : regOffset (regOfIndex n) = 4 * n := by
  interval_cases n <;> rfl

/-- A register other than the reserved ones has one index (10_state.md R31). -/
theorem regOffset_of_regOfIndex {n : Nat} {r : Reg} (h : regOfIndex n = r) (hr : r ≠ .reserved) :
    regOffset r = 4 * n := by
  rcases Nat.lt_or_ge n 18 with hn | hn
  · rw [← h, regOffset_regOfIndex hn]
  · exact absurd (h.symm.trans (regOfIndex_of_ge hn)) hr

theorem regOffset_bounds (r : Reg) : regOffset r < 256 ∧ regOffset r % 4 = 0 := by
  cases r with
  | compBase c => cases c <;> decide
  | compLen c => cases c <;> decide
  | _ => decide

/-- The offset of a register selects it. -/
theorem regOfIndex_regOffset (r : Reg) : regOfIndex (regOffset r / 4) = r := by
  cases r with
  | compBase c => cases c <;> rfl
  | compLen c => cases c <;> rfl
  | _ => rfl

/-- A 32-bit access at an aligned offset selects the register there. -/
theorem portTarget_aligned (p : Platform) {off : Nat} (h : off < 256) (ha : off % 4 = 0) :
    portTarget p 4 (p.blkBase + off) = .register (regOfIndex (off / 4)) := by
  simp [portTarget_inside p 4 h, ha]

theorem portTarget_regOffset (p : Platform) (r : Reg) : portTarget p 4 (p.blkBase + regOffset r) = .register r := by
  rw [portTarget_aligned p (regOffset_bounds r).1 (regOffset_bounds r).2, regOfIndex_regOffset]

/-- An access of the window that is narrow or not aligned selects no register (10_state.md R46). -/
theorem portTarget_slaveError (p : Platform) {size off : Nat} (h : off < 256) (hn : size ≠ 4 ∨ off % 4 ≠ 0) :
    portTarget p size (p.blkBase + off) = .slaveError := by
  rw [portTarget_inside p size h, if_neg]
  simp only [Bool.and_eq_true, beq_iff_eq]
  omega

/-- An access that selects a register other than the reserved ones is 32 bits wide and at its offset. -/
theorem portTarget_eq_register {size addr : Nat} {r : Reg} (h : portTarget p size addr = .register r)
    (hr : r ≠ .reserved) : size = 4 ∧ addr = p.blkBase + regOffset r := by
  have hin : ¬ (addr < p.blkBase ∨ p.blkBase + 256 ≤ addr) := fun ho => by simp [portTarget_outside.2 ho] at h
  obtain ⟨off, rfl⟩ : ∃ off, addr = p.blkBase + off := ⟨addr - p.blkBase, by omega⟩
  rw [portTarget_inside p size (by omega)] at h
  split at h
  · next ha =>
    simp only [Bool.and_eq_true, beq_iff_eq] at ha
    have := regOffset_of_regOfIndex (PortTarget.register.inj h) hr
    exact ⟨ha.1, by omega⟩
  · cases h

/-! ### Steps of the register port -/

/-- A write of a register other than CMD, as a step. -/
theorem stepOn_portWrite {s : State} {size addr : Nat} {v : Word} {es : List HostEvent} {r : Reg}
    (hi : s.inputs = .portWrite size addr v :: es) (hr : s.resetHeld = false)
    (ht : portTarget p size addr = .register r) (hc : r ≠ .cmd) :
    stepOn p s = .next (writeRegister r v ((s.setInputs es).setResponse .written)) := by
  simp only [stepOn, hi, performEvent, portWrite, State.setInputs_resetHeld, hr, ht]
  cases r with
  | cmd => exact absurd rfl hc
  | _ => rfl

/-- A write of CMD, as a step. -/
theorem stepOn_commandWrite {s : State} {w : Word} {es : List HostEvent}
    (hi : s.inputs = .portWrite 4 (p.blkBase + 0x08) w :: es) (hr : s.resetHeld = false) :
    stepOn p s = commandWrite p w ((s.setInputs es).setResponse .written) := by
  have ht : portTarget p 4 (p.blkBase + 0x08) = .register .cmd := portTarget_regOffset p .cmd
  simp [stepOn, hi, performEvent, portWrite, hr, ht]

/-- A read of a register, as a step. -/
theorem stepOn_portRead {s : State} {size addr : Nat} {es : List HostEvent} {r : Reg}
    (hi : s.inputs = .portRead size addr :: es) (hr : s.resetHeld = false)
    (ht : portTarget p size addr = .register r) :
    stepOn p s = .next ((s.setInputs es).setResponse (.data (readRegister p r (s.setInputs es)))) := by
  simp [stepOn, hi, performEvent, portRead, hr, ht]

/-- An access that is a slave error, as a step. -/
theorem stepOn_of_slaveError {s : State} {size addr : Nat} {v : Word} {es : List HostEvent}
    (hi : s.inputs = .portRead size addr :: es ∨ s.inputs = .portWrite size addr v :: es) (hr : s.resetHeld = false)
    (ht : portTarget p size addr = .slaveError) :
    stepOn p s = .next ((s.setInputs es).setResponse .slaveError) := by
  rcases hi with hi | hi
  · simp [stepOn, hi, performEvent, portRead, hr, ht]
  · simp [stepOn, hi, performEvent, portWrite, hr, ht]

/-- A STATUS write leaves the events to come and the response. -/
theorem writeStatus_answered (v : Word) (s : State) (es : List HostEvent) (r : Response) :
    writeStatus v ((s.setInputs es).setResponse r) = { s with
      inputs := es
      response := r
      done := s.done && !v.getLsbD 1
      err := s.err && !v.getLsbD 2
      errCode := if v.getLsbD 2 then .none else s.errCode
      errAddr := if v.getLsbD 2 then 0#32 else s.errAddr
      ovr := s.ovr && !v.getLsbD 3 } :=
  writeStatus_eq v _

/-- Settles O25: the step is a write of the register at offset 0x0C, which is STATUS. -/
theorem statusWriteClearsByBits : Obligations.StatusWriteClearsByBits := by
  intro p s es v hi hr
  rw [stepOn_portWrite hi hr (portTarget_regOffset p .status) (by decide)]
  exact congrArg Host.Outcome.next (writeStatus_answered v s es .written)

/-- The registers that a write leaves alone (10_state.md R45). -/
def ignoresWrites : Reg → Bool
  | .id | .param | .kScale | .progress | .errAddr | .reserved => true
  | _ => false

theorem writeRegister_of_ignoresWrites {r : Reg} (h : ignoresWrites r = true) (v : Word) (s : State) :
    writeRegister r v s = s := by
  cases r <;> first | rfl | cases h

/-- The read-only registers and the reserved offsets, by offset (10_state.md R31, R45). -/
theorem ignoresWrites_regOfIndex {off : Nat} (h : off ∈ [0x00, 0x04, 0x1C, 0x40, 0x44] ∨ 0x48 ≤ off) :
    ignoresWrites (regOfIndex (off / 4)) = true := by
  rcases h with h | h
  · simp only [List.mem_cons, List.not_mem_nil, or_false] at h
    rcases h with rfl | rfl | rfl | rfl | rfl <;> rfl
  · rw [regOfIndex_of_ge (by omega)]
    rfl

/-- Settles O27: the offset selects a register that ignores writes, and one from 0x48 on a register that reads 0. -/
theorem reservedAndReadOnlyWritesIgnored : Obligations.ReservedAndReadOnlyWritesIgnored := by
  intro p s es off v hr hlt ha
  have ht := portTarget_aligned p hlt ha
  refine ⟨fun ho hi => ?_, fun ho hi => ?_⟩
  · have hw := ignoresWrites_regOfIndex ho
    rw [stepOn_portWrite hi hr ht (fun hc => by simp [hc, ignoresWrites] at hw), writeRegister_of_ignoresWrites hw]
    rfl
  · rw [stepOn_portRead hi hr ht, regOfIndex_of_ge (by omega)]
    rfl

/-- Settles O28: such an access selects no register. -/
theorem narrowOrMisalignedAccessIsSlaveError : Obligations.NarrowOrMisalignedAccessIsSlaveError := by
  intro p s es size off v hr hlt hn
  have ht := portTarget_slaveError p hlt hn
  exact ⟨fun hi => stepOn_of_slaveError (v := v) (.inl hi) hr ht, fun hi => stepOn_of_slaveError (.inr hi) hr ht⟩

/-! ### The registers after reset -/

theorem paramWord_toNat (h : p.laneWidthInRange = true) : (paramWord p).toNat = 0x00010000 + p.laneWidth := by
  simp only [Platform.laneWidthInRange, Bool.and_eq_true, decide_eq_true_eq] at h
  have hw : (BitVec.ofNat 16 p.laneWidth).toNat = p.laneWidth := by
    rw [BitVec.toNat_ofNat]
    omega
  rw [paramWord, BitVec.toNat_append, hw, ← Nat.shiftLeft_add_eq_or_of_lt (by omega)]
  rfl

theorem statusWord_resetOn (p : Platform) : statusWord (State.resetOn p) = 0#32 := by
  show (errorCodeBits .none ++ 0#4 ++ flagBit false ++ flagBit false ++ flagBit false ++ flagBit false).setWidth 32 = 0#32
  decide

/-- Every register but the two constants reads 0 after reset (10_state.md R60). -/
theorem readRegister_resetOn {r : Reg} (hid : r ≠ .id) (hparam : r ≠ .param) :
    readRegister p r (State.resetOn p) = 0#32 := by
  cases r with
  | id => exact absurd rfl hid
  | param => exact absurd rfl hparam
  | compBase c => exact Quad.get_const _ c
  | compLen c => exact Quad.get_const _ c
  | status => exact statusWord_resetOn p
  | _ => rfl

/-- Settles O43: ID and PARAM, at offsets 0 and 4, are constants of the platform, and every other register is 0. -/
theorem resetRegistersReadTheirValues : Obligations.ResetRegistersReadTheirValues := by
  intro p off hp hlt ha
  refine ⟨?_, rfl, rfl⟩
  by_cases h0 : off = 0
  · subst h0
    rfl
  by_cases h4 : off = 4
  · subst h4
    exact paramWord_toNat hp
  have hother {r : Reg} (hr : r ≠ .reserved) (ho : regOffset r ≠ off) : regOfIndex (off / 4) ≠ r := fun h => by
    have := regOffset_of_regOfIndex h hr
    omega
  rw [if_neg h0, if_neg h4, readRegister_resetOn (hother (by decide) (Ne.symm h0)) (hother (by decide) (Ne.symm h4))]
  rfl

end Sys2Proof.Machine
end

section
/-! SUPPORT. Everything a step can do, said once for the invariants of the whole machine (60_exceptions.md R233). -/

namespace Sys2Proof.Machine

variable {p : Platform}

/-- A word that decodes to a command is its encoding (30_encoding.md R106). -/
theorem encode_of_decode {w : Word} {i : Instr} (h : decode w = .ok i) : encode i = w := by
  have hw : wordOfFields (commandFields w) = w := by
    show w.extractLsb' 4 28 ++ w.extractLsb' 0 4 = w
    rw [BitVec.extractLsb'_append_extractLsb'_eq_extractLsb' (by rfl)]
    exact BitVec.extractLsb'_eq_self
  have hfields : commandFields w = i.fields := by
    rw [decode] at h
    split at h
    · next hr =>
      have hrow : (commandFields w).opc = i.fields.opc := by
        unfold opcodeRow at h
        split_ifs at h with h1 h2 h3 h4 <;> cases h <;> assumption
      have hzero : (commandFields w).rsvd = i.fields.rsvd := by
        rw [beq_iff_eq.1 hr]
        cases i <;> rfl
      calc commandFields w = ⟨(commandFields w).opc, (commandFields w).rsvd⟩ := rfl
        _ = i.fields := by rw [hrow, hzero]
    · cases h
  rw [encode, ← hfields, hw]

/-- `s` with everything replaced that an event of the host alone changes: the data space, the host's caches, the events to
come, the response and the count of free choices. -/
def hostSide (s : State) (mem : Memory) (cache : List CachedWord) (es : List HostEvent) (r : Response) (n : Nat) : State :=
  { s with mem := mem, hostCache := cache, inputs := es, response := r, freeCount := n }

/-- `s` as the register port leaves it when it answers a write, before what the write does. -/
def writeAnswered (s : State) (es : List HostEvent) : State := (s.setInputs es).setResponse .written

/-- Everything a step from `s` can lead to. -/
inductive StepOutcome (p : Platform) (s : State) : State → Prop
  /-- Reads, `wait`, slave errors, host accesses of the data space and of the caches, and a turn of an engine that is IDLE. -/
  | host (mem : Memory) (cache : List CachedWord) (es : List HostEvent) (r : Response) (n : Nat)
      (hmem : s.mem.wf = true → mem.wf = true)
      (hcache : cacheLegal p s = true → cacheLegal p (hostSide s mem cache es r n) = true) :
      StepOutcome p s (hostSide s mem cache es r n)
  | wrote (r : Reg) (size addr : Nat) (v : Word) (es : List HostEvent) (hi : s.inputs = .portWrite size addr v :: es)
      (ht : portTarget p size addr = .register r) (hr : r ≠ .cmd) :
      StepOutcome p s (writeRegister r v (writeAnswered s es))
  | overran (w : Word) (es : List HostEvent) (hi : s.inputs = .portWrite 4 (p.blkBase + 0x08) w :: es)
      (he : s.engine = .run) : StepOutcome p s (overrun (writeAnswered s es))
  | accepted (i : Instr) (es : List HostEvent) (hi : s.inputs = .portWrite 4 (p.blkBase + 0x08) (encode i) :: es)
      (hr : s.resetHeld = false) (he : s.engine = .idle) :
      StepOutcome p s (accept p i (shapeOf i).checksKScale (writeAnswered s es))
  | rejected (w : Word) (es : List HostEvent) (hi : s.inputs = .portWrite 4 (p.blkBase + 0x08) w :: es)
      (he : s.engine = .idle) : StepOutcome p s (acceptIllegal w (writeAnswered s es))
  | ran (es : List HostEvent) (t : State) (hr : s.resetHeld = false) (he : s.engine = .run)
      (hx : execOn p s.op (s.setInputs es) = .next t) : StepOutcome p s t
  | reset (n : Nat) (landed : Bool) (es : List HostEvent) (hi : s.inputs = .assertReset n landed :: es) :
      StepOutcome p s (resetAsserted p n landed (s.setInputs es))
  | released (es : List HostEvent) : StepOutcome p s (resetReleased (s.setInputs es))

/-- An event that only answers the host. -/
theorem StepOutcome.answered (p : Platform) (s : State) (es : List HostEvent) (r : Response) :
    StepOutcome p s ((s.setInputs es).setResponse r) :=
  .host s.mem s.hostCache es r s.freeCount id id

theorem cacheLegal_iff (s : State) :
    cacheLegal p s = true ↔ cacheWfFrom 0 s.hostCache = true ∧ (p.coherent = true → s.hostCache = []) := by
  cases hc : p.coherent <;> simp [cacheLegal, hc]

/-! ### One lemma for each kind of event -/

theorem engineTurn_outcome {s t : State} {es : List HostEvent} (h : engineTurn p (s.setInputs es) = .next t) :
    StepOutcome p s t := by
  obtain ⟨-, ht⟩ | ⟨hr, he, ht⟩ := engineTurn_cases (p := p) (s.setInputs es)
  · cases ht.symm.trans h
    exact .answered p s es s.response
  · exact .ran es t hr he (ht.symm.trans h)

theorem portRead_outcome {s t : State} {es : List HostEvent} {size addr : Nat}
    (h : portRead p size addr (s.setInputs es) = .next t) : StepOutcome p s t := by
  obtain ⟨-, ht⟩ | ⟨-, ⟨-, ht⟩ | ⟨-, ht⟩ | ⟨r, -, ht⟩⟩ := portRead_cases (p := p) size addr (s.setInputs es) <;>
    cases ht.symm.trans h
  · exact .answered p s es _
  · exact .answered p s es _

theorem commandWrite_outcome {s t : State} {es : List HostEvent} {w : Word}
    (hi : s.inputs = .portWrite 4 (p.blkBase + 0x08) w :: es) (hr : s.resetHeld = false)
    (h : commandWrite p w (writeAnswered s es) = .next t) : StepOutcome p s t := by
  obtain ⟨he, ht⟩ | ⟨he, i, hd, ht⟩ | ⟨he, -, ht⟩ := commandWrite_cases (p := p) w (writeAnswered s es) <;>
    cases ht.symm.trans h
  · exact .overran w es hi he
  · rw [← encode_of_decode hd] at hi
    exact .accepted i es hi hr he
  · exact .rejected w es hi he

theorem portWrite_outcome {s t : State} {es : List HostEvent} {size addr : Nat} {v : Word}
    (hi : s.inputs = .portWrite size addr v :: es) (h : portWrite p size addr v (s.setInputs es) = .next t) :
    StepOutcome p s t := by
  obtain ⟨-, ht⟩ | ⟨hr, ⟨-, ht⟩ | ⟨-, ht⟩ | ⟨hreg, ht⟩ | ⟨r, hc, hreg, ht⟩⟩ :=
    portWrite_cases (p := p) size addr v (s.setInputs es)
  · cases ht.symm.trans h
  · cases ht.symm.trans h
  · cases ht.symm.trans h
    exact .answered p s es _
  · obtain ⟨rfl, rfl⟩ := portTarget_eq_register hreg (by decide)
    exact commandWrite_outcome hi hr (ht.symm.trans h)
  · cases ht.symm.trans h
    exact .wrote r size addr v es hi hreg hc

theorem waitRound_outcome {s t : State} {es : List HostEvent} (h : waitRound (s.setInputs es) = .next t) :
    StepOutcome p s t := by
  obtain ⟨-, ht⟩ | ⟨-, -, ht⟩ | ⟨-, -, ht⟩ := waitRound_cases (s.setInputs es) <;> cases ht.symm.trans h
  · exact .answered p s es _
  · exact .answered p s (.engineTurn :: .wait :: es) _

theorem hostRead_outcome {s t : State} {es : List HostEvent} {addr count : Nat}
    (h : hostRead p addr count (s.setInputs es) = .next t) : StepOutcome p s t := by
  obtain ⟨-, ht⟩ | ⟨hin, ht⟩ := hostRead_cases (p := p) addr count (s.setInputs es) <;> cases ht.symm.trans h
  refine .host s.mem _ es _ _ id fun hl => ?_
  rw [cacheLegal_iff] at hl ⊢
  cases hc : p.coherent with
  | true => simpa [hostSide, hc] using hl
  | false => simpa [hostSide, hc] using cacheWfFrom_cacheFill _ hl.1 hin

theorem hostWrite_outcome {s t : State} {es : List HostEvent} {addr : Nat} {bytes : List Byte}
    (h : hostWrite p addr bytes (s.setInputs es) = .next t) : StepOutcome p s t := by
  obtain ⟨-, ht⟩ | ⟨-, -, ht⟩ | ⟨hin, -, ⟨-, ht⟩ | ⟨hc, ht⟩⟩ := hostWrite_cases (p := p) addr bytes (s.setInputs es) <;>
    cases ht.symm.trans h
  · exact .host _ s.hostCache es _ s.freeCount (fun hm => Memory.wf_writeBytes bytes hm hin) id
  · refine .host s.mem _ es _ s.freeCount id fun hl => ?_
    rw [cacheLegal_iff] at hl ⊢
    simpa [hostSide, hc] using cacheWfFrom_cacheWrite _ hl.1 hin

theorem cacheClean_outcome {s t : State} {es : List HostEvent} {addr count : Nat}
    (h : cacheClean addr count (s.setInputs es) = .next t) : StepOutcome p s t := by
  obtain ⟨-, ht⟩ | ⟨-, ht⟩ := cacheClean_cases addr count (s.setInputs es) <;> cases ht.symm.trans h
  refine .host _ _ es s.response s.freeCount (fun hm => writeBack_wf _ hm) fun hl => ?_
  rw [cacheLegal_iff] at hl ⊢
  exact ⟨cacheWfFrom_cacheCleaned addr count hl.1, fun hc => by simp [hostSide, hl.2 hc, cacheCleaned]⟩

theorem cacheInvalidate_outcome (s : State) (es : List HostEvent) (addr count : Nat) :
    StepOutcome p s (cacheInvalidate addr count (s.setInputs es)) := by
  refine .host s.mem (cacheDropped addr count s.hostCache) es s.response s.freeCount id fun hl => ?_
  rw [cacheLegal_iff] at hl ⊢
  exact ⟨cacheWfFrom_cacheDropped addr count hl.1, fun hc => by simp [hostSide, hl.2 hc, cacheDropped]⟩

/-- A step that answers a next state answers one of the outcomes. -/
theorem stepOn_outcome {s t : State} (h : stepOn p s = .next t) : StepOutcome p s t := by
  obtain ⟨hi, hs⟩ | ⟨e, es, hi, hs⟩ := step_cases (p := p) s
  · exact engineTurn_outcome (es := s.inputs) (hs.symm.trans h)
  · replace h := hs.symm.trans h
    cases e with
    | portRead size addr => exact portRead_outcome h
    | portWrite size addr v => exact portWrite_outcome hi h
    | engineTurn => exact engineTurn_outcome h
    | wait => exact waitRound_outcome h
    | memRead addr count => exact hostRead_outcome h
    | memWrite addr bytes => exact hostWrite_outcome h
    | assertReset n landed => cases h; exact .reset n landed es hi
    | releaseReset => cases h; exact .released es
    | cacheClean addr count => exact cacheClean_outcome h
    | cacheInvalidate addr count => cases h; exact cacheInvalidate_outcome s es addr count

/-! ### What an accept alone changes -/

/-- LAST_CMD, the shadows with K_SCALE, S_NW and op are in `t` as in `s` (10_state.md R34, R49, R51 to R54). -/
def SameCommand (s t : State) : Prop :=
  t.lastCmd = s.lastCmd ∧ t.sMax = s.sMax ∧ t.sHalf = s.sHalf ∧ t.sKScale = s.sKScale ∧ t.kScale = s.kScale ∧
    t.sBase = s.sBase ∧ t.sLen = s.sLen ∧ t.sNW = s.sNW ∧ t.op = s.op

theorem SameCommand.of_writeRegister (r : Reg) (v : Word) (s : State) : SameCommand s (writeRegister r v s) := by
  obtain ⟨-, hop, hmax, hhalf, hks, hbase, hlen, hnw, -, hk, hcmd, -⟩ := writeRegister_frame r v s
  exact ⟨hcmd, hmax, hhalf, hks, hk, hbase, hlen, hnw, hop⟩

/-- An engine step changes none of them, however it ends. -/
theorem SameCommand.of_engineStep {shape : CommandShape} {s t : State} (h : engineStep p shape s = .next t) :
    SameCommand s t := by
  obtain ⟨lane, addr, rfl, -⟩ | ⟨lane, a, rfl, -⟩ | ⟨lane, s1, -, -, -, ⟨pre, addr, v, post, -, rfl⟩ |
    ⟨pre, a, post, -, -, -, rfl⟩ | rfl⟩ := engineStep_cases h <;>
    exact ⟨rfl, rfl, rfl, rfl, rfl, rfl, rfl, rfl, rfl⟩

theorem SameCommand.of_exec_run {i : Instr} {s t : State} (he : s.engine = .run) (h : execOn p i s = .next t) :
    SameCommand s t := by
  cases ho : s.outstanding with
  | none => exact of_engineStep ((exec_run he ho).symm.trans h)
  | some a =>
    cases (exec_stuck he (by rw [ho]; rfl)).symm.trans h
    exact ⟨rfl, rfl, rfl, rfl, rfl, rfl, rfl, rfl, rfl⟩

/-- An accept stores the command word, whatever its outcome (40_command_engine.md R131). -/
theorem accept_lastCmd (i : Instr) (k : Bool) (s : State) : (accept p i k s).lastCmd = encode i := by
  obtain ⟨code, -, -, h⟩ | ⟨-, -, h⟩ | ⟨-, -, h⟩ := accept_cases (p := p) i k s <;> rw [h] <;> rfl

/-- A CMD write while IDLE stores its data, whatever its outcome (10_state.md R34). -/
theorem commandWrite_idle_lastCmd {w : Word} {s t : State} (he : s.engine = .idle) (h : commandWrite p w s = .next t) :
    t.lastCmd = w := by
  obtain ⟨hrun, -⟩ | ⟨-, i, hd, ht⟩ | ⟨-, -, ht⟩ := commandWrite_cases (p := p) w s
  · simp [he] at hrun
  · cases ht.symm.trans h
    rw [accept_lastCmd, encode_of_decode hd]
  · cases ht.symm.trans h
    rfl

/-- A register write that answers a state is not made while reset is held (70_reset_and_hazards.md R261). -/
theorem resetHeld_of_portWrite {s t : State} {size addr : Nat} {v : Word} {es : List HostEvent}
    (hi : s.inputs = .portWrite size addr v :: es) (h : stepOn p s = .next t) : s.resetHeld = false := by
  rw [← Bool.not_eq_true]
  intro hr
  simp [stepOn, hi, performEvent, portWrite, hr] at h

/-- Settles O34: of everything a step can do, an accept, a rejection and a reset alone change these registers. -/
theorem lastCommandAndShadowsChangeOnlyAtAccept : Obligations.LastCommandAndShadowsChangeOnlyAtAccept := by
  intro p s t h
  constructor
  · intro w es hi he
    have hr := resetHeld_of_portWrite hi h
    rw [stepOn_commandWrite hi hr] at h
    exact commandWrite_idle_lastCmd (s := writeAnswered s es) he h
  · show SameCommand s t ∨ _
    cases stepOn_outcome h with
    | host mem cache es r n => exact .inl ⟨rfl, rfl, rfl, rfl, rfl, rfl, rfl, rfl, rfl⟩
    | wrote r size addr v es => exact .inl (SameCommand.of_writeRegister r v (writeAnswered s es))
    | overran w es => exact .inl ⟨rfl, rfl, rfl, rfl, rfl, rfl, rfl, rfl, rfl⟩
    | accepted i es hi hr he => exact .inr (.inl ⟨he, _, es, hi⟩)
    | rejected w es hi he => exact .inr (.inl ⟨he, w, es, hi⟩)
    | ran es t hr he hx => exact .inl (SameCommand.of_exec_run (s := s.setInputs es) he hx)
    | reset n landed es hi => exact .inr (.inr ⟨n, landed, es, hi⟩)
    | released es => exact .inl ⟨rfl, rfl, rfl, rfl, rfl, rfl, rfl, rfl, rfl⟩

end Sys2Proof.Machine
end

section
/-! SUPPORT. The invariant of legal states: its parts by name, and what keeps them (10_state.md R35, R40, R43, R44,
R50, R54, R55). -/

namespace Sys2Proof.Machine

variable {p : Platform} {s : State}

/-! ### The parts of a legal state -/

/-- The parts of `legal`, by name. -/
structure LegalParts (p : Platform) (s : State) : Prop where
  platform : p.wellFormed = true
  memWf : s.mem.wf = true
  acceptMemWf : s.memAtAccept.wf = true
  status : statusLegal s = true
  progress : progressLegal s = true
  lanes : lanesLegal p s = true
  outstanding : outstandingLegal p s = true
  kScale : s.kScale = s.sKScale
  running : busy s = true → runLegal p s = true
  held : busy s = true → s.resetHeld = false
  cache : cacheLegal p s = true

theorem legal_iff : legal p s = true ↔ LegalParts p s := by
  simp only [legal, Bool.and_eq_true, Bool.or_eq_true, Bool.not_eq_true', Bool.and_eq_false_iff, beq_iff_eq]
  constructor
  · rintro ⟨⟨⟨⟨⟨⟨⟨⟨⟨⟨hp, hm⟩, ha⟩, hs⟩, hpr⟩, hl⟩, ho⟩, hk⟩, hr⟩, hh⟩, hc⟩
    exact ⟨hp, hm, ha, hs, hpr, hl, ho, hk, fun hb => hr.resolve_left (by simp [hb]),
      fun hb => hh.resolve_left (by simp [hb]), hc⟩
  · rintro ⟨hp, hm, ha, hs, hpr, hl, ho, hk, hr, hh, hc⟩
    cases hb : busy s with
    | false => exact ⟨⟨⟨⟨⟨⟨⟨⟨⟨⟨hp, hm⟩, ha⟩, hs⟩, hpr⟩, hl⟩, ho⟩, hk⟩, .inl rfl⟩, .inl rfl⟩, hc⟩
    | true => exact ⟨⟨⟨⟨⟨⟨⟨⟨⟨⟨hp, hm⟩, ha⟩, hs⟩, hpr⟩, hl⟩, ho⟩, hk⟩, .inr (hr hb)⟩, .inr (hh hb)⟩, hc⟩

theorem busy_iff : busy s = true ↔ s.engine = .run := by simp [busy]

theorem busy_of_idle (h : s.engine = .idle) : busy s = false := by simp [busy, h]

theorem statusLegal_iff :
    statusLegal s = true ↔
      (s.engine = .run → s.done = false ∧ s.err = false) ∧ (s.done = true → s.err = false) ∧
        (s.err = true ↔ s.errCode ≠ .none) ∧
        (if s.errCode = .bus then s.errAddr.toNat % 4 = 0 else s.errAddr = 0#32) := by
  rw [statusLegal, Bool.and_eq_true, Bool.and_eq_true, Bool.and_eq_true, and_assoc, and_assoc, ← busy_iff]
  refine and_congr ?_ (and_congr ?_ (and_congr ?_ ?_))
  · cases busy s <;> simp
  · cases s.done <;> simp
  · cases s.err <;> simp
  · split <;> simp

theorem progressLegal_iff :
    progressLegal s = true ↔
      (s.done = true → s.progress = s.sLen) ∧ (s.errCode = .bus → s.progress.toNat < s.sLen.toNat) ∧
        (s.errCode ≠ .none → s.errCode ≠ .bus → s.progress = 0#32) := by
  rw [progressLegal, Bool.and_eq_true]
  refine and_congr ?_ ?_
  · cases s.done <;> simp
  · cases s.errCode <;> simp

theorem outstandingLegal_none (h : s.outstanding = none) : outstandingLegal p s = true := by
  simp [outstandingLegal, h]

/-- While IDLE no access is outstanding. -/
theorem LegalParts.outstanding_of_idle (h : LegalParts p s) (he : s.engine = .idle) : s.outstanding = none := by
  have ho := h.outstanding
  cases hs : s.outstanding with
  | none => rfl
  | some a => simp [outstandingLegal, hs, busy_of_idle he] at ho

/-- STATUS, ERRCODE and ERR_ADDR report nothing. -/
structure NothingReported (s : State) : Prop where
  done : s.done = false
  err : s.err = false
  errCode : s.errCode = .none
  errAddr : s.errAddr = 0#32

/-- While RUN nothing is reported (10_state.md R35). -/
theorem LegalParts.nothingReported (h : LegalParts p s) (he : s.engine = .run) : NothingReported s := by
  obtain ⟨hrun, -, hcode, haddr⟩ := statusLegal_iff.1 h.status
  obtain ⟨hd, herr⟩ := hrun he
  have hnone : s.errCode = .none := by simpa [herr] using hcode
  exact ⟨hd, herr, hnone, by simpa [hnone] using haddr⟩

theorem NothingReported.statusLegal (h : NothingReported s) : statusLegal s = true :=
  statusLegal_iff.2 (by simp [h.done, h.err, h.errCode, h.errAddr])

theorem NothingReported.progressLegal (h : NothingReported s) : progressLegal s = true :=
  progressLegal_iff.2 (by simp [h.done, h.errCode])

/-! ### Events of the host, register writes and reset -/

theorem LegalParts.hostSide (h : LegalParts p s) {mem : Memory} (hm : mem.wf = true) {cache : List CachedWord}
    {es : List HostEvent} {r : Response} {n : Nat} (hc : cacheLegal p (hostSide s mem cache es r n) = true) :
    LegalParts p (hostSide s mem cache es r n) where
  platform := h.platform
  memWf := hm
  acceptMemWf := h.acceptMemWf
  status := h.status
  progress := h.progress
  lanes := h.lanes
  outstanding := h.outstanding
  kScale := h.kScale
  running := h.running
  held := h.held
  cache := hc

theorem LegalParts.setInputs (h : LegalParts p s) (es : List HostEvent) : LegalParts p (s.setInputs es) :=
  h.hostSide (cache := s.hostCache) (r := s.response) (n := s.freeCount) h.memWf h.cache

theorem LegalParts.writeAnswered (h : LegalParts p s) (es : List HostEvent) : LegalParts p (writeAnswered s es) :=
  h.hostSide (cache := s.hostCache) (r := .written) (n := s.freeCount) h.memWf h.cache

/-- OVR is in no part of a legal state. -/
theorem legal_overrun (s : State) : legal p (overrun s) = legal p s := rfl

/-- IRQ_EN and the registers that an accept latches are in no part of a legal state. -/
theorem legal_writeRegister {r : Reg} (hr : r ≠ .status) (v : Word) (s : State) :
    legal p (writeRegister r v s) = legal p s := by
  cases r with
  | status => exact absurd rfl hr
  | _ => rfl

theorem LegalParts.clearDone (h : LegalParts p s) : LegalParts p (clearDone s) := by
  obtain ⟨hrun, -, hcode, haddr⟩ := statusLegal_iff.1 h.status
  obtain ⟨-, hbus, hrej⟩ := progressLegal_iff.1 h.progress
  exact { h with
    status := statusLegal_iff.2 ⟨fun he => ⟨rfl, (hrun he).2⟩, fun hd => (by cases hd), hcode, haddr⟩
    progress := progressLegal_iff.2 ⟨fun hd => (by cases hd), hbus, hrej⟩ }

theorem LegalParts.clearError (h : LegalParts p s) : LegalParts p (clearError s) := by
  obtain ⟨hrun, -, -, -⟩ := statusLegal_iff.1 h.status
  obtain ⟨hdone, -, -⟩ := progressLegal_iff.1 h.progress
  exact { h with
    status := statusLegal_iff.2 ⟨fun he => ⟨(hrun he).1, rfl⟩, fun _ => rfl, by simp, by simp⟩
    progress := progressLegal_iff.2 ⟨hdone, by simp, by simp⟩ }

theorem LegalParts.clearOverrun (h : LegalParts p s) : LegalParts p (clearOverrun s) := { h with }

/-- What an operation keeps it keeps when it is performed on a condition. -/
theorem LegalParts.ite (h : LegalParts p s) {f : State → State} (hf : LegalParts p s → LegalParts p (f s)) (b : Bool) :
    LegalParts p (if b then f s else s) := by
  split
  · exact hf h
  · exact h

theorem LegalParts.writeStatus (h : LegalParts p s) (v : Word) : LegalParts p (writeStatus v s) :=
  ((h.ite LegalParts.clearDone (v.getLsbD 1)).ite LegalParts.clearError (v.getLsbD 2)).ite LegalParts.clearOverrun
    (v.getLsbD 3)

theorem LegalParts.writeRegister (h : LegalParts p s) (r : Reg) (v : Word) : LegalParts p (writeRegister r v s) := by
  by_cases hr : r = .status
  · subst hr
    exact h.writeStatus v
  · rw [← legal_iff, legal_writeRegister hr, legal_iff]
    exact h

/-- The state after reset is legal (10_state.md R60). -/
theorem legalParts_resetOn (h : p.wellFormed = true) : LegalParts p (State.resetOn p) where
  platform := h
  memWf := rfl
  acceptMemWf := rfl
  status := rfl
  progress := rfl
  lanes := (lanesLegal_iff _).2 fun c => by cases c <;> exact List.length_replicate
  outstanding := rfl
  kScale := rfl
  running := fun hb => by cases hb
  held := fun _ => rfl
  cache := (cacheLegal_iff _).2 ⟨rfl, fun _ => rfl⟩

theorem LegalParts.resetAsserted (h : LegalParts p s) (n : Nat) (landed : Bool) :
    LegalParts p (resetAsserted p n landed s) :=
  { (legalParts_resetOn h.platform).hostSide (es := s.inputs) (r := .none) (n := s.freeCount)
      (memoryAtReset_wf n landed h.memWf) h.cache with
    held := fun hb => by cases hb }

theorem LegalParts.resetReleased (h : LegalParts p s) : LegalParts p (resetReleased s) :=
  { h with held := fun _ => rfl }

/-! ### The exceptional transfer and completion -/

/-- An error recorded with DONE 0: a rejection with PROGRESS 0, or an abort below S_LEN at an aligned address (10_state.md
R43, R44). -/
theorem LegalParts.raiseError (h : LegalParts p s) (ho : s.outstanding = none) (hd : s.done = false) {code : ErrorCode}
    {addr : Word} (hcode : code ≠ .none)
    (hreject : code ≠ .bus → addr = 0#32 ∧ s.progress = 0#32)
    (habort : code = .bus → addr.toNat % 4 = 0 ∧ s.progress.toNat < s.sLen.toNat) :
    LegalParts p (raiseError code addr s) :=
  { h with
    status := by
      refine statusLegal_iff.2 ⟨fun he => (by cases he), fun hd' => absurd hd' (by simp [hd]), by simp [hcode], ?_⟩
      by_cases hb : code = .bus
      · simpa [hb] using (habort hb).1
      · simpa [hb] using (hreject hb).1
    progress := progressLegal_iff.2
      ⟨fun hd' => absurd hd' (by simp [hd]), fun hb => (habort hb).2, fun _ hb => (hreject hb).2⟩
    outstanding := outstandingLegal_none ho
    running := fun hb => (by cases hb)
    held := fun hb => (by cases hb) }

/-- A completion with PROGRESS at S_LEN (10_state.md R43). -/
theorem LegalParts.complete (h : LegalParts p s) (ho : s.outstanding = none) (hn : NothingReported s) {i : Word}
    (hi : i = s.sLen) : LegalParts p (complete { s with progress := i }) :=
  { h with
    status := statusLegal_iff.2 ⟨fun he => (by cases he), fun _ => hn.err, by simp [hn.err, hn.errCode],
      by simp [hn.errCode, hn.errAddr]⟩
    progress := progressLegal_iff.2 ⟨fun _ => hi, by simp [hn.errCode], by simp [hn.errCode]⟩
    outstanding := outstandingLegal_none ho
    running := fun hb => (by cases hb)
    held := fun hb => (by cases hb) }

/-! ### The accept -/

theorem beginAccept_nothingReported (w : Word) (s : State) : NothingReported (beginAccept w s) := ⟨rfl, rfl, rfl, rfl⟩

/-- What every accept does before its checks, with any op and S_NW, leaves an IDLE engine legal. -/
theorem LegalParts.beginAccept (h : LegalParts p s) (he : s.engine = .idle) (w : Word) (i : Instr) (nw : Word) :
    LegalParts p { beginAccept w s with op := i, sNW := nw } :=
  have hb : busy s = true → False := by simp [busy_of_idle he]
  { h with
    status := (beginAccept_nothingReported w s).statusLegal
    progress := (beginAccept_nothingReported w s).progressLegal
    outstanding := outstandingLegal_none (h.outstanding_of_idle he)
    kScale := rfl
    running := fun hr => (hb hr).elim
    held := fun hr => (hb hr).elim }

theorem LegalParts.rejected (h : LegalParts p s) (he : s.engine = .idle) (w : Word) {code : ErrorCode}
    (hn : code ≠ .none) (hb : code ≠ .bus) : LegalParts p (Machine.raiseError code 0#32 (Machine.beginAccept w s)) :=
  (h.beginAccept he w s.op s.sNW).raiseError (h.outstanding_of_idle he) rfl hn (fun _ => ⟨rfl, rfl⟩)
    fun h => absurd h hb

/-- No check of the accept has code BUS (40_command_engine.md R135). -/
theorem checkCommand_ne_bus (k : Bool) (s : State) : checkCommand k s ≠ .bus := by
  unfold checkCommand
  split_ifs <;> decide

/-- An accept whose checks pass with a length that is not 0 starts a legal command (40_command_engine.md R135, R145). -/
theorem LegalParts.started (h : LegalParts p s) (he : s.engine = .idle) (hr : s.resetHeld = false) {i : Instr}
    (hc : checkCommand (shapeOf i).checksKScale (Machine.beginAccept (encode i) s) = .none) (hz : s.compLen.c0 ≠ 0#32) :
    LegalParts p { Machine.beginAccept (encode i) s with
      op := i, sNW := laneEnd p.laneWidth s.compLen.c0, engine := .run, memAtAccept := s.mem } := by
  have hpos : 0 < s.compLen.c0.toNat := Nat.pos_of_ne_zero fun h0 => hz (BitVec.eq_of_toNat_eq h0)
  obtain ⟨-, hmax, hhalf, hks, hbuf⟩ := checkCommand_none hc
  obtain ⟨haligned, hrange, hdisj⟩ := hbuf.resolve_left hz
  rw [shapeOf_checksKScale] at hks
  have hkscale : (i != .ycck2rgb || kScaleLegal (Machine.beginAccept (encode i) s)) = true := by
    cases i with
    | ycck2rgb => exact hks rfl
    | _ => rfl
  have hrun : runLegal p { Machine.beginAccept (encode i) s with
      op := i, sNW := laneEnd p.laneWidth s.compLen.c0, engine := .run, memAtAccept := s.mem } = true := by
    simp only [runLegal, Bool.and_eq_true]
    exact ⟨⟨⟨⟨⟨⟨⟨⟨⟨hmax, hhalf⟩, hkscale⟩, beq_self_eq_true _⟩, haligned⟩, hrange⟩, hdisj⟩, beq_self_eq_true _⟩,
      decide_eq_true hpos⟩, by simp⟩
  exact { h.beginAccept he (encode i) i (laneEnd p.laneWidth s.compLen.c0) with
    acceptMemWf := h.memWf
    status := NothingReported.statusLegal ⟨rfl, rfl, rfl, rfl⟩
    outstanding := outstandingLegal_none (h.outstanding_of_idle he)
    running := fun _ => hrun
    held := fun _ => hr }

/-- An accept leads from a legal state to a legal one, whatever its outcome (40_command_engine.md R131). -/
theorem LegalParts.accept (h : LegalParts p s) (he : s.engine = .idle) (hr : s.resetHeld = false) (i : Instr) :
    LegalParts p (accept p i (shapeOf i).checksKScale s) := by
  obtain ⟨code, hn, hcode, ht⟩ | ⟨-, hz, ht⟩ | ⟨hc, hz, ht⟩ := accept_cases (p := p) i (shapeOf i).checksKScale s <;>
    rw [ht]
  · exact h.rejected he _ hn (hcode ▸ checkCommand_ne_bus _ _)
  · have hb := (h.beginAccept he (encode i) i (laneEnd p.laneWidth s.compLen.c0)).complete
      (h.outstanding_of_idle he) ⟨rfl, rfl, rfl, rfl⟩ hz.symm
    simpa [Machine.complete, he] using hb
  · exact h.started he hr hc hz

/-! ### The engine's step -/

theorem LegalParts.runFacts (h : LegalParts p s) (he : s.engine = .run) : RunFacts p s :=
  legal_runFacts (legal_iff.2 h) (busy_iff.2 he)

/-- Other memory and lane registers, as many as before. -/
theorem LegalParts.setMemLane (h : LegalParts p s) {mem : Memory} {lane : Quad (List Word)} (hm : mem.wf = true)
    (hl : ∀ c, (lane.get c).length = (s.lane.get c).length) : LegalParts p { s with mem := mem, lane := lane } :=
  { h with
    memWf := hm
    lanes := (lanesLegal_iff _).2 fun c => (hl c).trans ((lanesLegal_iff s).1 h.lanes c) }

/-- An element of the step in progress lies at an aligned address (20_memory.md R74). -/
theorem stepElement_aligned (h : RunFacts p s) (c : Component) {j : Nat} (hj : j < stepSize p s) :
    (elementAddress s c (s.progress.toNat + j)).toNat % 4 = 0 := by
  have hle := (stepSize_bounds h).2.2
  exact elementAddress_aligned h c (by omega)

/-- The abort of a step at one of its elements (60_exceptions.md R231). -/
theorem LegalParts.aborted (h : LegalParts p s) (he : s.engine = .run) (ho : s.outstanding = none) {mem : Memory}
    {lane : Quad (List Word)} (hm : mem.wf = true) (hl : ∀ c, (lane.get c).length = (s.lane.get c).length)
    {c : Component} {j : Nat} (hj : j < stepSize p s) :
    LegalParts p (Machine.raiseError .bus (elementAddress s c (s.progress.toNat + j)) { s with mem := mem, lane := lane }) :=
  have hf := h.runFacts he
  (h.setMemLane hm hl).raiseError ho (h.nothingReported he).done (by decide) (fun hb => absurd rfl hb)
    fun _ => ⟨stepElement_aligned hf c hj, hf.below⟩

/-- A step that waits for ever at one of its accesses (70_reset_and_hazards.md R273). -/
theorem LegalParts.waiting (h : LegalParts p s) (he : s.engine = .run) {mem : Memory} {lane : Quad (List Word)}
    (hm : mem.wf = true) (hl : ∀ c, (lane.get c).length = (s.lane.get c).length) {a : PendingAccess} {c : Component}
    {j : Nat} (hj : j < stepSize p s) (ha : a.addr = elementAddress s c (s.progress.toNat + j))
    (hn : busAnswer p a.addr a.kind = .never) (hc : c ≠ .component3 ∨ a.kind = .read) :
    LegalParts p (({ s with mem := mem, lane := lane } : State).setOutstanding a) :=
  { h.setMemLane hm hl with
    outstanding := by
      have hany : (Component.all.any fun d => (d != .component3 || a.kind == .read) &&
          (List.range (stepSize p s)).any fun j => a.addr == elementAddress s d (s.progress.toNat + j)) = true := by
        simp only [List.any_eq_true, Bool.and_eq_true, Bool.or_eq_true, bne_iff_ne, beq_iff_eq, List.mem_range]
        exact ⟨c, Component.mem_all c, hc, j, hj, ha⟩
      show (busy s && busAnswer p a.addr a.kind == .never && _) = true
      simp only [busy_iff.2 he, hn, Bool.true_and]
      exact hany }

/-- A completed step: `i` advanced, or the command complete (40_command_engine.md R147, R149). -/
theorem LegalParts.stepped (h : LegalParts p s) (he : s.engine = .run) (ho : s.outstanding = none) {mem : Memory}
    {lane : Quad (List Word)} (hm : mem.wf = true) (hl : ∀ c, (lane.get c).length = (s.lane.get c).length) :
    LegalParts p (steppedTo p s mem lane) := by
  have hu := h.setMemLane hm hl
  have hf := h.runFacts he
  obtain ⟨hd, herr, hcode, haddr⟩ := h.nothingReported he
  by_cases hend : s.progress + BitVec.ofNat 32 (stepSize p s) = s.sLen
  · rw [steppedTo_of_last mem lane hend]
    exact hu.complete ho ⟨hd, herr, hcode, haddr⟩ rfl
  · rw [steppedTo_of_not_last mem lane hend]
    have hf' := hf.step hm (fun c => (hl c).trans (hf.lanes c)) hend
    have hn : NothingReported (advanced s mem lane (s.progress + BitVec.ofNat 32 (stepSize p s))) :=
      ⟨hd, herr, hcode, haddr⟩
    have hrun := h.running (busy_iff.2 he)
    rw [runLegal, Bool.and_eq_true, Bool.and_eq_true] at hrun
    obtain ⟨⟨hchecked, -⟩, -⟩ := hrun
    exact { hu with
      progress := hn.progressLegal
      outstanding := outstandingLegal_none ho
      running := fun _ => by
        rw [runLegal, Bool.and_eq_true, Bool.and_eq_true, Bool.or_eq_true, decide_eq_true_eq, decide_eq_true_eq, beq_iff_eq]
        refine ⟨⟨hchecked, hf'.below⟩, ?_⟩
        rcases Nat.lt_or_ge (s.progress + BitVec.ofNat 32 (stepSize p s)).toNat s.sNW.toNat with hlt | hge
        · exact .inr (hf'.multiple hlt)
        · exact .inl hge }

/-- A write of a step is one of components 0 to 2 (40_command_engine.md R157). -/
theorem stepWrites_split {i : Instr} {m : Nat} {t : State} {w : Word × Word} {pre post : List (Word × Word)}
    (hws : stepWrites (shapeOf i).writes m t = pre ++ w :: post) :
    ∃ c j, c ≠ .component3 ∧ j < m ∧ w.1 = elementAddress t c (t.progress.toNat + j) := by
  have hw : w ∈ stepWrites (shapeOf i).writes m t := by simp [hws]
  obtain ⟨c, j, hc, hj, rfl⟩ := mem_stepWrites.1 hw
  rw [shapeOf_writes] at hc
  exact ⟨c, j, fun h3 => by simp [h3] at hc, hj, rfl⟩

/-- An engine step leads from a legal state to a legal one, however it ends. -/
theorem LegalParts.engineStep (h : LegalParts p s) (he : s.engine = .run) (ho : s.outstanding = none) {i : Instr}
    {t : State} (hs : engineStep p (shapeOf i) s = .next t) : LegalParts p t := by
  obtain ⟨lane, addr, rfl, hl, x, hx, rfl⟩ | ⟨lane, a, rfl, hl, hk, ⟨x, hx, ha⟩, hn⟩ |
    ⟨lane, s1, -, -, hl, ⟨pre, addr, v, post, hws, rfl⟩ | ⟨pre, a, post, hws, -, hn, rfl⟩ | rfl⟩ := engineStep_cases hs
  · exact h.aborted he ho h.memWf hl (mem_accessOrder.1 hx).2
  · exact h.waiting he h.memWf hl (mem_accessOrder.1 hx).2 ha hn (.inr hk)
  · obtain ⟨c, j, -, hj, rfl⟩ := stepWrites_split hws
    exact h.aborted he ho (writeAll_wf pre h.memWf) hl hj
  · obtain ⟨c, j, hc, hj, ha⟩ := stepWrites_split hws
    exact h.waiting he (writeAll_wf pre h.memWf) hl hj ha hn (.inl hc)
  · exact h.stepped he ho (writeAll_wf _ h.memWf) hl

theorem LegalParts.exec_run (h : LegalParts p s) (he : s.engine = .run) {i : Instr} {t : State}
    (hx : execOn p i s = .next t) : LegalParts p t := by
  cases ho : s.outstanding with
  | none => exact h.engineStep he ho ((Machine.exec_run he ho).symm.trans hx)
  | some a =>
    cases (exec_stuck he (by rw [ho]; rfl)).symm.trans hx
    exact h

/-! ### The statements -/

/-- Settles O47: each part of a legal state holds of the reset values. -/
theorem resetIsLegal : Obligations.ResetIsLegal :=
  ⟨fun _ h => ⟨legal_iff.2 (legalParts_resetOn h), rfl⟩, legal_iff.2 (legalParts_resetOn rfl)⟩

/-- Settles O48: each outcome of a step keeps the parts of a legal state. -/
theorem everyStepKeepsLegal : Obligations.EveryStepKeepsLegal := by
  intro p s t hl h
  have hs := legal_iff.1 hl
  rw [legal_iff]
  cases stepOn_outcome h with
  | host mem cache es r n hmem hcache => exact hs.hostSide (hmem hs.memWf) (hcache hs.cache)
  | wrote r size addr v es => exact (hs.writeAnswered es).writeRegister r v
  | overran w es =>
    rw [← legal_iff, legal_overrun, legal_iff]
    exact hs.writeAnswered es
  | accepted i es hi hr he => exact (hs.writeAnswered es).accept he hr i
  | rejected w es hi he => exact (hs.writeAnswered es).rejected he w (by decide) (by decide)
  | ran es t hr he hx => exact (hs.setInputs es).exec_run he hx
  | reset n landed es => exact (hs.setInputs es).resetAsserted n landed
  | released es => exact (hs.setInputs es).resetReleased

end Sys2Proof.Machine
end

section
/-! SUPPORT. How far a step moves `i` (10_state.md R55), and that register writes while BUSY do not reach the running command
(10_state.md R47). -/

namespace Sys2Proof.Machine

variable {p : Platform} {s : State}

/-! ### PROGRESS -/

/-- A lane step does not pass S_NW, since both ends are multiples of W (40_command_engine.md R145). -/
theorem laneStep_le_nw (h : RunFacts p s) (hlt : s.progress.toNat < s.sNW.toNat) :
    s.progress.toNat + p.laneWidth ≤ s.sNW.toNat := by
  have hmod : s.progress.toNat ≡ s.sNW.toNat [MOD p.laneWidth] := by
    rw [h.nw_toNat]
    exact (h.multiple hlt).trans (Nat.mul_mod_left _ _).symm
  exact hmod.add_le_of_lt hlt

/-- Settles O20: the step ends in `steppedTo`, whose PROGRESS is `i + m` without a wrap. -/
theorem progressAdvancesByLaneOrOne : Obligations.ProgressAdvancesByLaneOrOne := by
  intro p s hl hs hok
  simp only [canStep, Bool.and_eq_true, Option.isNone_iff_eq_none] at hs
  obtain ⟨hb, ho⟩ := hs
  have hf := legal_runFacts hl hb
  have hnodup : (shapeOf s.op).writes.Nodup := by rw [shapeOf_writes]; decide
  obtain ⟨mem, lane, hstep, -⟩ := engineStep_completes hf hnodup hok
  have hi : (steppedTo p s mem lane).progress.toNat = s.progress.toNat + stepSize p s := progress_add_toNat hf
  refine ⟨_, (exec_run (busy_iff.1 hb) ho).trans hstep, ?_⟩
  rw [hi]
  refine ⟨(stepSize_bounds hf).2.2, fun hlane => ?_, fun hscalar => ?_⟩
  · rw [stepSize, if_pos hlane]
    exact ⟨rfl, laneStep_le_nw hf hlane⟩
  · rw [stepSize, if_neg (by omega)]

/-! ### Register writes and the running command -/

/-- The registers that the host writes and that no flag of STATUS is in: IRQ_EN, MAX_VALUE, HALF_VALUE, COMPn_BASE and
COMPn_LEN (10_state.md R37 to R42). -/
structure HostRegs where
  irqEn : BitVec 3
  maxValue : Word
  halfValue : Word
  compBase : Quad Word
  compLen : Quad Word

def State.hostRegs (s : State) : HostRegs := ⟨s.irqEn, s.maxValue, s.halfValue, s.compBase, s.compLen⟩

def State.setHostRegs (s : State) (g : HostRegs) : State :=
  { s with irqEn := g.irqEn, maxValue := g.maxValue, halfValue := g.halfValue, compBase := g.compBase, compLen := g.compLen }

/-- A write of a register other than STATUS changes these registers alone, to values that they alone fix. -/
theorem writeRegister_eq_setHostRegs {r : Reg} (hr : r ≠ .status) (v : Word) {s t : State} (h : t.hostRegs = s.hostRegs) :
    writeRegister r v t = t.setHostRegs (writeRegister r v s).hostRegs := by
  have hself : writeRegister r v t = t.setHostRegs (writeRegister r v t).hostRegs := by
    cases r with
    | status => exact absurd rfl hr
    | _ => rfl
  obtain ⟨hirq, hmax, hhalf, hbase, hlen⟩ := HostRegs.mk.inj h
  rw [hself]
  congr 1
  cases r with
  | status => exact absurd rfl hr
  | _ => simp [writeRegister, State.hostRegs, hirq, hmax, hhalf, hbase, hlen]

/-- A phase's end with its state changed. -/
def PhaseResult.map (f : State → State) : PhaseResult → PhaseResult
  | .done s => .done (f s)
  | .busError s addr => .busError (f s) addr
  | .unanswered s a => .unanswered (f s) a
  | .device addr => .device addr

section
variable (g : HostRegs)

theorem readPhase_setHostRegs (order : List (Component × Nat)) (s : State) :
    readPhase p order (s.setHostRegs g) = (readPhase p order s).map (·.setHostRegs g) := by
  induction order generalizing s with
  | nil => rfl
  | cons x rest ih =>
    obtain ⟨c, j⟩ := x
    have haddr : elementAddress (s.setHostRegs g) c ((s.setHostRegs g).progress.toNat + j) =
        elementAddress s c (s.progress.toNat + j) := rfl
    rw [readPhase, readPhase, haddr]
    cases busAnswer p (elementAddress s c (s.progress.toNat + j)) .read with
    | ok => exact ih (s.setLaneReg c j (s.mem.readWord (elementAddress s c (s.progress.toNat + j))))
    | _ => rfl

theorem computePhase_setHostRegs (f : Precision → Quad Word → Word × Word × Word) (m : Nat) (s : State) :
    computePhase f m (s.setHostRegs g) = (computePhase f m s).setHostRegs g :=
  List.foldl_hom (f := fun u : State => u.setHostRegs g) (g₁ := computeElement f) fun _ _ => rfl

theorem writePhase_setHostRegs (ws : List (Word × Word)) (s : State) :
    writePhase p ws (s.setHostRegs g) = (writePhase p ws s).map (·.setHostRegs g) := by
  induction ws generalizing s with
  | nil => rfl
  | cons w rest ih =>
    obtain ⟨addr, v⟩ := w
    rw [writePhase, writePhase]
    cases busAnswer p addr .write with
    | ok => exact ih (s.setMem (s.mem.writeWord addr v))
    | _ => rfl

theorem finishStep_setHostRegs (m : Nat) (s : State) :
    finishStep m (s.setHostRegs g) = (finishStep m s).setHostRegs g := by
  rw [finishStep_eq, finishStep_eq]
  rfl

/-- What follows a phase commutes with a change of these registers if the rest of the step does. -/
theorem afterPhase_setHostRegs {r : PhaseResult} {rest : State → Host.Outcome State Fault Refusal} {t : State}
    (hrest : ∀ u, rest u = .next t → rest (u.setHostRegs g) = .next (t.setHostRegs g)) (h : afterPhase r rest = .next t) :
    afterPhase (r.map (·.setHostRegs g)) rest = .next (t.setHostRegs g) := by
  cases r with
  | done u => exact hrest u h
  | busError u addr => cases h; rfl
  | unanswered u a => cases h; rfl
  | device addr => cases h

/-- The engine's step with other values in these registers is the same step, with those values. -/
theorem engineStep_setHostRegs {shape : CommandShape} {s t : State} (h : engineStep p shape s = .next t) :
    engineStep p shape (s.setHostRegs g) = .next (t.setHostRegs g) := by
  have hsize : stepSize p (s.setHostRegs g) = stepSize p s := rfl
  unfold engineStep at h ⊢
  simp only [hsize, readPhase_setHostRegs]
  refine afterPhase_setHostRegs g (fun u hu => ?_) h
  simp only [computePhase_setHostRegs]
  rw [show stepWrites shape.writes (stepSize p s) ((computePhase shape.element (stepSize p s) u).setHostRegs g) =
    stepWrites shape.writes (stepSize p s) (computePhase shape.element (stepSize p s) u) from rfl, writePhase_setHostRegs]
  refine afterPhase_setHostRegs g (fun w hw => ?_) hu
  cases hw
  rw [finishStep_setHostRegs]

theorem execOn_run_setHostRegs {i : Instr} {s t : State} (he : s.engine = .run) (h : execOn p i s = .next t) :
    execOn p i (s.setHostRegs g) = .next (t.setHostRegs g) := by
  cases ho : s.outstanding with
  | none =>
    rw [exec_run (s := s.setHostRegs g) he ho]
    exact engineStep_setHostRegs g ((exec_run he ho).symm.trans h)
  | some a =>
    have hstuck : s.outstanding.isSome = true := by rw [ho]; rfl
    cases (exec_stuck he hstuck).symm.trans h
    exact exec_stuck (s := s.setHostRegs g) he hstuck

end

/-- An engine step leaves these registers as they are. -/
theorem execOn_run_hostRegs {i : Instr} {s t : State} (he : s.engine = .run) (h : execOn p i s = .next t) :
    t.hostRegs = s.hostRegs := by
  have hset := execOn_run_setHostRegs s.hostRegs he h
  rw [show s.setHostRegs s.hostRegs = s from rfl, h] at hset
  calc t.hostRegs = (t.setHostRegs s.hostRegs).hostRegs := congrArg State.hostRegs (Host.Outcome.next.inj hset)
    _ = s.hostRegs := rfl

/-- Settles O29: the step commutes with a change of the registers that the host writes, and leaves them as they are. -/
theorem registerWritesDoNotReachTheRunningCommand : Obligations.RegisterWritesDoNotReachTheRunningCommand := by
  intro p s t r v hr he h
  have hstatus : r ≠ .status := by
    rintro rfl
    simp at hr
  rw [writeRegister_eq_setHostRegs hstatus v (s := s) rfl,
    writeRegister_eq_setHostRegs hstatus v (execOn_run_hostRegs he h)]
  exact execOn_run_setHostRegs _ he h

end Sys2Proof.Machine
end

section
/-! SUPPORT. The memory of an engine step: the writes that a step performs are the same in every memory that holds the same
inputs (40_command_engine.md R147, R157), and everything a step of the machine can do to memory (20_memory.md R71, R94). -/

namespace Sys2Proof.Machine

variable {p : Platform}

/-! ### The order of the accesses -/

theorem accessOrder_cons (c : Component) (cs : List Component) (m : Nat) :
    accessOrder (c :: cs) m = (List.range m).map (fun j => (c, j)) ++ accessOrder cs m := rfl

/-- Settles O19, by induction on the components: the first m accesses are of the first one, and the others are m places on. -/
theorem accessesGoComponentByComponent : Obligations.AccessesGoComponentByComponent := by
  intro cs m n hm
  induction cs generalizing n with
  | nil => rfl
  | cons c cs ih =>
    rw [accessOrder_cons]
    rcases Nat.lt_or_ge n m with hlt | hge
    · rw [List.getElem?_append_left (by simpa using hlt), Nat.div_eq_of_lt hlt, Nat.mod_eq_of_lt hlt]
      simp [hlt]
    · obtain ⟨k, rfl⟩ : ∃ k, n = k + m := ⟨n - m, by omega⟩
      rw [List.getElem?_append_right (by simp), List.length_map, List.length_range, Nat.add_sub_cancel, ih,
        Nat.add_div_right k hm, Nat.add_mod_right, List.getElem?_cons_succ]

/-! ### The phases in another memory -/

theorem readPhase_setMem (m : Memory) (order : List (Component × Nat)) (s : State)
    (h : ∀ x ∈ order, m.readWord (elementAddress s x.1 (s.progress.toNat + x.2)) =
      s.mem.readWord (elementAddress s x.1 (s.progress.toNat + x.2))) :
    readPhase p order (s.setMem m) = (readPhase p order s).map (·.setMem m) := by
  induction order generalizing s with
  | nil => rfl
  | cons x rest ih =>
    obtain ⟨c, j⟩ := x
    obtain ⟨hword, hrest⟩ := List.forall_mem_cons.1 h
    have haddr : elementAddress (s.setMem m) c ((s.setMem m).progress.toNat + j) =
        elementAddress s c (s.progress.toNat + j) := rfl
    rw [readPhase, readPhase, haddr, State.setMem_mem, hword]
    cases busAnswer p (elementAddress s c (s.progress.toNat + j)) .read with
    | ok => exact ih (s.setLaneReg c j (s.mem.readWord (elementAddress s c (s.progress.toNat + j)))) hrest
    | _ => rfl

theorem computePhase_setMem (f : Precision → Quad Word → Word × Word × Word) (m : Memory) (n : Nat) (s : State) :
    computePhase f n (s.setMem m) = (computePhase f n s).setMem m :=
  List.foldl_hom (f := fun u : State => u.setMem m) (g₁ := computeElement f) fun _ _ => rfl

/-- The writes that a write phase performs: those before the first that does not complete (60_exceptions.md R229). -/
def performedWrites (p : Platform) (ws : List (Word × Word)) : List (Word × Word) :=
  ws.takeWhile fun w => busAnswer p w.1 .write == .ok

theorem performedWrites_subset (ws : List (Word × Word)) : performedWrites p ws ⊆ ws := List.takeWhile_subset _

/-- Whatever memory a write phase starts in, it ends alike, with the same writes performed. -/
theorem writePhase_setMem (ws : List (Word × Word)) (m : Memory) (s : State) :
    writePhase p ws (s.setMem m) = (writePhase p ws s).map (·.setMem (writeAll (performedWrites p ws) m)) := by
  induction ws generalizing s m with
  | nil => rfl
  | cons w rest ih =>
    obtain ⟨a, v⟩ := w
    rw [writePhase, writePhase]
    cases hb : busAnswer p a .write with
    | ok =>
      have hperf : performedWrites p ((a, v) :: rest) = (a, v) :: performedWrites p rest := by
        simp [performedWrites, hb]
      rw [hperf]
      show writePhase p rest (s.setMem (m.writeWord a v)) = (writePhase p rest (s.setMem (s.mem.writeWord a v))).map _
      rw [ih _ s, ih _ s]
      cases writePhase p rest s <;> rfl
    | _ => simp [performedWrites, hb, PhaseResult.map]

/-- The address is that of an output of the step in progress: an element of the step, in a component it writes. -/
def StepOutput (p : Platform) (writes : List Component) (s : State) (a : Word) : Prop :=
  ∃ c ∈ writes, ∃ j < stepSize p s, a = elementAddress s c (s.progress.toNat + j)

/-- The two memories hold the same inputs of the step in progress. -/
def SameStepInputs (p : Platform) (reads : List Component) (s : State) (m : Memory) : Prop :=
  ∀ x ∈ accessOrder reads (stepSize p s), m.readWord (elementAddress s x.1 (s.progress.toNat + x.2)) =
    s.mem.readWord (elementAddress s x.1 (s.progress.toNat + x.2))

/-- The writes that follow a completed read phase are of the step's outputs: neither phase before them changes an address. -/
theorem stepOutput_of_mem {shape : CommandShape} {s u : State}
    (hr : readPhase p (accessOrder shape.reads (stepSize p s)) s = .done u) {w : Word × Word}
    (hw : w ∈ stepWrites shape.writes (stepSize p s) (computePhase shape.element (stepSize p s) u)) :
    StepOutput p shape.writes s w.1 := by
  have hread := readPhase_cases (p := p) (accessOrder shape.reads (stepSize p s)) s
  rw [hr] at hread
  obtain ⟨⟨lane, rfl⟩, -, -⟩ := hread
  obtain ⟨⟨lane', hc⟩, -⟩ := computePhase_frame shape.element (stepSize p s) { s with lane := lane }
  rw [hc] at hw
  obtain ⟨c, j, hcw, hj, rfl⟩ := mem_stepWrites.1 hw
  exact ⟨c, hcw, j, hj, rfl⟩

/-- What follows a phase commutes with a change of memory if the rest of the step does. -/
theorem afterPhase_setMem {r : PhaseResult} {rest : State → Host.Outcome State Fault Refusal} {t : State} {m : Memory}
    (hrest : ∀ u, r = .done u → rest u = .next t → rest (u.setMem m) = .next (t.setMem m))
    (h : afterPhase r rest = .next t) : afterPhase (r.map (·.setMem m)) rest = .next (t.setMem m) := by
  cases r with
  | done u => exact hrest u rfl h
  | busError u addr => cases h; rfl
  | unanswered u a => cases h; rfl
  | device addr => cases h

/-- The write phase of a step and its end, in another memory. -/
theorem writePhase_finishStep_setMem {ws : List (Word × Word)} {n : Nat} {s t : State} (m : Memory)
    (h : afterPhase (writePhase p ws s) (fun u => .next (finishStep n u)) = .next t) :
    afterPhase (writePhase p ws (s.setMem m)) (fun u => .next (finishStep n u)) =
      .next (t.setMem (writeAll (performedWrites p ws) m)) := by
  rw [writePhase_setMem]
  refine afterPhase_setMem (fun u _ hu => ?_) h
  cases hu
  rw [finishStep_eq, finishStep_eq]
  rfl

/-- An engine step performs the same writes, all of its outputs, in every memory that holds the same inputs, and is the same
otherwise. -/
theorem engineStep_setMem {shape : CommandShape} {s t : State} (h : engineStep p shape s = .next t) :
    ∃ ws, (∀ w ∈ ws, StepOutput p shape.writes s w.1) ∧
      ∀ m, SameStepInputs p shape.reads s m → engineStep p shape (s.setMem m) = .next (t.setMem (writeAll ws m)) := by
  have hsize (m : Memory) : stepSize p (s.setMem m) = stepSize p s := rfl
  unfold engineStep at h ⊢
  simp only [hsize] at h ⊢
  cases hr : readPhase p (accessOrder shape.reads (stepSize p s)) s with
  | done u =>
    rw [hr] at h
    refine ⟨_, fun w hw => stepOutput_of_mem hr (performedWrites_subset (p := p) _ hw), fun m hm => ?_⟩
    rw [readPhase_setMem m _ s hm, hr, PhaseResult.map, afterPhase, computePhase_setMem]
    exact writePhase_finishStep_setMem m h
  | _ =>
    rw [hr] at h
    refine ⟨[], by simp, fun m hm => ?_⟩
    rw [readPhase_setMem m _ s hm, hr]
    exact afterPhase_setMem (fun v hv => by cases hv) h

end Sys2Proof.Machine
end

section
/-! SUPPORT. What a step of the machine does to memory and what of memory reaches it: the regions of a running command
(20_memory.md R71; 40_command_engine.md R157), and everything a step can write (20_memory.md R94). -/

namespace Sys2Proof.Machine

variable {p : Platform} {s : State}

/-! ### Regions -/

theorem inRegion_iff (s : State) (c : Component) (addr : Nat) :
    inRegion s c addr = true ↔
      (s.sBase.get c).toNat ≤ addr ∧ addr < (s.sBase.get c).toNat + 4 * s.sLen.toNat := by
  simp [inRegion]

/-- A byte of an element is in the region of its component. -/
theorem inRegion_of_element (h : RunFacts p s) {c : Component} {k addr : Nat} (hk : k < s.sLen.toNat)
    (hlo : (elementAddress s c k).toNat ≤ addr) (hhi : addr < (elementAddress s c k).toNat + 4) :
    inRegion s c addr = true := by
  rw [elementAddress_toNat h c hk] at hlo hhi
  exact (inRegion_iff s c addr).2 (by omega)

/-- No byte is in two regions of a running command (40_command_engine.md R143). -/
theorem inRegion_unique (h : RunFacts p s) {c d : Component} {addr : Nat} (hc : inRegion s c addr = true)
    (hd : inRegion s d addr = true) : c = d := by
  by_contra hne
  have hdisj := h.disjoint c d hne
  rw [inRegion_iff] at hc hd
  omega

/-- Every component but component3 is written (40_command_engine.md R157). -/
theorem mem_writes_iff (i : Instr) (c : Component) : c ∈ (shapeOf i).writes ↔ c ≠ .component3 := by
  rw [shapeOf_writes]
  cases c <;> decide

/-- A command reads every component that it writes (40_command_engine.md R157). -/
theorem writes_subset_reads (i : Instr) : (shapeOf i).writes ⊆ (shapeOf i).reads := by
  cases i <;> decide

/-- An output of the step in progress is an aligned word in the region of a component that the step writes. -/
theorem StepOutput.aligned {writes : List Component} {a : Word} (h : RunFacts p s) (ha : StepOutput p writes s a) :
    a.toNat % 4 = 0 := by
  obtain ⟨c, -, j, hj, rfl⟩ := ha
  exact stepElement_aligned h c hj

theorem StepOutput.inRegion {writes : List Component} {a : Word} (h : RunFacts p s) (ha : StepOutput p writes s a)
    {addr : Nat} (hin : a.toNat ≤ addr ∧ addr < a.toNat + 4) : ∃ c ∈ writes, inRegion s c addr = true := by
  obtain ⟨c, hc, j, hj, rfl⟩ := ha
  have hle := (stepSize_bounds h).2.2
  exact ⟨c, hc, inRegion_of_element h (by omega) hin.1 hin.2⟩

/-- Writes of a step's outputs leave the bytes outside the regions written. -/
theorem readByte_writeAll_of_stepOutput {writes : List Component} {ws : List (Word × Word)} {mem : Memory} {addr : Nat}
    (h : RunFacts p s) (hm : mem.wf = true) (hws : ∀ w ∈ ws, StepOutput p writes s w.1)
    (hout : ¬ ∃ c ∈ writes, inRegion s c addr = true) : (writeAll ws mem).readByte addr = mem.readByte addr :=
  readByte_writeAll_outside ws hm (fun w hw => (hws w hw).aligned h) addr fun w hw hin =>
    hout ((hws w hw).inRegion h hin)

/-! ### Memory that a step does not read -/

theorem canStep_iff : canStep s = true ↔ s.engine = .run ∧ s.outstanding = none := by
  simp [canStep, busy]

/-- The same aligned writes leave a byte alike in two memories that have it alike. -/
theorem readByte_writeAll_congr (ws : List (Word × Word)) {m n : Memory} (hm : m.wf = true) (hn : n.wf = true)
    (ha : ∀ w ∈ ws, w.1.toNat % 4 = 0) {addr : Nat} (h : m.readByte addr = n.readByte addr) :
    (writeAll ws m).readByte addr = (writeAll ws n).readByte addr := by
  induction ws generalizing m n with
  | nil => exact h
  | cons w ws ih =>
    obtain ⟨haw, haws⟩ := List.forall_mem_cons.1 ha
    refine ih (Memory.wf_writeWord hm _ _) (Memory.wf_writeWord hn _ _) haws ?_
    rw [Memory.readByte_writeWord hm haw, Memory.readByte_writeWord hn haw, h]

/-- Memories with the same bytes in the regions that a command reads hold the same inputs of its step. -/
theorem sameStepInputs_of_regions {reads : List Component} {m : Memory} (h : RunFacts p s)
    (hm : ∀ addr, (∃ c ∈ reads, inRegion s c addr = true) → m.readByte addr = s.mem.readByte addr) :
    SameStepInputs p reads s m := by
  rintro ⟨c, j⟩ hx
  obtain ⟨hc, hj⟩ := mem_accessOrder.1 hx
  have hle := (stepSize_bounds h).2.2
  exact readWord_congr (stepElement_aligned h c hj) fun y hlo hhi =>
    hm y ⟨c, hc, inRegion_of_element h (by omega) hlo hhi⟩

/-- An engine step's memory is the one before it with writes of its outputs, and so it is from another memory with the same
inputs (20_memory.md R71). -/
theorem exec_canStep_setMem {i : Instr} {t : State} (hs : canStep s = true) (h : execOn p i s = .next t) :
    ∃ ws, (∀ w ∈ ws, StepOutput p (shapeOf i).writes s w.1) ∧ t.mem = writeAll ws s.mem ∧
      ∀ m, SameStepInputs p (shapeOf i).reads s m → execOn p i (s.setMem m) = .next (t.setMem (writeAll ws m)) := by
  obtain ⟨he, ho⟩ := canStep_iff.1 hs
  rw [exec_run he ho] at h
  obtain ⟨ws, hws, hstep⟩ := engineStep_setMem h
  refine ⟨ws, hws, ?_, fun m hm => (exec_run (s := s.setMem m) he ho).trans (hstep m hm)⟩
  have hself : engineStep p (shapeOf i) s = .next (t.setMem (writeAll ws s.mem)) := hstep s.mem fun _ _ => rfl
  exact congrArg State.mem (Host.Outcome.next.inj (h.symm.trans hself))

/-- Settles O36: the step reads the same inputs and performs the same writes in both memories, all in regions that the command
reads. -/
theorem memoryNotReadHasNoInfluence : Obligations.MemoryNotReadHasNoInfluence := by
  intro p s t other hl hs hwf hsame h
  have hf := (legal_iff.1 hl).runFacts (canStep_iff.1 hs).1
  obtain ⟨ws, hws, hmem, hstep⟩ := exec_canStep_setMem hs h
  refine ⟨writeAll ws other, hstep other (sameStepInputs_of_regions hf hsame), fun addr => ?_⟩
  split
  · next hin =>
    rw [hmem]
    exact readByte_writeAll_congr ws hwf hf.memWf (fun w hw => (hws w hw).aligned hf) (hsame addr hin)
  · next hout =>
    exact readByte_writeAll_of_stepOutput hf hwf hws fun ⟨c, hc, hin⟩ => hout ⟨c, writes_subset_reads s.op hc, hin⟩

/-! ### Everything a step can do to memory -/

/-- Everything a step from `s` can do to memory. -/
inductive MemoryOutcome (p : Platform) (s : State) : Memory → Prop
  | kept : MemoryOutcome p s s.mem
  | stored (addr : Nat) (bytes : List Byte) (es : List HostEvent) (hi : s.inputs = .memWrite addr bytes :: es)
      (hin : addr + bytes.length ≤ 2 ^ 32) (hc : p.coherent = true) : MemoryOutcome p s (s.mem.writeBytes addr bytes)
  | cleaned (addr n : Nat) (es : List HostEvent) (hi : s.inputs = .cacheClean addr n :: es) :
      MemoryOutcome p s (writeBack (dirtyIn addr n s.hostCache) s.mem)
  | performed (ws : List (Word × Word)) (he : s.engine = .run)
      (hws : ∀ w ∈ ws, StepOutput p (shapeOf s.op).writes s w.1) : MemoryOutcome p s (writeAll ws s.mem)

/-- A reset lets the write land that the engine waits for, or writes of the step in progress (70_reset_and_hazards.md R262). -/
theorem memoryAtReset_outcome (ho : outstandingLegal p s = true) (n : Nat) (landed : Bool) (es : List HostEvent) :
    MemoryOutcome p s (memoryAtReset p n landed (s.setInputs es)) := by
  obtain hm | ⟨he, a, ha, hk, hm⟩ | ⟨he, -, u, pre, post, hr, hws, hm⟩ :=
    memoryAtReset_cases (p := p) n landed (s.setInputs es) <;> rw [hm]
  · exact .kept
  · rw [State.setInputs_outstanding] at ha
    simp only [outstandingLegal, ha, hk, Bool.and_eq_true, List.any_eq_true, Bool.or_eq_true, bne_iff_ne, beq_iff_eq,
      List.mem_range, reduceCtorEq, or_false] at ho
    obtain ⟨-, c, -, hc, j, hj, haddr⟩ := ho
    refine .performed [(a.addr, a.data)] he fun w hw => ?_
    rw [List.mem_singleton.1 hw]
    exact ⟨c, (mem_writes_iff s.op c).2 hc, j, hj, haddr⟩
  · refine .performed pre he fun w hw => stepOutput_of_mem (s := s.setInputs es) hr ?_
    rw [hws]
    exact List.mem_append_left post hw

theorem accept_mem (i : Instr) (k : Bool) (s : State) : (accept p i k s).mem = s.mem := by
  obtain ⟨code, -, -, h⟩ | ⟨-, -, h⟩ | ⟨-, -, h⟩ := accept_cases (p := p) i k s <;> rw [h] <;> rfl

/-- A CMD write changes no memory, whatever its outcome. -/
theorem commandWrite_mem {w : Word} {t : State} (h : commandWrite p w s = .next t) : t.mem = s.mem := by
  obtain ⟨-, ht⟩ | ⟨-, i, -, ht⟩ | ⟨-, -, ht⟩ := commandWrite_cases (p := p) w s <;> cases ht.symm.trans h
  · rfl
  · exact accept_mem i _ s
  · rfl

theorem portWrite_mem {size addr : Nat} {v : Word} {t : State} (h : portWrite p size addr v s = .next t) :
    t.mem = s.mem := by
  obtain ⟨-, ht⟩ | ⟨-, ⟨-, ht⟩ | ⟨-, ht⟩ | ⟨-, ht⟩ | ⟨r, -, -, ht⟩⟩ := portWrite_cases (p := p) size addr v s
  · cases ht.symm.trans h
  · cases ht.symm.trans h
  · cases ht.symm.trans h
    rfl
  · exact commandWrite_mem (s := s.setResponse .written) (ht.symm.trans h)
  · cases ht.symm.trans h
    obtain ⟨-, -, -, -, -, -, -, -, -, -, -, -, hm, -⟩ := writeRegister_frame r v (s.setResponse .written)
    exact hm

theorem portRead_mem {size addr : Nat} {t : State} (h : portRead p size addr s = .next t) : t.mem = s.mem := by
  obtain ⟨-, ht⟩ | ⟨-, ⟨-, ht⟩ | ⟨-, ht⟩ | ⟨r, -, ht⟩⟩ := portRead_cases (p := p) size addr s <;>
    cases ht.symm.trans h <;> rfl

theorem waitRound_mem {t : State} (h : waitRound s = .next t) : t.mem = s.mem := by
  obtain ⟨-, ht⟩ | ⟨-, -, ht⟩ | ⟨-, -, ht⟩ := waitRound_cases s <;> cases ht.symm.trans h <;> rfl

theorem hostRead_mem {addr count : Nat} {t : State} (h : hostRead p addr count s = .next t) : t.mem = s.mem := by
  obtain ⟨-, ht⟩ | ⟨-, ht⟩ := hostRead_cases (p := p) addr count s <;> cases ht.symm.trans h
  rfl

theorem engineTurn_memory {es : List HostEvent} {t : State} (h : engineTurn p (s.setInputs es) = .next t) :
    MemoryOutcome p s t.mem := by
  obtain ⟨-, ht⟩ | ⟨-, he, ht⟩ := engineTurn_cases (p := p) (s.setInputs es)
  · cases ht.symm.trans h
    exact .kept
  · replace h := ht.symm.trans h
    cases ho : s.outstanding with
    | none =>
      obtain ⟨ws, hws, hm, -⟩ := exec_canStep_setMem (canStep_iff.2 ⟨he, ho⟩) h
      rw [hm]
      exact .performed ws he hws
    | some a =>
      cases (exec_stuck he (by rw [State.setInputs_outstanding, ho]; rfl)).symm.trans h
      exact .kept

theorem hostWrite_memory {addr : Nat} {bytes : List Byte} {es : List HostEvent} {t : State}
    (hi : s.inputs = .memWrite addr bytes :: es) (h : hostWrite p addr bytes (s.setInputs es) = .next t) :
    MemoryOutcome p s t.mem := by
  obtain ⟨-, ht⟩ | ⟨-, -, ht⟩ | ⟨hin, -, ⟨hc, ht⟩ | ⟨-, ht⟩⟩ := hostWrite_cases (p := p) addr bytes (s.setInputs es) <;>
    cases ht.symm.trans h
  · exact .stored addr bytes es hi hin hc
  · exact .kept

theorem cacheClean_memory {addr n : Nat} {es : List HostEvent} {t : State} (hi : s.inputs = .cacheClean addr n :: es)
    (h : cacheClean addr n (s.setInputs es) = .next t) : MemoryOutcome p s t.mem := by
  obtain ⟨-, ht⟩ | ⟨-, ht⟩ := cacheClean_cases addr n (s.setInputs es) <;> cases ht.symm.trans h
  exact .cleaned addr n es hi

theorem MemoryOutcome.of_eq {t : State} (h : t.mem = s.mem) : MemoryOutcome p s t.mem := h ▸ .kept

/-- A step that answers a next state leaves one of these memories. -/
theorem stepOn_memory {t : State} (hl : legal p s = true) (h : stepOn p s = .next t) : MemoryOutcome p s t.mem := by
  obtain ⟨hi, hs⟩ | ⟨e, es, hi, hs⟩ := step_cases (p := p) s
  · exact engineTurn_memory (es := s.inputs) (hs.symm.trans h)
  · replace h := hs.symm.trans h
    cases e with
    | portRead size addr => exact .of_eq (portRead_mem (s := s.setInputs es) h)
    | portWrite size addr v => exact .of_eq (portWrite_mem (s := s.setInputs es) h)
    | engineTurn => exact engineTurn_memory h
    | wait => exact .of_eq (waitRound_mem (s := s.setInputs es) h)
    | memRead addr count => exact .of_eq (hostRead_mem (s := s.setInputs es) h)
    | memWrite addr bytes => exact hostWrite_memory hi h
    | assertReset n landed =>
      cases h
      exact memoryAtReset_outcome (legal_iff.1 hl).outstanding n landed es
    | releaseReset => cases h; exact .kept
    | cacheClean addr count => exact cacheClean_memory hi h
    | cacheInvalidate addr count => cases h; exact .kept

/-- A byte that a write-back changes is one of a dirty copy that it writes back. -/
theorem dirty_of_writeBack_ne {addr n lo : Nat} {cache : List CachedWord} {mem : Memory} {a : Nat}
    (hw : cacheWfFrom lo cache = true) (hm : mem.wf = true)
    (hne : (writeBack (dirtyIn addr n cache) mem).readByte a ≠ mem.readByte a) :
    ∃ e, cacheLookup cache (a / 4) = some e ∧ e.dirty = true ∧ wordTouched addr n (a / 4) = true := by
  rw [readByte_writeBack addr n a hw hm] at hne
  cases he : cacheLookup cache (a / 4) with
  | none => simp [he] at hne
  | some e =>
    have hd : (e.dirty && wordTouched addr n e.index) = true := by
      by_contra hd
      simp [he, hd] at hne
    rw [(cacheLookup_mem he).2, Bool.and_eq_true] at hd
    exact ⟨e, rfl, hd⟩

/-- Settles O35: of everything a step can do to memory, a host's write changes bytes that it covers, a write-back bytes of dirty
copies, of which a coherent platform has none, and a command bytes of its outputs. -/
theorem memoryChangesOnlyInOutputRegions : Obligations.MemoryChangesOnlyInOutputRegions := by
  intro p s t addr hl h
  have hs := legal_iff.1 hl
  have hm := stepOn_memory hl h
  generalize t.mem = mem at hm
  intro hne
  cases hm with
  | kept => exact absurd rfl hne
  | stored a bytes es hi hin hc =>
    have hcover : a ≤ addr ∧ addr < a + bytes.length := by
      by_contra hout
      rw [Memory.readByte_writeBytes bytes addr hs.memWf hin, if_neg hout] at hne
      exact hne rfl
    exact .inl ⟨hc, a, bytes, es, hi, hcover⟩
  | cleaned a n es hi =>
    obtain ⟨hwf, hempty⟩ := (cacheLegal_iff s).1 hs.cache
    obtain ⟨e, he, hd, ht⟩ := dirty_of_writeBack_ne hwf hs.memWf hne
    have hc : p.coherent = false := by
      rw [← Bool.not_eq_true]
      intro hc
      simp [hempty hc, cacheLookup] at he
    exact .inr (.inl ⟨hc, a, n, es, e, hi, ht, he, hd⟩)
  | performed ws he hws =>
    have hf := hs.runFacts he
    obtain ⟨c, hc, hin⟩ : ∃ c ∈ (shapeOf s.op).writes, inRegion s c addr = true := by
      by_contra hout
      exact hne (readByte_writeAll_of_stepOutput hf hs.memWf hws hout)
    have hout3 : inRegion s .component3 addr = false := by
      rw [← Bool.not_eq_true]
      exact fun h3 => (mem_writes_iff s.op c).1 hc (inRegion_unique hf hin h3)
    exact .inr (.inr ⟨he, hout3, c, shapeOf_writes s.op ▸ hc, hin⟩)

end Sys2Proof.Machine
end

section
/-! SUPPORT. Steps that neither fault nor are refused (20_memory.md R89; 70_reset_and_hazards.md R261; log 15). -/

namespace Sys2Proof.Machine

variable {p : Platform} {s : State}

/-- No region of the platform is a device. -/
def NoDevices (p : Platform) : Prop := ∀ r ∈ p.regions, r.onRead ≠ .device ∧ r.onWrite ≠ .device

theorem busAnswer_ne_device (h : NoDevices p) (addr : Word) (kind : AccessKind) : busAnswer p addr kind ≠ .device := by
  unfold busAnswer
  split
  · next r hr =>
    obtain ⟨hread, hwrite⟩ := h r (List.mem_of_find?_eq_some hr)
    cases kind with
    | read => exact hread
    | write => exact hwrite
  · decide

theorem readPhase_ne_device (h : NoDevices p) (order : List (Component × Nat)) (s : State) (addr : Word) :
    readPhase p order s ≠ .device addr := by
  intro hr
  have hread := readPhase_cases (p := p) order s
  rw [hr] at hread
  obtain ⟨x, -, -, hd⟩ := hread
  exact busAnswer_ne_device h addr .read hd

theorem writePhase_ne_device (h : NoDevices p) (ws : List (Word × Word)) (s : State) (addr : Word) :
    writePhase p ws s ≠ .device addr := by
  intro hw
  have hwrite := writePhase_cases (p := p) ws s
  rw [hw] at hwrite
  obtain ⟨pre, v, post, -, -, hd⟩ := hwrite
  exact busAnswer_ne_device h addr .write hd

/-- What follows a phase that reaches no device answers a next state if the rest of the step does. -/
theorem afterPhase_next {r : PhaseResult} {rest : State → Host.Outcome State Fault Refusal} (hr : ∀ addr, r ≠ .device addr)
    (hrest : ∀ u, ∃ t, rest u = .next t) : ∃ t, afterPhase r rest = .next t := by
  cases r with
  | done u => exact hrest u
  | busError u addr => exact ⟨_, rfl⟩
  | unanswered u a => exact ⟨_, rfl⟩
  | device addr => exact absurd rfl (hr addr)

theorem engineStep_next (h : NoDevices p) (shape : CommandShape) (s : State) : ∃ t, engineStep p shape s = .next t :=
  afterPhase_next (readPhase_ne_device h _ s) fun _ =>
    afterPhase_next (writePhase_ne_device h _ _) fun _ => ⟨_, rfl⟩

theorem engineTurn_next (h : NoDevices p) (s : State) : ∃ t, engineTurn p s = .next t := by
  obtain ⟨-, ht⟩ | ⟨-, he, ht⟩ := engineTurn_cases (p := p) s <;> rw [ht]
  · exact ⟨s, rfl⟩
  · cases ho : s.outstanding with
    | none =>
      rw [exec_run he ho]
      exact engineStep_next h _ s
    | some a => exact ⟨s, exec_stuck he (by rw [ho]; rfl)⟩

theorem commandWrite_next (w : Word) (s : State) : ∃ t, commandWrite p w s = .next t := by
  obtain ⟨-, ht⟩ | ⟨-, i, -, ht⟩ | ⟨-, -, ht⟩ := commandWrite_cases (p := p) w s <;> exact ⟨_, ht⟩

/-- An event that is safe answers a next state on a platform without devices. -/
theorem performEvent_next (h : NoDevices p) {e : HostEvent} (he : eventSafe p s e = true) :
    ∃ t, performEvent p e s = .next t := by
  cases e with
  | portRead size addr =>
    simp only [eventSafe, Bool.and_eq_true, Bool.not_eq_true', bne_iff_ne] at he
    obtain ⟨hheld, -⟩ | ⟨-, ⟨hout, -⟩ | ⟨-, ht⟩ | ⟨r, -, ht⟩⟩ := portRead_cases (p := p) size addr s
    · simp [hheld] at he
    · exact absurd hout he.2
    · exact ⟨_, ht⟩
    · exact ⟨_, ht⟩
  | portWrite size addr v =>
    simp only [eventSafe, Bool.and_eq_true, Bool.not_eq_true', bne_iff_ne] at he
    obtain ⟨hheld, -⟩ | ⟨-, ⟨hout, -⟩ | ⟨-, ht⟩ | ⟨-, ht⟩ | ⟨r, -, -, ht⟩⟩ := portWrite_cases (p := p) size addr v s
    · simp [hheld] at he
    · exact absurd hout he.2
    · exact ⟨_, ht⟩
    · obtain ⟨t, hc⟩ := commandWrite_next (p := p) v (s.setResponse .written)
      exact ⟨t, ht.trans hc⟩
    · exact ⟨_, ht⟩
  | engineTurn => exact engineTurn_next h s
  | wait =>
    simp only [eventSafe, Bool.not_eq_true'] at he
    obtain ⟨hheld, -⟩ | ⟨-, -, ht⟩ | ⟨-, -, ht⟩ := waitRound_cases s
    · simp [hheld] at he
    · exact ⟨_, ht⟩
    · exact ⟨_, ht⟩
  | memRead addr count =>
    simp only [eventSafe, decide_eq_true_eq] at he
    obtain ⟨hout, -⟩ | ⟨-, ht⟩ := hostRead_cases (p := p) addr count s
    · omega
    · exact ⟨_, ht⟩
  | memWrite addr bytes =>
    simp only [eventSafe, Bool.and_eq_true, decide_eq_true_eq, List.all_eq_true, List.mem_range,
      Option.isNone_iff_eq_none] at he
    obtain ⟨hin, hfree⟩ := he
    obtain ⟨hout, -⟩ | ⟨-, ⟨k, hk, hactive⟩, -⟩ | ⟨-, -, ⟨-, ht⟩ | ⟨-, ht⟩⟩ := hostWrite_cases (p := p) addr bytes s
    · omega
    · simp [hfree k hk] at hactive
    · exact ⟨_, ht⟩
    · exact ⟨_, ht⟩
  | assertReset n landed => exact ⟨_, rfl⟩
  | releaseReset => exact ⟨_, rfl⟩
  | cacheClean addr count =>
    simp only [eventSafe, List.all_eq_true, Bool.not_eq_true'] at he
    obtain ⟨⟨e, hmem, hactive⟩, -⟩ | ⟨-, ht⟩ := cacheClean_cases addr count s
    · simp [he e hmem] at hactive
    · exact ⟨_, ht⟩
  | cacheInvalidate addr count => exact ⟨_, rfl⟩

/-- Settles O37: the engine's turn stops at a device alone, and each event of the outside world where it is not safe. -/
theorem safeEventsNeverStop : Obligations.SafeEventsNeverStop := by
  intro p s h
  rw [stepSafe, Bool.and_eq_true] at h
  obtain ⟨hevent, hregions⟩ := h
  have hdev : NoDevices p := by simpa [NoDevices] using hregions
  obtain ⟨-, hs⟩ | ⟨e, es, hi, hs⟩ := step_cases (p := p) s <;> rw [hs]
  · exact engineTurn_next hdev s
  · rw [hi] at hevent
    exact performEvent_next (s := s.setInputs es) hdev hevent

end Sys2Proof.Machine
end

section
/-! SUPPORT. Steps in which the host accesses the data space or maintains its caches: what each stores, returns and leaves
(20_memory.md R72, R79, R88, R89, R94; log 8, log 16). -/

namespace Sys2Proof.Machine

variable {p : Platform} {s : State}

/-! ### Host writes -/

theorem stepOn_of_event {e : HostEvent} {es : List HostEvent} (hi : s.inputs = e :: es) :
    stepOn p s = performEvent p e (s.setInputs es) := by
  simp [stepOn, hi]

/-- Settles O38: a host write has no other outcome where one of its bytes is active. -/
theorem hostWriteToActiveBufferFaults : Obligations.HostWriteToActiveBufferFaults := by
  intro p s es addr k bytes c hi hin he hk hregion
  rw [stepOn_of_event hi]
  obtain ⟨hout, -⟩ | ⟨-, -, ht⟩ | ⟨-, hfree, -⟩ := hostWrite_cases (p := p) addr bytes (s.setInputs es)
  · omega
  · exact ht
  · have hnone := (activeComponent_run (s := s.setInputs es) he (addr + k)).1 (hfree k hk) c
    exact absurd hregion (by rw [show inRegion s c (addr + k) = false from hnone]; decide)

/-- A byte is in no active region if it is in no region while RUN. -/
theorem activeComponent_eq_none {addr : Nat} (h : s.engine = .run → ∀ c, inRegion s c addr = false) :
    activeComponent s addr = none := by
  cases he : s.engine with
  | idle => exact activeComponent_idle he addr
  | run => exact (activeComponent_run he addr).2 (h he)

theorem wordTouched_lt {addr n i : Nat} (hin : addr + n ≤ 2 ^ 32) (h : wordTouched addr n i = true) : i < 2 ^ 30 := by
  rw [wordTouched_iff] at h
  omega

/-- A byte of a word as the host saw it, fetched from memory where the caches held no copy. -/
theorem byteOfWord_cachedOr_mem (mem : Memory) (cache : List CachedWord) {i k : Nat} (hi : i < 2 ^ 30) (hk : k < 4) :
    byteOfWord (cachedOr (fun i => mem.readWord (wordAddress i)) cache i) k =
      match cacheLookup cache i with
      | some e => byteOfWord e.value k
      | none => mem.readByte (4 * i + k) := by
  unfold cachedOr
  cases cacheLookup cache i with
  | some e => rfl
  | none => exact byteOfWord_readWord mem hi hk

/-- Settles O39: the write has the outcome of its kind of platform, and each byte of a word it touches is written or as the host
saw it. -/
theorem hostWriteElsewhereStoresItsBytes : Obligations.HostWriteElsewhereStoresItsBytes := by
  intro p s es addr bytes hm hi hin hfree
  rw [stepOn_of_event hi]
  obtain ⟨hout, -⟩ | ⟨-, ⟨k, hk, hactive⟩, -⟩ | ⟨-, -, hw⟩ := hostWrite_cases (p := p) addr bytes (s.setInputs es)
  · omega
  · rw [activeComponent_eq_none (s := s.setInputs es) (hfree k hk)] at hactive
    cases hactive
  · obtain ⟨hc, ht⟩ | ⟨hc, ht⟩ := hw
    · exact ⟨fun _ => ⟨_, ht, fun a => Memory.readByte_writeBytes bytes a hm hin⟩, fun hn => by simp [hc] at hn⟩
    · refine ⟨fun hn => by simp [hc] at hn, fun _ => ⟨_, ht, fun i hti => ?_, fun i hti => ?_⟩⟩
      · refine ⟨_, (cacheLookup_cacheWrite ..).trans (if_pos hti), fun k hk => ?_⟩
        rw [byteOfWord_overwritten _ _ _ _ hk, overwrittenByte]
        split
        · rfl
        · exact byteOfWord_cachedOr_mem s.mem s.hostCache (wordTouched_lt hin hti) hk
      · exact (cacheLookup_cacheWrite ..).trans (if_neg (by simp [hti]))

/-! ### Host reads -/

/-- A host read inside the data space, as a step. -/
theorem stepOn_memRead {addr n : Nat} {es : List HostEvent} (hi : s.inputs = .memRead addr n :: es)
    (hin : addr + n ≤ 2 ^ 32) :
    stepOn p s = .next { s with
      inputs := es
      response := .bytes ((List.range n).map fun k => hostView p s (addr + k))
      hostCache := if p.coherent then s.hostCache else cacheFill (hostWord s) addr n s.hostCache
      freeCount := s.freeCount + 1 } := by
  rw [stepOn_of_event hi]
  obtain ⟨hout, -⟩ | ⟨-, ht⟩ := hostRead_cases (p := p) addr n (s.setInputs es)
  · omega
  · exact ht

/-- A fetched word is the one that has the bytes a host read sees. -/
theorem hostWord_eq {i : Nat} {w : Word} (h : ∀ k < 4, hostByte s (4 * i + k) = byteOfWord w k) : hostWord s i = w := by
  have h0 : hostByte s (4 * i) = byteOfWord w 0 := h 0 (by omega)
  rw [hostWord, h0, h 1 (by omega), h 2 (by omega), h 3 (by omega), wordOfBytes_byteOfWord]

/-- What a host read returns while the caches are legal is a byte of its word's copy, or of the word fetched. -/
theorem hostView_eq (h : p.coherent = true → s.hostCache = []) (addr : Nat) :
    hostView p s addr = byteOfWord (cachedOr (hostWord s) s.hostCache (addr / 4)) (addr % 4) := by
  cases hc : p.coherent with
  | true => rw [hostView_coherent hc, h hc, ← byteOfWord_hostWord s addr]; rfl
  | false => simp [hostView, hc]

/-- The word that a host fetch of element k of component c sees while the command runs: its output or its value at accept, by the
free choice, and always the latter in component3, which the command does not write (20_memory.md R88; log 8). -/
def racedWord (s : State) (c : Component) (k : Nat) : Word :=
  if (shapeOf s.op).writes.contains c && Config.raceSeesNewValue s.freeCount (elementAddress s c k).toNat then
    valueWritten s c k
  else (inputsAtAccept s k).get c

/-- The component whose active region holds a byte of an element is that element's. -/
theorem activeComponent_of_inRegion (h : RunFacts p s) (he : s.engine = .run) {c : Component} {addr : Nat}
    (hin : inRegion s c addr = true) : activeComponent s addr = some c := by
  cases ha : activeComponent s addr with
  | none => simp [(activeComponent_run he addr).1 ha c] at hin
  | some d =>
    rw [activeComponent, if_pos (busy_iff.2 he)] at ha
    have hd : inRegion s d addr = true := List.find?_some (p := (inRegion s · addr)) ha
    rw [inRegion_unique h hd hin]

/-- An element of component3 is as at accept. -/
theorem elementWord_component3 (hc : buffersConsistent s = true) (hs : canStep s = true) {k : Nat}
    (hk : k < s.sLen.toNat) : elementWord s .component3 k = (inputsAtAccept s k).get .component3 := by
  obtain ⟨he, ho⟩ := canStep_iff.1 hs
  simp only [buffersConsistent, busy_iff.2 he, ho, Bool.not_true, Option.isSome_none, Bool.false_or, List.all_eq_true, List.mem_range,
    beq_iff_eq] at hc
  rw [hc k hk .component3 (Component.mem_all _)]
  split <;> rfl

/-- A byte of an active element as a host read sees it is of the one word that the free choice gives. -/
theorem hostByte_of_element (h : RunFacts p s) (hc : buffersConsistent s = true) (hs : canStep s = true) (c : Component)
    {k b : Nat} (hk : k < s.sLen.toNat) (hb : b < 4) :
    hostByte s ((elementAddress s c k).toNat + b) = byteOfWord (racedWord s c k) b := by
  have haddr := elementAddress_toNat h c hk
  have hin : inRegion s c ((elementAddress s c k).toNat + b) = true := inRegion_of_element h hk (by omega) (by omega)
  have helem : elementOf s c ((elementAddress s c k).toNat + b) = (k, b) := by
    rw [elementOf, haddr, Prod.mk.injEq]
    omega
  rw [hostByte, activeComponent_of_inRegion h (canStep_iff.1 hs).1 hin, racedWord]
  simp only [helem, Nat.add_sub_cancel]
  by_cases hw : (shapeOf s.op).writes.contains c = true
  · simp only [hw, if_true, Bool.true_and]
    split <;> rfl
  · have h3 : c = .component3 := by
      by_contra hne
      exact hw (by simpa using (mem_writes_iff s.op c).2 hne)
    subst h3
    rw [if_neg hw, if_neg fun hr => hw (Bool.and_eq_true_iff.1 hr).1, ← elementWord_component3 hc hs hk, elementWord,
      readByte_eq_byteOfWord s.mem (elementAddress_aligned h .component3 hk) (by omega) (by omega), Nat.add_sub_cancel_left]

/-- A host fetch of an active element sees that word whole (20_memory.md R79). -/
theorem hostWord_of_element (h : RunFacts p s) (hc : buffersConsistent s = true) (hs : canStep s = true) (c : Component)
    {k : Nat} (hk : k < s.sLen.toNat) : hostWord s ((elementAddress s c k).toNat / 4) = racedWord s c k := by
  have ha := elementAddress_aligned h c hk
  refine hostWord_eq fun b hb => ?_
  rw [show 4 * ((elementAddress s c k).toNat / 4) = (elementAddress s c k).toNat by omega]
  exact hostByte_of_element h hc hs c hk hb

theorem racedWord_cases (s : State) (c : Component) (k : Nat) :
    racedWord s c k = (inputsAtAccept s k).get c ∨ racedWord s c k = valueWritten s c k := by
  unfold racedWord
  split
  · exact .inr rfl
  · exact .inl rfl

/-- Settles O40: the one word is the copy that the caches hold, or else the word that the free choice gives a fetch. -/
theorem hostReadDuringBusyIsOldOrNew : Obligations.HostReadDuringBusyIsOldOrNew := by
  intro p s es c k j n hl hcons hs hk hn hj hi i
  have hf := (legal_iff.1 hl).runFacts (canStep_iff.1 hs).1
  obtain ⟨-, hempty⟩ := (cacheLegal_iff s).1 (legal_iff.1 hl).cache
  have haddr : (elementAddress s c k).toNat = 4 * i := by
    have := elementAddress_aligned hf c hk
    omega
  have hword : hostWord s i = racedWord s c k := hostWord_of_element hf hcons hs c hk
  have hlt := (elementAddress s c k).isLt
  have htouched (x : Nat) : wordTouched ((elementAddress s c k).toNat + j) n x = true ↔ x = i := by
    rw [wordTouched_iff]
    omega
  have hbytes : (List.range n).map (fun m => hostView p s ((elementAddress s c k).toNat + j + m)) =
      (List.range n).map fun m => byteOfWord (cachedOr (hostWord s) s.hostCache i) (j + m) := by
    refine List.map_congr_left fun m hm => ?_
    have hm := List.mem_range.1 hm
    rw [hostView_eq hempty, haddr, show (4 * i + j + m) / 4 = i by omega, show (4 * i + j + m) % 4 = j + m by omega]
  refine ⟨cachedOr (hostWord s) s.hostCache i, _, fun hnone => ?_, fun e he => ?_,
    (stepOn_memRead hi (by omega)).trans (by rw [hbytes]), fun hc => by rw [hc]; rfl, fun hc x => ?_⟩
  · rw [cachedOr, hnone]
    simpa only [hword] using racedWord_cases s c k
  · refine ⟨?_, by rw [cachedOr, he]⟩
    rw [← Bool.not_eq_true]
    intro hc
    simp [hempty hc, cacheLookup] at he
  · rw [hc, if_neg (by decide), cacheLookup_cacheFill]
    simp only [htouched]
    by_cases hx : x = i ∧ cacheLookup s.hostCache x = none
    · obtain ⟨rfl, hnone⟩ := hx
      simp [hnone, cachedOr]
    · rw [if_neg hx, if_neg fun ⟨hxi, hnone⟩ => hx ⟨hxi, hxi ▸ hnone⟩]

/-- A byte of no active region as a host read sees it: of its word's copy in the caches without coherence, else memory's. -/
def plainView (p : Platform) (s : State) (addr : Nat) : Byte :=
  if p.coherent then s.mem.readByte addr
  else byteOfWord (cachedOr (fun i => s.mem.readWord (wordAddress i)) s.hostCache (addr / 4)) (addr % 4)

theorem hostByte_of_not_active {addr : Nat} (h : activeComponent s addr = none) : hostByte s addr = s.mem.readByte addr := by
  rw [hostByte, h]

/-- A fetched word of no active region is memory's. -/
theorem hostWord_of_not_active {i : Nat} (hi : i < 2 ^ 30) (h : ∀ a, a / 4 = i → activeComponent s a = none) :
    hostWord s i = s.mem.readWord (wordAddress i) := by
  refine hostWord_eq fun k hk => ?_
  rw [hostByte_of_not_active (h _ (by omega)), byteOfWord_readWord s.mem hi hk]

theorem hostView_of_not_active {addr : Nat} (hi : addr / 4 < 2 ^ 30)
    (h : ∀ a, a / 4 = addr / 4 → activeComponent s a = none) : hostView p s addr = plainView p s addr := by
  rw [hostView, plainView, hostByte_of_not_active (h addr rfl), cachedOr, cachedOr, hostWord_of_not_active hi h]

/-- A byte of a word without coherence, as a host read sees it. -/
theorem plainView_of_not_coherent (hc : p.coherent = false) {i k : Nat} (hi : i < 2 ^ 30) (hk : k < 4) :
    plainView p s (4 * i + k) =
      match cacheLookup s.hostCache i with
      | some e => byteOfWord e.value k
      | none => s.mem.readByte (4 * i + k) := by
  rw [plainView, hc, if_neg (by decide), show (4 * i + k) / 4 = i by omega, show (4 * i + k) % 4 = k by omega,
    byteOfWord_cachedOr_mem s.mem s.hostCache hi hk]

/-- Settles O41: no byte of a word read of is active, so that each is memory's or of a copy. -/
theorem hostReadElsewhereReturnsItsBytes : Obligations.HostReadElsewhereReturnsItsBytes := by
  intro p s es addr n hin hi hfree
  have hnone (i : Nat) (hti : wordTouched addr n i = true) (a : Nat) (ha : a / 4 = i) : activeComponent s a = none :=
    activeComponent_eq_none (hfree a (ha ▸ hti))
  have hbytes : (List.range n).map (fun k => hostView p s (addr + k)) =
      (List.range n).map fun k => plainView p s (addr + k) := by
    refine List.map_congr_left fun k hk => ?_
    have hk := List.mem_range.1 hk
    have ht : wordTouched addr n ((addr + k) / 4) = true := by
      rw [wordTouched_iff]
      omega
    exact hostView_of_not_active (wordTouched_lt hin ht) (hnone _ ht)
  refine ⟨plainView p s, _, (stepOn_memRead hi hin).trans (by rw [hbytes]),
    fun hc => ⟨by rw [hc]; rfl, fun a => by simp [plainView, hc]⟩, fun hc => ?_⟩
  have hcache (i : Nat) := cacheLookup_cacheFill (hostWord s) addr n s.hostCache i
  rw [hc]
  refine ⟨fun i e hti he => ⟨fun k hk => ?_, ?_⟩, fun i hti he => ⟨fun k hk => ?_, hostWord s i, ?_, fun k hk => ?_⟩,
    fun i hti => ?_⟩
  · rw [plainView_of_not_coherent hc (wordTouched_lt hin hti) hk, he]
  · exact (hcache i).trans (by rw [he, if_neg (by simp)])
  · rw [plainView_of_not_coherent hc (wordTouched_lt hin hti) hk, he]
  · exact (hcache i).trans (if_pos ⟨hti, he⟩)
  · have hlt := wordTouched_lt hin hti
    rw [hostWord_of_not_active hlt (hnone i hti), byteOfWord_readWord s.mem hlt hk]
  · exact (hcache i).trans (if_neg (by simp [hti]))

/-! ### Cache maintenance -/

theorem mem_dirtyIn {addr n lo : Nat} {cache : List CachedWord} (hw : cacheWfFrom lo cache = true) {e : CachedWord} :
    e ∈ dirtyIn addr n cache ↔
      wordTouched addr n e.index = true ∧ cacheLookup cache e.index = some e ∧ e.dirty = true := by
  rw [dirtyIn, List.mem_filter, Bool.and_eq_true]
  exact ⟨fun ⟨he, hd, ht⟩ => ⟨ht, cacheLookup_of_mem hw e he, hd⟩, fun ⟨ht, he, hd⟩ => ⟨(cacheLookup_mem he).1, hd, ht⟩⟩

/-- A byte whose word has no copy that is written back stays as it is. -/
theorem readByte_writeBack_of_not_dirty {addr n lo : Nat} {cache : List CachedWord} {mem : Memory} {a : Nat}
    (hw : cacheWfFrom lo cache = true) (hm : mem.wf = true)
    (h : ∀ e, ¬ (wordTouched addr n (a / 4) = true ∧ cacheLookup cache (a / 4) = some e ∧ e.dirty = true)) :
    (writeBack (dirtyIn addr n cache) mem).readByte a = mem.readByte a := by
  by_contra hne
  obtain ⟨e, he, hd, ht⟩ := dirty_of_writeBack_ne hw hm hne
  exact h e ⟨ht, he, hd⟩

/-- A byte of a dirty copy that is written back. -/
theorem readByte_writeBack_of_dirty {addr n lo : Nat} {cache : List CachedWord} {mem : Memory} {a : Nat} {e : CachedWord}
    (hw : cacheWfFrom lo cache = true) (hm : mem.wf = true) (ht : wordTouched addr n (a / 4) = true)
    (he : cacheLookup cache (a / 4) = some e) (hd : e.dirty = true) :
    (writeBack (dirtyIn addr n cache) mem).readByte a = byteOfWord e.value (a % 4) := by
  rw [readByte_writeBack addr n a hw hm, he]
  simp [hd, (cacheLookup_mem he).2, ht]

/-- Settles O42: a clean writes back the dirty copies of its words unless one has an active byte. -/
theorem hostCacheMaintenanceMovesOrDropsCopies : Obligations.HostCacheMaintenanceMovesOrDropsCopies := by
  intro p s es addr n hm hw dirty
  refine ⟨fun hi => ⟨fun hfree => ?_, fun ⟨a, e, c, ⟨ht, he, hd⟩, hin⟩ hrun => ?_⟩, fun hi => ?_⟩
  · rw [stepOn_of_event hi]
    obtain ⟨⟨e, hmem, hactive⟩, -⟩ | ⟨-, ht⟩ := cacheClean_cases addr n (s.setInputs es)
    · have hdirty := (mem_dirtyIn hw).1 hmem
      have hnone : wordActive (s.setInputs es) e.index = false := by
        refine (wordActive_eq_false _ _).2 fun k hk => activeComponent_eq_none (s := s.setInputs es) ?_
        refine hfree (4 * e.index + k) e ?_
        rwa [show (4 * e.index + k) / 4 = e.index by omega]
      simp [hnone] at hactive
    · exact ⟨_, _, ht, fun a e ⟨hta, he, hd⟩ => readByte_writeBack_of_dirty hw hm hta he hd,
        fun a hnot => readByte_writeBack_of_not_dirty hw hm hnot, cacheLookup_cacheCleaned addr n s.hostCache⟩
  · rw [stepOn_of_event hi]
    obtain ⟨-, ht'⟩ | ⟨hnone, -⟩ := cacheClean_cases addr n (s.setInputs es)
    · exact ht'
    · have hidx := (cacheLookup_mem he).2
      have hmem : e ∈ dirtyIn addr n s.hostCache := (mem_dirtyIn hw).2 (by rw [hidx]; exact ⟨ht, he, hd⟩)
      have hbyte := (wordActive_eq_false _ _).1 (hnone e hmem) (a % 4) (by omega)
      rw [show 4 * e.index + a % 4 = a by omega] at hbyte
      have hout : inRegion s c a = false := (activeComponent_run (s := s.setInputs es) hrun a).1 hbyte c
      simp [hout] at hin
  · exact ⟨_, stepOn_of_event hi, cacheLookup_cacheDropped addr n s.hostCache⟩

end Sys2Proof.Machine
end

section
/-! SUPPORT. Command words and the commands they spell: the decoder and the encoder are inverse, on words and on bytes
(30_encoding.md R101, R102, R106; 20_memory.md R72). -/

namespace Sys2Proof.Machine

/-! ### Words -/

/-- Decoding undoes encoding, row by row of the opcode map (30_encoding.md R102). -/
theorem decode_encode (i : Instr) : decode (encode i) = .ok i := by
  cases i with
  | rgb2cmy => exact decode_rgb2cmy
  | cmy2rgb => exact decode_cmy2rgb
  | ycck2rgb => exact decode_ycck2rgb
  | rgb2ycck => exact decode_rgb2ycck

/-- The words that decode are the encodings. -/
theorem decode_eq_ok_iff {w : Word} {i : Instr} : decode w = .ok i ↔ w = encode i :=
  ⟨fun h => (encode_of_decode h).symm, fun h => h ▸ decode_encode i⟩

/-- A word that is no command's encoding is refused (30_encoding.md R103). -/
theorem decode_error_of_ne_encode {w : Word} (h : ∀ i, w ≠ encode i) : ∃ e, decode w = .error e := by
  cases hd : decode w with
  | ok i => exact absurd (decode_eq_ok_iff.1 hd) (h i)
  | error e => exact ⟨e, rfl⟩

theorem reservedBitsClear (i : Instr) : Laws.ReservedBitsClear.Statement i := by
  cases i with
  | rgb2cmy => exact Laws.ReservedBitsClear.rgb2cmy
  | cmy2rgb => exact Laws.ReservedBitsClear.cmy2rgb
  | ycck2rgb => exact Laws.ReservedBitsClear.ycck2rgb
  | rgb2ycck => exact Laws.ReservedBitsClear.rgb2ycck

/-- RSVD and OPC are the whole of a command word (30_encoding.md R101). -/
theorem eq_encode_iff {w : Word} {i : Instr} :
    w = encode i ↔ w.toNat / 16 = 0 ∧ w.toNat % 16 = i.fields.opc.toNat := by
  obtain ⟨-, hrsvd, hopc⟩ := reservedBitsClear i
  constructor
  · rintro rfl
    exact ⟨hrsvd, hopc⟩
  · rintro ⟨hr, ho⟩
    exact BitVec.eq_of_toNat_eq (by omega)

/-- Settles O2: a word decodes when it is the encoding, which its two fields fix. -/
theorem wordDecodesByItsFields : Obligations.WordDecodesByItsFields := by
  intro w i
  rw [decode_eq_ok_iff, eq_encode_iff]
  cases i <;> rfl

/-- Settles O3: four rows of the opcode map, two codes that are no row, and a word with a reserved bit set. -/
theorem commandWordsDecode : Obligations.CommandWordsDecode :=
  ⟨decode_encode .rgb2cmy, decode_encode .cmy2rgb, decode_encode .ycck2rgb, decode_encode .rgb2ycck,
    by decide, by decide, by decide⟩

/-! ### Bytes -/

/-- Four bytes make a word exactly when they are its bytes, lowest first (20_memory.md R72). -/
theorem wordOfBytes_eq_iff {b0 b1 b2 b3 : Byte} {w : Word} :
    wordOfBytes b0 b1 b2 b3 = w ↔
      b0 = byteOfWord w 0 ∧ b1 = byteOfWord w 1 ∧ b2 = byteOfWord w 2 ∧ b3 = byteOfWord w 3 := by
  constructor
  · rintro rfl
    have hbyte (k : Nat) (hk : k < 4) : [b0, b1, b2, b3].getD k 0#8 = byteOfWord (wordOfBytes b0 b1 b2 b3) k :=
      (byteOfWord_wordOfBytes (fun k => [b0, b1, b2, b3].getD k 0#8) hk).symm
    exact ⟨hbyte 0 (by omega), hbyte 1 (by omega), hbyte 2 (by omega), hbyte 3 (by omega)⟩
  · rintro ⟨rfl, rfl, rfl, rfl⟩
    exact wordOfBytes_byteOfWord w

/-- What the decoder reads from four bytes and more. -/
theorem decodeBytes_eq_ok_iff {b0 b1 b2 b3 : Byte} {tail rest : List Byte} {i : Instr} :
    decodeBytes (b0 :: b1 :: b2 :: b3 :: tail) = .ok (i, rest) ↔
      decode (wordOfBytes b0 b1 b2 b3) = .ok i ∧ tail = rest := by
  rw [decodeBytes]
  cases decode (wordOfBytes b0 b1 b2 b3) <;> simp [Except.map]

/-- Fewer than four bytes are no command. -/
theorem four_bytes_of_decodeBytes {bytes rest : List Byte} {i : Instr} (h : decodeBytes bytes = .ok (i, rest)) :
    ∃ b0 b1 b2 b3 tail, bytes = b0 :: b1 :: b2 :: b3 :: tail := by
  match bytes, h with
  | b0 :: b1 :: b2 :: b3 :: tail, _ => exact ⟨b0, b1, b2, b3, tail, rfl⟩

/-- Decoding bytes undoes encoding, with the rest left over. -/
theorem decodeBytes_encodeBytes_append (i : Instr) (rest : List Byte) :
    decodeBytes (encodeBytes i ++ rest) = .ok (i, rest) :=
  decodeBytes_eq_ok_iff.2 ⟨by rw [wordOfBytes_byteOfWord, decode_encode], rfl⟩

/-- Bytes that decode are the command's encoding and what is left over. -/
theorem eq_encodeBytes_append_of_decodeBytes {bytes rest : List Byte} {i : Instr}
    (h : decodeBytes bytes = .ok (i, rest)) : bytes = encodeBytes i ++ rest := by
  obtain ⟨b0, b1, b2, b3, tail, rfl⟩ := four_bytes_of_decodeBytes h
  obtain ⟨hword, rfl⟩ := decodeBytes_eq_ok_iff.1 h
  obtain ⟨rfl, rfl, rfl, rfl⟩ := wordOfBytes_eq_iff.1 (decode_eq_ok_iff.1 hword)
  rfl

/-- Settles O1: each direction is one of the two inverses, and every command is well formed. -/
theorem decodeAndEncodeAgree : Obligations.DecodeAndEncodeAgree := by
  intro bytes rest i
  constructor
  · intro h
    exact ⟨(reservedBitsClear i).1, eq_encodeBytes_append_of_decodeBytes h⟩
  · rintro ⟨-, rfl⟩
    exact decodeBytes_encodeBytes_append i rest

end Sys2Proof.Machine
end

section
/-! SUPPORT. Steps whose event is a CMD write or a round of `wait` (30_encoding.md R100, R103, R109; 40_command_engine.md
R131). -/

namespace Sys2Proof.Machine

variable {p : Platform} {s : State}

/-! ### The CMD write -/

/-- A CMD write while IDLE of a word that spells a command is exec of the command (log 3). -/
theorem commandWrite_of_decode {w : Word} {i : Instr} (he : s.engine = .idle) (hd : decode w = .ok i) :
    commandWrite p w s = execOn p i s := by
  rw [commandWrite, he, hd]

/-- A CMD write while RUN is an overrun, whatever the word (40_command_engine.md R132). -/
theorem commandWrite_of_run {w : Word} (he : s.engine = .run) : commandWrite p w s = .next (overrun s) := by
  rw [commandWrite, he]

/-- The rejection of an illegal word while IDLE, field by field (30_encoding.md R103, 60_exceptions.md R224). -/
theorem acceptIllegal_of_idle (w : Word) (he : s.engine = .idle) :
    acceptIllegal w s = { acceptedBase w s with err := true, errCode := .illegalOp } := by
  show { acceptedBase w s with engine := .idle, err := true, errCode := .illegalOp } = _
  rw [← he]
  rfl

/-- A CMD write while IDLE of a word that spells no command. -/
theorem commandWrite_of_illegal {w : Word} (he : s.engine = .idle) (hw : ∀ i, w ≠ encode i) :
    commandWrite p w s = .next { acceptedBase w s with err := true, errCode := .illegalOp } := by
  obtain ⟨e, hd⟩ := decode_error_of_ne_encode hw
  rw [← acceptIllegal_of_idle w he, commandWrite, he, hd]

/-- Settles O11: the step is the CMD write, which is the rejection while IDLE and an overrun while RUN. -/
theorem illegalWordIsRejected : Obligations.IllegalWordIsRejected := by
  intro p s es w hw hi hr
  refine ⟨fun he => ?_, fun he => ?_⟩
  · rw [stepOn_commandWrite hi hr]
    exact commandWrite_of_illegal (s := writeAnswered s es) he hw
  · rw [stepOn_commandWrite hi hr]
    exact commandWrite_of_run (s := writeAnswered s es) he

/-- Settles O4: the step is the CMD write, which is exec of the command that the word spells. -/
theorem stepRunsDecodedCommand : Obligations.StepRunsDecodedCommand := by
  intro p s es w hi hr t
  have hstep : stepOn p s = commandWrite p w t := stepOn_commandWrite hi hr
  refine ⟨hstep, fun i hd he => ?_⟩
  have hexec : stepOn p s = execOn p i t := hstep.trans (commandWrite_of_decode he hd)
  refine ⟨hexec, fun hp => ?_⟩
  subst hp
  exact hexec.trans (exec_eq_execOn i t).symm

/-- The word placed for the next step to take is the one given (log 5). -/
theorem withFetchWord_toNat (s : State) (w : Word) :
    s.withFetchWord 32 w.toNat = presentCommand Config.platform w s := by
  rw [State.withFetchWord, Nat.mod_eq_of_lt w.isLt, BitVec.ofNat_toNat, BitVec.setWidth_eq]

/-- Settles O6: the command presented is a CMD write of a word that decodes, at the platform of Config. -/
theorem fetchWordRunsTheCommand : Obligations.FetchWordRunsTheCommand := by
  refine ⟨fun s i => ?_, fun s => rfl, exec_eq_execOn, rfl⟩
  rw [withFetchWord_toNat]
  obtain ⟨-, hexec⟩ := stepRunsDecodedCommand Config.platform (presentCommand Config.platform (encode i) s) s.inputs
    (encode i) rfl rfl
  exact (hexec i (decode_encode i) rfl).2 rfl

/-! ### `wait` -/

/-- Bit 0 of STATUS is BUSY (10_state.md R35). -/
theorem statusWord_getLsbD_zero (s : State) : (statusWord s).getLsbD 0 = busy s := by
  rw [statusWord, BitVec.getLsbD_setWidth, BitVec.getLsbD_append]
  simp [flagBit]

/-- Settles O31: a round of `wait` goes on while RUN, which is when BUSY reads 1. -/
theorem waitPollsStatus : Obligations.WaitPollsStatus := by
  intro p s es hi hr
  rw [stepOn_of_event hi, statusWord_getLsbD_zero]
  show waitRound (s.setInputs es) = _
  obtain ⟨hheld, -⟩ | ⟨-, he, ht⟩ | ⟨-, he, ht⟩ := waitRound_cases (s.setInputs es)
  · simp [hr] at hheld
  · rw [ht, busy_of_idle (s := s) he]
    rfl
  · rw [ht, (busy_iff (s := s)).2 he]
    rfl

end Sys2Proof.Machine
end

section
/-! SUPPORT. The accept by the registers that it latches: when its checks pass, which fails first, and what each outcome leaves
(40_command_engine.md R131 to R144). -/

namespace Sys2Proof.Machine

variable {p : Platform} {s : State}

/-! ### The engine's turn and a CMD write while RUN -/

theorem engineTurn_of_run (he : s.engine = .run) (hr : s.resetHeld = false) : engineTurn p s = execOn p s.op s := by
  simp [engineTurn, he, hr]

theorem engineTurn_of_idle_or_held (h : s.engine = .idle ∨ s.resetHeld = true) : engineTurn p s = .next s := by
  obtain ⟨-, ht⟩ | ⟨hr, he, -⟩ := engineTurn_cases (p := p) s
  · exact ht
  · simp [hr, he] at h

theorem stepOn_of_no_event (hi : s.inputs = []) : stepOn p s = engineTurn p s := by
  simp [stepOn, hi]

/-- Settles O5: with no event to come and with `engineTurn` as the event, the step is the engine's turn. -/
theorem engineTurnRunsTheCommand : Obligations.EngineTurnRunsTheCommand := by
  intro p s
  refine ⟨fun hi => ?_, fun es hi => ?_⟩
  · rw [stepOn_of_no_event hi]
    exact ⟨engineTurn_of_run, engineTurn_of_idle_or_held⟩
  · rw [stepOn_of_event hi]
    exact ⟨engineTurn_of_run (s := s.setInputs es), engineTurn_of_idle_or_held (s := s.setInputs es)⟩

/-- Settles O12: the step is the CMD write, which is an overrun while RUN. -/
theorem commandWriteDuringRunIsDropped : Obligations.CommandWriteDuringRunIsDropped := by
  intro p s es w hi hr he
  rw [stepOn_commandWrite hi hr]
  exact commandWrite_of_run (s := writeAnswered s es) he

/-! ### When the checks pass -/

theorem checkCommand_eq_none_iff {k : Bool} :
    checkCommand k s = .none ↔
      lengthsEqual s = true ∧ maxLegal s = true ∧ halfLegal s = true ∧ (k = true → kScaleLegal s = true) ∧
        (s.sLen = 0#32 ∨ (basesAligned s = true ∧ regionsInRange s = true ∧ regionsDisjoint s = true)) := by
  refine ⟨checkCommand_none, ?_⟩
  rintro ⟨hlen, hmax, hhalf, hk, hbuf⟩
  have hks : (k && !kScaleLegal s) = false := by cases k <;> simp_all
  rcases hbuf with hz | ⟨ha, hr, hd⟩
  · simp [checkCommand, hlen, hmax, hhalf, hks, hz]
  · simp [checkCommand, hlen, hmax, hhalf, hks, ha, hr, hd]

/-- The Precision Context is accepted when the checks up to BAD_KSCALE pass. -/
theorem contextAccepted_iff (i : Instr) (w : Word) (s : State) :
    contextAccepted i s = true ↔
      lengthsEqual (beginAccept w s) = true ∧ maxLegal (beginAccept w s) = true ∧ halfLegal (beginAccept w s) = true ∧
        ((shapeOf i).checksKScale = true → kScaleLegal (beginAccept w s) = true) := by
  have hk : (i != .ycck2rgb || kScaleLegal (beginAccept w s)) = true ↔
      ((shapeOf i).checksKScale = true → kScaleLegal (beginAccept w s) = true) := by
    rw [shapeOf_checksKScale]
    cases i <;> simp
  rw [← hk]
  simp only [contextAccepted, Bool.and_eq_true, and_assoc]
  simp only [maxLegal, Bool.and_eq_true, and_assoc]
  exact Iff.rfl

/-- The buffers are accepted when the checks after BAD_KSCALE pass: two regions are apart exactly when their bases are. -/
theorem buffersAccepted_iff (w : Word) (s : State) :
    buffersAccepted s = true ↔
      basesAligned (beginAccept w s) = true ∧ regionsInRange (beginAccept w s) = true ∧
        regionsDisjoint (beginAccept w s) = true := by
  have happart (a b : Word) (n : Nat) :
      (decide (a.toNat + n ≤ b.toNat) || decide (b.toNat + n ≤ a.toNat)) = decide (n ≤ absDiff a b) := by
    rw [Bool.eq_iff_iff]
    simp only [Bool.or_eq_true, decide_eq_true_eq, absDiff_ge]
    omega
  simp only [buffersAccepted, happart, Bool.and_eq_true, and_assoc]
  exact Iff.rfl

/-- The checks of an accept pass exactly when the registers are as the command needs them (40_command_engine.md R135). -/
theorem checkCommand_accept_iff (i : Instr) (w : Word) (s : State) :
    checkCommand (shapeOf i).checksKScale (beginAccept w s) = .none ↔
      contextAccepted i s = true ∧ (s.compLen.c0 = 0#32 ∨ buffersAccepted s = true) := by
  rw [checkCommand_eq_none_iff, contextAccepted_iff i w, buffersAccepted_iff w]
  simp only [and_assoc]
  exact Iff.rfl

/-! ### The three outcomes -/

/-- What holds of execOn at the platform of Config holds of exec (log 1). -/
theorem exec_of_execOn {i : Instr} {o : Host.Outcome State Fault Refusal} (h : execOn p i s = o)
    (hp : p = Config.platform) : exec i s = o := by
  subst hp
  exact (exec_eq_execOn i s).trans h

/-- Settles O7: of the outcomes of an accept, a rejection and a completion at once are excluded. -/
theorem acceptStartsTheCommand : Obligations.AcceptStartsTheCommand := by
  intro p i s he hc hb hz t
  have hexec : execOn p i s = .next t := by
    rw [exec_idle he]
    obtain ⟨code, hn, hcode, -⟩ | ⟨-, h0, -⟩ | ⟨-, -, ht⟩ := accept_cases (p := p) i (shapeOf i).checksKScale s
    · exact absurd (hcode.symm.trans ((checkCommand_accept_iff i _ s).2 ⟨hc, .inr hb⟩)) hn
    · exact absurd h0 hz
    · exact congrArg Host.Outcome.next ht
  exact ⟨hexec, exec_of_execOn hexec⟩

theorem laneEnd_zero (w : Nat) : laneEnd w 0#32 = 0#32 := by simp [laneEnd]

/-- Settles O8: with length 0 the checks are those of the Precision Context alone. -/
theorem zeroLengthCompletesAtOnce : Obligations.ZeroLengthCompletesAtOnce := by
  intro p i s he hz
  have hchecks := checkCommand_accept_iff i (encode i) s
  rw [exec_idle he]
  obtain ⟨code, hn, hcode, ht⟩ | ⟨hpass, -, ht⟩ | ⟨-, hnz, -⟩ := accept_cases (p := p) i (shapeOf i).checksKScale s
  · rw [hcode] at hchecks
    exact ⟨fun hc => absurd (hchecks.2 ⟨hc, .inl hz⟩) hn, fun _ => ⟨_, rfl, by rw [ht]; exact ⟨rfl, rfl, hn, rfl, rfl, rfl⟩⟩⟩
  · have hexec : execOn p i s = .next { acceptedBase (encode i) s with op := i, sNW := 0#32, done := true } := by
      rw [exec_idle he, ht, hz, laneEnd_zero]
      rfl
    rw [← exec_idle he]
    exact ⟨fun _ => ⟨hexec, exec_of_execOn hexec⟩, fun hc => by simp [(hchecks.1 hpass).1] at hc⟩
  · exact absurd hz hnz

end Sys2Proof.Machine
end

section
/-! SUPPORT. The checks of an accept one by one, as conditions on the registers, and the first that fails (40_command_engine.md
R135 to R143). -/

namespace Sys2Proof.Machine

variable {p : Platform} {s : State}

/-! ### The conditions of R135 -/

/-- The word spells no command (40_command_engine.md R136). -/
def IllegalWord (w : Word) : Prop :=
  w.toNat / 16 ≠ 0 ∨ ¬ (w.toNat % 16 = 1 ∨ w.toNat % 16 = 2 ∨ w.toNat % 16 = 3 ∨ w.toNat % 16 = 4)

/-- The length registers differ (40_command_engine.md R137). -/
def LengthsDiffer (s : State) : Prop :=
  ¬ (s.compLen.c0 = s.compLen.c1 ∧ s.compLen.c0 = s.compLen.c2 ∧ s.compLen.c0 = s.compLen.c3)

/-- A base is not aligned (40_command_engine.md R141). -/
def BaseMisaligned (s : State) : Prop := 0 < s.compLen.c0.toNat ∧ ∃ c, (s.compBase.get c).toNat % 4 ≠ 0

/-- A region passes the end of the data space (40_command_engine.md R142). -/
def RegionOutOfRange (s : State) : Prop :=
  0 < s.compLen.c0.toNat ∧ ∃ c, 2 ^ 32 < (s.compBase.get c).toNat + 4 * s.compLen.c0.toNat

/-- Two regions share a byte (40_command_engine.md R143). -/
def RegionsOverlap (s : State) : Prop :=
  ∃ c d, c ≠ d ∧ ∃ a : Nat,
    ((s.compBase.get c).toNat ≤ a ∧ a < (s.compBase.get c).toNat + 4 * s.compLen.c0.toNat) ∧
      ((s.compBase.get d).toNat ≤ a ∧ a < (s.compBase.get d).toNat + 4 * s.compLen.c0.toNat)

theorem illegalWord_iff (w : Word) : IllegalWord w ↔ ∀ i, w ≠ encode i := by
  simp only [ne_eq, eq_encode_iff, IllegalWord]
  constructor
  · intro h i
    cases i <;> simp only [Instr.fields, BitVec.toNat_ofNat] <;> omega
  · intro h
    have h1 := h .rgb2cmy
    have h2 := h .cmy2rgb
    have h3 := h .ycck2rgb
    have h4 := h .rgb2ycck
    simp only [Instr.fields, BitVec.toNat_ofNat] at h1 h2 h3 h4
    omega

/-- BAD_KSCALE is checked for the word 3 alone (40_command_engine.md R140). -/
theorem encode_mod_eq_three_iff (i : Instr) : (encode i).toNat % 16 = 3 ↔ (shapeOf i).checksKScale = true := by
  cases i <;> decide

theorem lengthsDiffer_iff (w : Word) (s : State) : LengthsDiffer s ↔ lengthsEqual (beginAccept w s) = false := by
  rw [← Bool.not_eq_true, LengthsDiffer, not_iff_not]
  simp only [lengthsEqual, Bool.and_eq_true, beq_iff_eq, and_assoc]
  constructor
  · rintro ⟨h1, h2, h3⟩
    exact ⟨h1, h1.symm.trans h2, h2.symm.trans h3⟩
  · rintro ⟨h1, h2, h3⟩
    exact ⟨h1, h1.trans h2, (h1.trans h2).trans h3⟩

theorem baseMisaligned_iff (w : Word) (hpos : 0 < s.compLen.c0.toNat) :
    BaseMisaligned s ↔ basesAligned (beginAccept w s) = false := by
  rw [← Bool.not_eq_true, basesAligned_iff]
  simp [BaseMisaligned, hpos]

theorem regionOutOfRange_iff (w : Word) (hpos : 0 < s.compLen.c0.toNat) :
    RegionOutOfRange s ↔ regionsInRange (beginAccept w s) = false := by
  rw [← Bool.not_eq_true, regionsInRange_iff]
  simp [RegionOutOfRange, hpos]

/-- Two regions share a byte when neither ends before the other: the later base is in both. -/
theorem regionsOverlap_iff (w : Word) (hpos : 0 < s.compLen.c0.toNat) :
    RegionsOverlap s ↔ regionsDisjoint (beginAccept w s) = false := by
  rw [← Bool.not_eq_true, regionsDisjoint_iff (beginAccept w s) hpos]
  push Not
  refine exists_congr fun c => exists_congr fun d => and_congr_right fun _ => ?_
  constructor
  · rintro ⟨a, hc, hd⟩
    simp only [beginAccept_sBase, beginAccept_sLen]
    omega
  · rintro ⟨hd, hc⟩
    simp only [beginAccept_sBase, beginAccept_sLen] at hd hc
    exact ⟨max (s.compBase.get c).toNat (s.compBase.get d).toNat, by omega, by omega⟩

/-- Without elements no buffer is checked. -/
theorem no_buffer_failure_of_zero (hz : s.compLen.c0.toNat = 0) :
    ¬ BaseMisaligned s ∧ ¬ RegionOutOfRange s ∧ ¬ RegionsOverlap s := by
  refine ⟨fun h => ?_, fun h => ?_, ?_⟩
  · exact absurd h.1 (by omega)
  · exact absurd h.1 (by omega)
  · rintro ⟨c, d, -, a, hc, -⟩
    omega

/-! ### The first failing check -/

/-- S_MAX is not finite and positive (40_command_engine.md R138). -/
def MaxIllegal (s : State) : Prop := ¬ (isFinite s.maxValue = true ∧ isPositive s.maxValue = true)

/-- S_HALF is not finite (40_command_engine.md R139). -/
def HalfIllegal (s : State) : Prop := ¬ isFinite s.halfValue = true

/-- The command checks S_KSCALE, which is not finite and positive (40_command_engine.md R140). -/
def KScaleIllegal (w : Word) (s : State) : Prop :=
  w.toNat % 16 = 3 ∧ ¬ (isFinite (kScaleOf s.maxValue) = true ∧ isPositive (kScaleOf s.maxValue) = true)

theorem maxIllegal_iff (w : Word) (s : State) : MaxIllegal s ↔ maxLegal (beginAccept w s) = false := by
  rw [← Bool.not_eq_true, maxLegal, Bool.and_eq_true]
  rfl

theorem halfIllegal_iff (w : Word) (s : State) : HalfIllegal s ↔ halfLegal (beginAccept w s) = false := by
  rw [← Bool.not_eq_true]
  rfl

theorem kScaleIllegal_iff (i : Instr) (s : State) :
    KScaleIllegal (encode i) s ↔
      ((shapeOf i).checksKScale && !kScaleLegal (beginAccept (encode i) s)) = true := by
  rw [KScaleIllegal, encode_mod_eq_three_iff, Bool.and_eq_true, Bool.not_eq_true', ← Bool.not_eq_true, kScaleLegal,
    Bool.and_eq_true]
  rfl

/-- `code` is that of the first condition that holds of a command's checks, in the order of R135. -/
structure FirstFailure (w : Word) (s : State) (code : ErrorCode) : Prop where
  lengths : LengthsDiffer s → code = .lenMismatch
  max : ¬ LengthsDiffer s → MaxIllegal s → code = .badMax
  half : ¬ LengthsDiffer s → ¬ MaxIllegal s → HalfIllegal s → code = .badHalf
  kScale : ¬ LengthsDiffer s → ¬ MaxIllegal s → ¬ HalfIllegal s → KScaleIllegal w s → code = .badKScale
  misaligned : ¬ LengthsDiffer s → ¬ MaxIllegal s → ¬ HalfIllegal s → ¬ KScaleIllegal w s → BaseMisaligned s →
    code = .misaligned
  range : ¬ LengthsDiffer s → ¬ MaxIllegal s → ¬ HalfIllegal s → ¬ KScaleIllegal w s → ¬ BaseMisaligned s →
    RegionOutOfRange s → code = .range
  overlap : ¬ LengthsDiffer s → ¬ MaxIllegal s → ¬ HalfIllegal s → ¬ KScaleIllegal w s → ¬ BaseMisaligned s →
    ¬ RegionOutOfRange s → RegionsOverlap s → code = .overlap
  passed : ¬ LengthsDiffer s → ¬ MaxIllegal s → ¬ HalfIllegal s → ¬ KScaleIllegal w s → ¬ BaseMisaligned s →
    ¬ RegionOutOfRange s → ¬ RegionsOverlap s → code = .none

theorem checkCommand_firstFailure (i : Instr) (s : State) :
    FirstFailure (encode i) s (checkCommand (shapeOf i).checksKScale (beginAccept (encode i) s)) := by
  have hlen := lengthsDiffer_iff (encode i) s
  have hmax := maxIllegal_iff (encode i) s
  have hhalf := halfIllegal_iff (encode i) s
  have hks := kScaleIllegal_iff i s
  rcases Nat.eq_zero_or_pos s.compLen.c0.toNat with hz | hpos
  · obtain ⟨ha, hr, ho⟩ := no_buffer_failure_of_zero hz
    have hlen0 : s.compLen.c0 = 0#32 := BitVec.eq_of_toNat_eq hz
    constructor <;> simp +contextual [checkCommand, hlen, hmax, hhalf, hks, hlen0, ha, hr, ho]
  · have ha := baseMisaligned_iff (encode i) hpos
    have hr := regionOutOfRange_iff (encode i) hpos
    have ho := regionsOverlap_iff (encode i) hpos
    have hlen0 : s.compLen.c0 ≠ 0#32 := fun h => by simp [h] at hpos
    constructor <;> simp +contextual [checkCommand, hlen, hmax, hhalf, hks, hlen0, ha, hr, ho]

theorem accept_errCode (i : Instr) (k : Bool) (s : State) :
    (accept p i k s).errCode = checkCommand k (beginAccept (encode i) s) := by
  obtain ⟨code, -, hc, h⟩ | ⟨hc, -, h⟩ | ⟨hc, -, h⟩ := accept_cases (p := p) i k s <;> rw [h, hc] <;> rfl

theorem accept_laneRegs (i : Instr) (k : Bool) (s : State) : (accept p i k s).lane = s.lane := by
  obtain ⟨code, -, -, h⟩ | ⟨-, -, h⟩ | ⟨-, -, h⟩ := accept_cases (p := p) i k s <;> rw [h] <;> rfl

/-- Settles O9: a legal word's code is that of the first check that fails, and no accept touches memory or lane registers. -/
theorem checkRecordsTheFirstFailure : Obligations.CheckRecordsTheFirstFailure := by
  intro p w s he
  by_cases hw : IllegalWord w
  · refine ⟨_, commandWrite_of_illegal he ((illegalWord_iff w).1 hw), ?_⟩
    intro illegal lengths badMax badHalf k badKScale len misaligned range overlap
    have hw : illegal := hw
    exact ⟨fun _ => rfl, fun h => absurd hw h, fun h => absurd hw h, fun h => absurd hw h, fun h => absurd hw h,
      fun h => absurd hw h, fun h => absurd hw h, fun h => absurd hw h, fun h => absurd hw h, fun _ => ⟨rfl, rfl⟩⟩
  · obtain ⟨i, rfl⟩ : ∃ i, w = encode i := by simpa [illegalWord_iff] using hw
    refine ⟨_, (commandWrite_of_decode he (decode_encode i)).trans (exec_idle he), ?_⟩
    rw [accept_errCode, accept_mem, accept_laneRegs]
    have hf := checkCommand_firstFailure i s
    exact ⟨fun h => absurd h hw, fun _ => hf.lengths, fun _ => hf.max, fun _ => hf.half, fun _ => hf.kScale,
      fun _ => hf.misaligned, fun _ => hf.range, fun _ => hf.overlap, fun _ => hf.passed, fun _ => ⟨rfl, rfl⟩⟩

end Sys2Proof.Machine
end

section
/-! SUPPORT. The registers of the window as they read and as a write stores them (40_command_engine.md R154, R155). -/

namespace Sys2Proof.Machine

variable {p : Platform} {s : State}

/-! ### Reads -/

/-- The events to come are in no register. -/
theorem readRegister_setInputs (p : Platform) (r : Reg) (s : State) (es : List HostEvent) :
    readRegister p r (s.setInputs es) = readRegister p r s := by
  cases r <;> rfl

theorem flagBit_toNat (b : Bool) : (flagBit b).toNat = b.toNat := by cases b <;> rfl

/-- STATUS as a sum of its fields (10_state.md R35). -/
theorem statusWord_toNat (s : State) :
    (statusWord s).toNat = 256 * (errorCodeBits s.errCode).toNat + 8 * s.ovr.toNat + 4 * s.err.toNat + 2 * s.done.toNat +
      (busy s).toNat := by
  have happend {m n : Nat} (x : BitVec m) (y : BitVec n) : (x ++ y).toNat = 2 ^ n * x.toNat + y.toNat := by
    rw [BitVec.toNat_append, Nat.shiftLeft_eq, Nat.mul_comm, Nat.two_pow_add_eq_or_of_lt y.isLt]
  rw [statusWord, BitVec.toNat_setWidth]
  simp only [happend, flagBit_toNat, BitVec.toNat_ofNat]
  have hcode := (errorCodeBits s.errCode).isLt
  have hovr := Bool.toNat_le s.ovr
  have herr := Bool.toNat_le s.err
  have hdone := Bool.toNat_le s.done
  have hbusy := Bool.toNat_le (busy s)
  omega

/-- Settles O24: a read selects the register at its offset, and each one reads as R154 lists it. -/
theorem registerReadsAnswerTheTable : Obligations.RegisterReadsAnswerTheTable := by
  refine ⟨fun p s es off hlt ha hr hi => ?_, fun p s h1 h2 => ?_⟩
  · rw [stepOn_portRead hi hr (portTarget_aligned p hlt ha), readRegister_setInputs]
    rfl
  · have hparam : (paramWord p).toNat = 0x00010000 + p.laneWidth :=
      paramWord_toNat (by simp [Platform.laneWidthInRange, h1, h2])
    have hstatus : (statusWord s).toNat = 256 * (errorCodeBits s.errCode).toNat + 8 * s.ovr.toNat + 4 * s.err.toNat +
        2 * s.done.toNat + (if s.engine = .run then 1 else 0) := by
      rw [statusWord_toNat, busy]
      cases s.engine <;> rfl
    have hirq : (s.irqEn.setWidth 32).toNat = s.irqEn.toNat := by
      have := s.irqEn.isLt
      rw [BitVec.toNat_setWidth]
      omega
    refine ⟨rfl, hparam, rfl, hstatus, hirq, rfl, rfl, rfl, rfl, rfl, rfl, rfl, rfl, rfl, rfl, rfl, rfl, rfl, ?_⟩
    intro off hge _ _
    show readRegister p (regOfIndex (off / 4)) s = 0#32
    rw [regOfIndex_of_ge (by omega)]
    rfl

/-! ### Writes -/

/-- Settles O26: each offset is that of a register that stores what is written. -/
theorem registerWritesStoreTheirValue : Obligations.RegisterWritesStoreTheirValue := by
  intro p s es off v hr hi t
  have hstep (r : Reg) (hc : r ≠ .cmd) (ho : off = regOffset r) :
      stepOn p s = .next (writeRegister r v (writeAnswered s es)) :=
    stepOn_portWrite hi hr (ho ▸ portTarget_regOffset p r) hc
  exact ⟨hstep .irqEn (by decide), hstep .maxValue (by decide), hstep .halfValue (by decide),
    hstep (.compBase .component0) (by decide), hstep (.compBase .component1) (by decide),
    hstep (.compBase .component2) (by decide), hstep (.compBase .component3) (by decide),
    hstep (.compLen .component0) (by decide), hstep (.compLen .component1) (by decide),
    hstep (.compLen .component2) (by decide), hstep (.compLen .component3) (by decide)⟩

end Sys2Proof.Machine
end

section
/-! SUPPORT. How a running command ends and where its elements lie: everything an engine step can lead to, with the bus error that
ended it (40_command_engine.md R149, R150, R156; 60_exceptions.md R231, R246). -/

namespace Sys2Proof.Machine

variable {p : Platform} {s : State}

/-! ### Element addresses -/

/-- Settles O18: the ranges of a running command do not wrap, and neither an engine step nor a wait for ever changes a base. -/
theorem elementAddressesDoNotWrap : Obligations.ElementAddressesDoNotWrap := by
  intro p s c k hl hb hk
  have hf := legal_runFacts hl hb
  have haddr := elementAddress_toNat hf c hk
  have hrange := hf.range c
  refine ⟨haddr, by omega, elementAddress_aligned hf c hk, fun t h => ?_⟩
  have he := busy_iff.1 hb
  obtain ⟨-, -, -, -, -, hbase, -⟩ := SameCommand.of_exec_run he h
  exact ⟨hbase, congrArg HostRegs.compBase (execOn_run_hostRegs he h)⟩

/-! ### Everything an engine step can lead to -/

/-- What follows a phase answers a next state in three ways: the rest of the step, an abort, and a wait for ever. -/
theorem afterPhase_cases {r : PhaseResult} {rest : State → Host.Outcome State Fault Refusal} {t : State}
    (h : afterPhase r rest = .next t) :
    (∃ u, r = .done u ∧ rest u = .next t) ∨ (∃ u addr, r = .busError u addr ∧ t = raiseError .bus addr u) ∨
      ∃ u a, r = .unanswered u a ∧ t = u.setOutstanding a := by
  cases r with
  | done u => exact .inl ⟨u, rfl, h⟩
  | busError u addr => cases h; exact .inr (.inl ⟨u, addr, rfl, rfl⟩)
  | unanswered u a => cases h; exact .inr (.inr ⟨u, a, rfl, rfl⟩)
  | device addr => cases h

/-- Everything an engine step from `s` can lead to, up to memory and lane registers. -/
inductive StepEnd (p : Platform) (s : State) : State → Prop
  | completed (mem : Memory) (lane : Quad (List Word)) : StepEnd p s (steppedTo p s mem lane)
  | aborted (mem : Memory) (lane : Quad (List Word)) (addr : Word)
      (hbus : busOk p addr .read = false ∨ busOk p addr .write = false) :
      StepEnd p s (raiseError .bus addr { s with mem := mem, lane := lane })
  | waits (mem : Memory) (lane : Quad (List Word)) (a : PendingAccess) :
      StepEnd p s (({ s with mem := mem, lane := lane } : State).setOutstanding a)

theorem busOk_of_error {addr : Word} {kind : AccessKind} (h : busAnswer p addr kind = .error) :
    busOk p addr kind = false := by
  rw [busOk, h]
  rfl

/-- The write phase of a step and its end. -/
theorem writePhase_end {ws : List (Word × Word)} {lane : Quad (List Word)} {t : State}
    (h : afterPhase (writePhase p ws { s with lane := lane }) (fun u => .next (finishStep (stepSize p s) u)) = .next t) :
    StepEnd p s t := by
  have hw := writePhase_cases (p := p) ws { s with lane := lane }
  obtain ⟨u, hr, hu⟩ | ⟨u, addr, hr, rfl⟩ | ⟨u, a, hr, rfl⟩ := afterPhase_cases h <;> rw [hr] at hw
  · obtain ⟨rfl, -⟩ := hw
    cases hu
    rw [finishStep_eq]
    exact .completed (writeAll ws s.mem) lane
  · obtain ⟨pre, v, post, -, -, he, rfl⟩ := hw
    exact .aborted (writeAll pre s.mem) lane addr (.inr (busOk_of_error he))
  · obtain ⟨pre, post, -, -, -, -, rfl⟩ := hw
    exact .waits (writeAll pre s.mem) lane a

theorem engineStep_end {shape : CommandShape} {t : State} (h : engineStep p shape s = .next t) : StepEnd p s t := by
  unfold engineStep at h
  have hread := readPhase_cases (p := p) (accessOrder shape.reads (stepSize p s)) s
  obtain ⟨u, hr, hu⟩ | ⟨u, addr, hr, rfl⟩ | ⟨u, a, hr, rfl⟩ := afterPhase_cases h <;> rw [hr] at hread
  · obtain ⟨⟨lane, rfl⟩, -, -⟩ := hread
    obtain ⟨⟨lane', hc⟩, -⟩ := computePhase_frame shape.element (stepSize p s) { s with lane := lane }
    rw [hc] at hu
    exact writePhase_end hu
  · obtain ⟨⟨lane, rfl⟩, -, x, -, -, he⟩ := hread
    exact .aborted s.mem lane addr (.inl (busOk_of_error he))
  · obtain ⟨⟨lane, rfl⟩, -⟩ := hread
    exact .waits s.mem lane a

/-- A command that was running and is not any more has completed or ended in a bus error (40_command_engine.md R149,
60_exceptions.md R231). -/
theorem execOn_run_idle {i : Instr} {t : State} (he : s.engine = .run) (h : execOn p i s = .next t)
    (hidle : t.engine = .idle) :
    (t.done = true ∧ t.progress = s.sLen ∧ t.err = s.err) ∨
      (t.err = true ∧ t.errCode = .bus ∧ t.progress = s.progress ∧
        (busOk p t.errAddr .read = false ∨ busOk p t.errAddr .write = false)) := by
  cases ho : s.outstanding with
  | some a =>
    cases (exec_stuck he (by rw [ho]; rfl)).symm.trans h
    simp [he] at hidle
  | none =>
    cases engineStep_end ((exec_run he ho).symm.trans h) with
    | completed mem lane =>
      by_cases hend : s.progress + BitVec.ofNat 32 (stepSize p s) = s.sLen
      · rw [steppedTo_of_last mem lane hend]
        exact .inl ⟨rfl, rfl, rfl⟩
      · rw [steppedTo_of_not_last mem lane hend] at hidle
        exact absurd (he.symm.trans hidle) (by decide)
    | aborted mem lane addr hbus => exact .inr ⟨rfl, rfl, rfl, hbus⟩
    | waits mem lane a => exact absurd (he.symm.trans hidle) (by decide)

/-- An accept that leaves the engine running is of a command whose checks pass with a length that is not 0. -/
theorem accept_run (he : s.engine = .idle) {i : Instr} (hrun : (accept p i (shapeOf i).checksKScale s).engine = .run) :
    (accept p i (shapeOf i).checksKScale s).op = i ∧ contextAccepted i s = true ∧ buffersAccepted s = true ∧
      s.compLen.c0 ≠ 0#32 := by
  obtain ⟨code, -, -, ht⟩ | ⟨-, -, ht⟩ | ⟨hc, hz, ht⟩ := accept_cases (p := p) i (shapeOf i).checksKScale s <;>
    rw [ht] at hrun ⊢
  · cases hrun
  · exact absurd (he.symm.trans hrun) (by decide)
  · obtain ⟨hctx, hbuf⟩ := (checkCommand_accept_iff i _ s).1 hc
    exact ⟨rfl, hctx, hbuf.resolve_left hz, hz⟩

theorem writeRegister_engine (r : Reg) (v : Word) (s : State) : (writeRegister r v s).engine = s.engine :=
  (writeRegister_frame r v s).1

/-- A step that changes `state` is a turn of the running engine, a reset, or the accept of a legal word while IDLE. -/
theorem StepOutcome.engine_changed {t : State} (h : StepOutcome p s t) (hne : t.engine ≠ s.engine) :
    (∃ es, s.engine = .run ∧ execOn p s.op (s.setInputs es) = .next t) ∨
      (t.engine = .idle ∧ ∃ n landed es, s.inputs = .assertReset n landed :: es) ∨
      ∃ i es, s.engine = .idle ∧ s.inputs = .portWrite 4 (p.blkBase + 0x08) (encode i) :: es ∧
        t = accept p i (shapeOf i).checksKScale (writeAnswered s es) := by
  cases h with
  | host mem cache es r n => exact absurd rfl hne
  | wrote r size addr v es => exact absurd (writeRegister_engine r v (writeAnswered s es)) hne
  | overran w es => exact absurd rfl hne
  | accepted i es hi hr he => exact .inr (.inr ⟨i, es, he, hi, rfl⟩)
  | rejected w es hi he => exact absurd he.symm hne
  | ran es t hr he hx => exact .inl ⟨es, he, hx⟩
  | reset n landed es hi => exact .inr (.inl ⟨rfl, n, landed, es, hi⟩)
  | released es => exact absurd rfl hne

/-- Settles O33: the engine's own step ends a command by completion or a bus error, and an accept starts one when its checks
pass. -/
theorem busyChangesOnlyAsTheRulesSay : Obligations.BusyChangesOnlyAsTheRulesSay := by
  intro p s t hl h
  have hout := stepOn_outcome h
  refine ⟨fun he hidle => ?_, fun he hrun => ?_⟩
  · obtain ⟨es, -, hx⟩ | ⟨-, hreset⟩ | ⟨i, es, he', -, -⟩ := hout.engine_changed (by simp [he, hidle])
    · obtain ⟨hd, hp, herr⟩ | habort := execOn_run_idle (s := s.setInputs es) he hx hidle
      · exact .inl ⟨hd, hp, herr.trans ((legal_iff.1 hl).nothingReported he).err⟩
      · exact .inr (.inl habort)
    · exact .inr (.inr hreset)
    · simp [he] at he'
  · obtain ⟨es, he', -⟩ | ⟨hidle, -⟩ | ⟨i, es, -, hi, rfl⟩ := hout.engine_changed (by simp [he, hrun])
    · simp [he] at he'
    · simp [hrun] at hidle
    · obtain ⟨hop, hctx, hbuf, hz⟩ := accept_run (s := writeAnswered s es) he hrun
      exact ⟨i, es, hi, hop, hctx, hbuf, hz⟩

end Sys2Proof.Machine
end

section
/-! SUPPORT. The last step of a command, and a whole command on a bus that completes every access: how many elements are done
after each step, and what the last one leaves (40_command_engine.md R145 to R149, R158, R159). -/

namespace Sys2Proof.Machine

variable {p : Platform} {s : State}

/-! ### Elements that are not written -/

/-- An element of a running command that is none of the elements `written` keeps its word when every byte outside those stays. -/
theorem readWord_of_not_written (h : RunFacts p s) {written : Component → Nat → Prop} {mem : Memory}
    (hlt : ∀ d l, written d l → l < s.sLen.toNat)
    (hkept : ∀ addr, (∀ d l, written d l → holdsByte s d l addr = false) → mem.readByte addr = s.mem.readByte addr)
    {c : Component} {k : Nat} (hk : k < s.sLen.toNat) (hn : ¬ written c k) :
    mem.readWord (elementAddress s c k) = elementWord s c k := by
  refine readWord_congr (elementAddress_aligned h c hk) fun y hlo hhi => hkept y fun d l hw => ?_
  rw [← Bool.not_eq_true]
  intro hd
  obtain ⟨rfl, rfl⟩ := holdsByte_unique h hk (hlt d l hw) ((holdsByte_iff s c k y).2 ⟨hlo, hhi⟩) hd
  exact hn hw

/-! ### The last step -/

theorem buffersConsistent_of_canStep (hc : buffersConsistent s = true) (hs : canStep s = true) {k : Nat}
    (hk : k < s.sLen.toNat) (c : Component) :
    elementWord s c k = if k < s.progress.toNat then valueWritten s c k else (inputsAtAccept s k).get c := by
  obtain ⟨he, ho⟩ := canStep_iff.1 hs
  simp only [buffersConsistent, busy_iff.2 he, ho, Bool.not_true, Option.isSome_none, Bool.false_or, List.all_eq_true,
    List.mem_range, beq_iff_eq] at hc
  exact hc k hk c (Component.mem_all c)

/-- The inputs of an element that is not done are those at accept. -/
theorem elementInputs_of_not_done (hc : buffersConsistent s = true) (hs : canStep s = true) {k : Nat}
    (hk : k < s.sLen.toNat) (hi : s.progress.toNat ≤ k) : elementInputs s k = inputsAtAccept s k := by
  have hword (c : Component) : elementWord s c k = (inputsAtAccept s k).get c := by
    rw [buffersConsistent_of_canStep hc hs hk c, if_neg (by omega)]
  exact Quad.ext_get fun c => by cases c <;> exact hword _

/-- A completed step of a consistent command leaves the output in every element up to its end, and component3 as at accept. -/
theorem completed_step_words (h : RunFacts p s) (hc : buffersConsistent s = true) (hs : canStep s = true)
    (hok : stepAccessesOk p (shapeOf s.op).reads (shapeOf s.op).writes s = true) :
    ∃ mem lane, execOn p s.op s = .next (steppedTo p s mem lane) ∧
      ∀ c, ∀ k < s.progress.toNat + stepSize p s, mem.readWord (elementAddress s c k) = valueWritten s c k := by
  obtain ⟨he, ho⟩ := canStep_iff.1 hs
  obtain ⟨-, -, hle⟩ := stepSize_bounds h
  have hnodup : (shapeOf s.op).writes.Nodup := by rw [shapeOf_writes]; decide
  obtain ⟨mem, lane, hstep, -, -, hout, hkept⟩ := engineStep_completes h hnodup hok
  refine ⟨mem, lane, (exec_run he ho).trans hstep, fun c k hk => ?_⟩
  have hlen : k < s.sLen.toNat := by omega
  by_cases hw : c ∈ (shapeOf s.op).writes ∧ s.progress.toNat ≤ k
  · obtain ⟨hcw, hi⟩ := hw
    obtain ⟨j, rfl⟩ : ∃ j, k = s.progress.toNat + j := ⟨k - s.progress.toNat, by omega⟩
    rw [hout c hcw j (by omega), outputOf_stepInputs s.op s.precision s j _ hcw, elementInputs_of_not_done hc hs hlen hi]
    rfl
  · have hword : mem.readWord (elementAddress s c k) = elementWord s c k := by
      refine readWord_of_not_written h
        (written := fun d l => d ∈ (shapeOf s.op).writes ∧ ∃ j < stepSize p s, l = s.progress.toNat + j) ?_ ?_ hlen ?_
      · rintro d l ⟨-, j, hj, rfl⟩
        omega
      · exact fun addr hout => hkept addr fun d hd j hj => hout d _ ⟨hd, j, hj, rfl⟩
      · rintro ⟨hcw, j, -, rfl⟩
        exact hw ⟨hcw, by omega⟩
    rw [hword]
    by_cases h3 : c = .component3
    · subst h3
      exact elementWord_component3 hc hs hlen
    · rw [buffersConsistent_of_canStep hc hs hlen c, if_pos]
      exact Nat.lt_of_not_le fun hi => hw ⟨(mem_writes_iff s.op c).2 h3, hi⟩

/-- Settles O17: the step that ends at S_LEN completes the command with the outputs of all its elements in memory. -/
theorem completionSetsDone : Obligations.CompletionSetsDone := by
  intro p s hl hc hs hok hlast
  have he := (canStep_iff.1 hs).1
  have hf := (legal_iff.1 hl).runFacts he
  obtain ⟨-, herr, hcode, haddr⟩ := (legal_iff.1 hl).nothingReported he
  obtain ⟨mem, lane, hstep, hwords⟩ := completed_step_words hf hc hs hok
  have hend : s.progress + BitVec.ofNat 32 (stepSize p s) = s.sLen :=
    BitVec.eq_of_toNat_eq ((progress_add_toNat hf).trans hlast)
  rw [steppedTo_of_last mem lane hend] at hstep
  exact ⟨_, hstep, rfl, rfl, rfl, herr, hcode, haddr, fun c k hk => hwords c k (by omega)⟩

/-! ### How many elements are done -/

/-- The elements done after n steps of a command of `len` elements on a block with W lanes: W for each lane step, then one for
each scalar step (40_command_engine.md R158). -/
def elementsDone (laneWidth len n : Nat) : Nat := min n (len / laneWidth) * laneWidth + (n - len / laneWidth)

theorem elementsDone_succ {w len n : Nat} (hw : 0 < w) :
    elementsDone w len (n + 1) = elementsDone w len n + if elementsDone w len n < len / w * w then w else 1 := by
  unfold elementsDone
  rcases Nat.lt_or_ge n (len / w) with hlt | hge
  · have hmul : n * w < len / w * w := Nat.mul_lt_mul_of_pos_right hlt hw
    rw [Nat.min_eq_left hlt.le, Nat.min_eq_left (Nat.succ_le_of_lt hlt), if_pos (by omega), Nat.succ_mul]
    omega
  · rw [Nat.min_eq_right hge, Nat.min_eq_right (by omega), if_neg (by omega)]
    omega

/-- The last element is done by the last step (40_command_engine.md R159). -/
theorem elementsDone_lt_iff {w len n : Nat} (hw : 0 < w) : elementsDone w len n < len ↔ n < stepCount w len := by
  have hle := Nat.div_mul_le_self len w
  unfold elementsDone stepCount
  rcases Nat.lt_or_ge n (len / w) with hlt | hge
  · have hmul : n * w < len / w * w := Nat.mul_lt_mul_of_pos_right hlt hw
    rw [Nat.min_eq_left hlt.le]
    omega
  · rw [Nat.min_eq_right hge]
    omega

/-! ### The run of a started command -/

theorem busAnswer_of_busAlwaysOk (h : busAlwaysOk p = true) (addr : Word) (kind : AccessKind) :
    busAnswer p addr kind = .ok := by
  simp only [busAlwaysOk, List.all_eq_true, Bool.and_eq_true, beq_iff_eq] at h
  unfold busAnswer
  split
  · next r hr =>
    obtain ⟨hread, hwrite⟩ := h r (List.mem_of_find?_eq_some hr)
    cases kind with
    | read => exact hread
    | write => exact hwrite
  · rfl

theorem stepAccessesOk_of_busAlwaysOk (h : busAlwaysOk p = true) (reads writes : List Component) (s : State) :
    stepAccessesOk p reads writes s = true := by
  simp [stepAccessesOk, busAnswer_of_busAlwaysOk h]

/-- The state after n steps of a started command of which no access failed. -/
structure Ran (p : Platform) (s : State) (n : Nat) (u : State) : Prop where
  reached : Reached p s u
  outstanding : u.outstanding = none
  progress : u.progress.toNat = elementsDone p.laneWidth s.sLen.toNat n
  running : n < stepCount p.laneWidth s.sLen.toNat → u.engine = .run
  finished : n = stepCount p.laneWidth s.sLen.toNat → u.engine = .idle ∧ u.done = true

/-- A state reached whose engine can step is one with some elements done. -/
theorem Reached.of_canStep {u : State} (hu : Reached p s u) (he : u.engine = .run) (ho : u.outstanding = none) :
    ∃ mem lane i, u = advanced s mem lane i ∧ RunFacts p (advanced s mem lane i) ∧ WrittenBelow s i.toNat mem := by
  cases hu with
  | running mem lane i hf hw => exact ⟨mem, lane, i, rfl, hf, hw⟩
  | finished mem lane hw => cases he
  | halted _ _ _ hh => simp [he, ho] at hh

theorem ran_zero (hs : Started p s) : Ran p s 0 s where
  reached :=
    have hzero : s.progress.toNat = 0 := by rw [hs.progress]; rfl
    .running s.mem s.lane s.progress hs.facts (writtenBelow_zero hzero hs.facts.memWf)
  outstanding := hs.outstanding
  progress := by simp [hs.progress, elementsDone]
  running := fun _ => hs.engine
  finished := fun h0 => by
    have hpos : 0 < stepCount p.laneWidth s.sLen.toNat := by
      rw [← elementsDone_lt_iff hs.facts.width_pos]
      simpa [elementsDone, hs.progress] using hs.facts.below
    omega

/-- Every step before the last count is taken and completes. -/
theorem Ran.step (hs : Started p s) (hbus : busAlwaysOk p = true) {n : Nat} {u : State} (h : Ran p s n u)
    (hn : n < stepCount p.laneWidth s.sLen.toNat) : ∃ v, stepOn p u = .next v ∧ Ran p s (n + 1) v := by
  have hw := hs.facts.width_pos
  obtain ⟨mem, lane, i, rfl, hf, hwritten⟩ := h.reached.of_canStep (h.running hn) h.outstanding
  have hok := stepAccessesOk_of_busAlwaysOk hbus (shapeOf s.op).reads (shapeOf s.op).writes (advanced s mem lane i)
  have hnodup : (shapeOf s.op).writes.Nodup := by rw [shapeOf_writes]; decide
  obtain ⟨v, hv, hreach⟩ := reached_of_completed_step hs hf hwritten hok
  obtain ⟨mem', lane', hstep, -⟩ := engineStep_completes hf hnodup hok
  cases hv.symm.trans hstep
  have hsize : stepSize p (advanced s mem lane i) =
      if elementsDone p.laneWidth s.sLen.toNat n < s.sLen.toNat / p.laneWidth * p.laneWidth then p.laneWidth else 1 := by
    rw [← h.progress, ← hs.facts.nw_toNat]
    rfl
  have hprogress : (steppedTo p (advanced s mem lane i) mem' lane').progress.toNat =
      elementsDone p.laneWidth s.sLen.toNat (n + 1) := by
    rw [elementsDone_succ hw, ← hsize, ← h.progress]
    exact progress_add_toNat hf
  have hlast := elementsDone_lt_iff (len := s.sLen.toNat) (n := n + 1) hw
  rw [← hprogress] at hlast
  have hle : (steppedTo p (advanced s mem lane i) mem' lane').progress.toNat ≤ s.sLen.toNat :=
    (progress_add_toNat hf).trans_le (stepSize_bounds hf).2.2
  refine ⟨_, (stepOn_of_run (s := advanced s mem lane i) hs.inputs hs.resetHeld hs.engine hs.outstanding).trans hstep,
    ⟨hreach, hs.outstanding, hprogress, fun hlt => ?_, fun heq => ?_⟩⟩
  · have hne : i + BitVec.ofNat 32 (stepSize p (advanced s mem lane i)) ≠ s.sLen := fun hend =>
      absurd (hlast.2 hlt) (not_lt_of_ge (congrArg BitVec.toNat hend).ge)
    rw [steppedTo_of_not_last mem' lane' hne]
    exact hs.engine
  · have hend : i + BitVec.ofNat 32 (stepSize p (advanced s mem lane i)) = s.sLen :=
      BitVec.eq_of_toNat_eq (le_antisymm hle (not_lt.1 fun hlt => absurd (hlast.1 hlt) (by omega)))
    rw [steppedTo_of_last mem' lane' hend]
    exact ⟨rfl, rfl⟩

/-- A run of one more step, at its end. -/
theorem run_succ {M : Host.Core} {n : Nat} {s u v : M.State} (hu : M.run n s = .next u) (hv : M.step u = .next v) :
    M.run (n + 1) s = .next v := by
  induction n generalizing s with
  | zero =>
    cases hu
    simp only [Host.Core.run, hv]
  | succ n ih =>
    rw [Host.Core.run] at hu ⊢
    cases hn : M.step s with
    | next w =>
      rw [hn] at hu
      exact ih hu
    | fault r => simp [hn] at hu
    | refused r => simp [hn] at hu

theorem run_started (hs : Started p s) (hbus : busAlwaysOk p = true) (n : Nat)
    (hn : n ≤ stepCount p.laneWidth s.sLen.toNat) : ∃ u, (machineOn p).run n s = .next u ∧ Ran p s n u := by
  induction n with
  | zero => exact ⟨s, rfl, ran_zero hs⟩
  | succ n ih =>
    obtain ⟨u, hrun, hu⟩ := ih (by omega)
    obtain ⟨v, hstep, hv⟩ := hu.step hs hbus hn
    exact ⟨v, run_succ (M := machineOn p) hrun hstep, hv⟩

/-! ### What a whole command leaves -/

/-- Every element of a command that has done them all holds its output, and component3 its input. -/
theorem WrittenBelow.output (h : RunFacts p s) {mem : Memory} (hw : WrittenBelow s s.sLen.toNat mem) (c : Component)
    {k : Nat} (hk : k < s.sLen.toNat) :
    mem.readWord (elementAddress s c k) = commandOutput s.op s.precision (elementInputs s k) c := by
  by_cases hc : c ∈ (shapeOf s.op).writes
  · exact hw.written c hc k hk
  · have h3 : c = .component3 := by simpa [mem_writes_iff] using hc
    subst h3
    exact readWord_of_not_written h (written := fun d l => d ∈ (shapeOf s.op).writes ∧ l < s.sLen.toNat)
      (fun _ _ hwr => hwr.2) (fun addr hout => hw.kept addr fun d hd l hl => hout d l ⟨hd, hl⟩) hk fun hwr => hc hwr.1

/-- A byte outside the regions written is as it was. -/
theorem WrittenBelow.outside (h : RunFacts p s) {mem : Memory} (hw : WrittenBelow s s.sLen.toNat mem) {addr : Nat}
    (hout : ∀ c ∈ (shapeOf s.op).writes, inRegion s c addr = false) : mem.readByte addr = s.mem.readByte addr := by
  refine hw.kept addr fun c hc k hk => ?_
  rw [← Bool.not_eq_true]
  intro hb
  obtain ⟨hlo, hhi⟩ := (holdsByte_iff s c k addr).1 hb
  exact absurd (hout c hc) (by simp [inRegion_of_element h hk hlo hhi])

/-- After its last step a started command is complete, with all its elements done. -/
theorem Ran.completed (hs : Started p s) {t : State} (h : Ran p s (stepCount p.laneWidth s.sLen.toNat) t) :
    ∃ mem lane, t = complete (advanced s mem lane s.sLen) ∧ WrittenBelow s s.sLen.toNat mem := by
  obtain ⟨hidle, hdone⟩ := h.finished rfl
  cases h.reached with
  | running mem lane i hf hw => exact absurd (hs.engine.symm.trans hidle) (by decide)
  | finished mem lane hw => exact ⟨mem, lane, rfl, hw⟩
  | halted _ hd => simp [hd] at hdone

/-- Settles O50: the accept starts the command, each of its steps completes, and the last one leaves all elements done. -/
theorem commandRunsToCompletion : Obligations.CommandRunsToCompletion := by
  intro p i s hl he hr hi hc hb hz hbus
  have hpass := (checkCommand_accept_iff i (encode i) s).2 ⟨hc, .inr hb⟩
  have hs := started_of_accept hl he hr hi hpass hz
  obtain ⟨hexec, -⟩ := acceptStartsTheCommand p i s he hc hb hz
  refine ⟨_, hexec, fun n hn => ?_, ?_⟩
  · obtain ⟨u, hrun, hu⟩ := run_started hs hbus n hn.le
    exact ⟨u, hrun, hu.running hn⟩
  · obtain ⟨t, hrun, ht⟩ := run_started hs hbus _ le_rfl
    obtain ⟨mem, lane, rfl, hw⟩ := ht.completed hs
    refine ⟨_, hrun, rfl, rfl, rfl, rfl, fun c k hk => hw.output hs.facts c hk, fun addr hout => ?_⟩
    exact hw.outside hs.facts (by rw [shapeOf_writes]; exact hout)

end Sys2Proof.Machine
end

section
/-! SUPPORT. kScale as a function of S_MAX: rounding is monotonic, so that kScale does not grow with S_MAX, and its corner cases
are its values at their ends (40_command_engine.md R134). -/

namespace Sys2Proof.Machine

variable {p : Platform}

/-! ### Rounding is monotonic -/

/-- A quotient that is not larger is not rounded to a larger integer: two integers apart would both be the even one of a tie. -/
theorem roundDivEven_mono {a b c d : Nat} (hb : 0 < b) (hd : 0 < d) (h : a * d ≤ c * b) :
    roundDivEven a b ≤ roundDivEven c d := by
  obtain ⟨-, hm, hmtie⟩ := roundDivEven_half a hb
  obtain ⟨hn, -, hntie⟩ := roundDivEven_half c hd
  generalize roundDivEven a b = m at *
  generalize roundDivEven c d = n at *
  by_contra hlt
  rw [not_le] at hlt
  have hbd : 0 < b * d := Nat.mul_pos hb hd
  have hm' : 2 * m * (b * d) ≤ 2 * (a * d) + b * d := by nlinarith
  have hn' : 2 * (c * b) ≤ 2 * n * (b * d) + b * d := by nlinarith
  have heq : m = n + 1 := by
    by_contra hne
    have : (n + 2) * (b * d) ≤ m * (b * d) := Nat.mul_le_mul_right _ (by omega)
    nlinarith
  subst heq
  have hmeven : (n + 1) % 2 = 0 := hmtie (.inr (by nlinarith))
  have hneven : n % 2 = 0 := hntie (.inl (by nlinarith))
  omega

theorem excessBits_mono {a b c d : Nat} (hb : 0 < b) (hd : 0 < d) (h : a * d ≤ c * b) :
    excessBits a b ≤ excessBits c d := by
  have hq : a / b ≤ c / d := by
    rw [Nat.le_div_iff_mul_le hd]
    have h1 : a / b * b * d ≤ c * b := (Nat.mul_le_mul_right d (Nat.div_mul_le_self a b)).trans h
    exact Nat.le_of_mul_le_mul_right (by linarith) hb
  have hlog : (a / b).log2 ≤ (c / d).log2 := by
    rw [Nat.log2_eq_log_two, Nat.log2_eq_log_two]
    exact Nat.log_mono_right hq
  unfold excessBits
  omega

/-- A value that is not larger is not rounded to a larger pattern (00_scope.md R17). -/
theorem roundPattern_mono {a b c d : Nat} (hb : 0 < b) (hd : 0 < d) (h : a * d ≤ c * b) :
    roundPattern a b ≤ roundPattern c d := by
  rw [roundPattern_eq, roundPattern_eq]
  refine min_le_min_right _ ?_
  obtain ⟨hm, -⟩ := roundedSignificand_bounds a hb
  obtain ⟨-, hn⟩ := roundedSignificand_bounds c hd
  rcases (excessBits_mono hb hd h).lt_or_eq with hlt | heq
  · have := hn.resolve_left (by omega)
    omega
  · have hsig : roundedSignificand a b ≤ roundedSignificand c d := by
      unfold roundedSignificand
      rw [heq]
      refine roundDivEven_mono (by positivity) (by positivity) ?_
      calc a * (d * 2 ^ excessBits c d) = a * d * 2 ^ excessBits c d := by ring
        _ ≤ c * b * 2 ^ excessBits c d := Nat.mul_le_mul_right _ h
        _ = c * (b * 2 ^ excessBits c d) := by ring
    rw [heq]
    omega

/-! ### Words from +0 to +infinity -/

theorem isFinite_of_lt {u : Word} (h : u.toNat < infinityPattern) : isFinite u = true := by
  unfold infinityPattern at h
  rw [isFinite_iff, exponentField_eq]
  omega

theorem eq_infinity {u : Word} (h : u.toNat = infinityPattern) : u = 0x7F800000#32 := BitVec.eq_of_toNat_eq h

/-- Finite magnitudes are in the order of their patterns (00_scope.md R16). -/
theorem magnitude_mono {a b : Word} (hle : a.toNat ≤ b.toNat) (hb : b.toNat < infinityPattern) :
    magnitude a ≤ magnitude b := by
  unfold infinityPattern at hb
  simp only [magnitude, exponentField_eq, fractionField_eq]
  have hea : a.toNat / 2 ^ 23 % 2 ^ 8 = a.toNat / 2 ^ 23 := by omega
  have heb : b.toNat / 2 ^ 23 % 2 ^ 8 = b.toNat / 2 ^ 23 := by omega
  rw [hea, heb]
  have hpow (e : Nat) : 0 < 2 ^ e := by positivity
  split_ifs with ha hb'
  · omega
  · have : (2 ^ 23 + b.toNat % 2 ^ 23) * 1 ≤ (2 ^ 23 + b.toNat % 2 ^ 23) * 2 ^ (b.toNat / 2 ^ 23 - 1) :=
      Nat.mul_le_mul_left _ (hpow _)
    omega
  · omega
  · rcases (Nat.div_le_div_right (c := 2 ^ 23) hle).lt_or_eq with hlt | heq
    · calc (2 ^ 23 + a.toNat % 2 ^ 23) * 2 ^ (a.toNat / 2 ^ 23 - 1)
          ≤ 2 ^ 24 * 2 ^ (a.toNat / 2 ^ 23 - 1) := Nat.mul_le_mul_right _ (by omega)
        _ = 2 ^ 23 * 2 ^ (a.toNat / 2 ^ 23 - 1 + 1) := by ring
        _ ≤ (2 ^ 23 + b.toNat % 2 ^ 23) * 2 ^ (b.toNat / 2 ^ 23 - 1) :=
          Nat.mul_le_mul (by omega) (Nat.pow_le_pow_right (by omega) (by omega))
    · rw [heq]
      exact Nat.mul_le_mul_right _ (by omega)

theorem magnitude_pos {u : Word} (h0 : 0 < u.toNat) (h : u.toNat < infinityPattern) : 0 < magnitude u := by
  have hone : magnitude 1#32 = 1 := by decide
  exact hone.ge.trans (magnitude_mono (Nat.succ_le_of_lt h0) h)

/-! ### Squares and reciprocals -/

theorem fmul_self_toNat {u : Word} (h : u.toNat < infinityPattern) :
    (fmul u u).toNat = roundPattern (magnitude u * magnitude u) (2 ^ 149) := by
  have hfin := isFinite_of_lt h
  rw [fmul_of_isFinite hfin hfin, withSign_toNat _ (roundPattern_lt _ _)]
  simp

theorem fmul_infinity : fmul 0x7F800000#32 0x7F800000#32 = 0x7F800000#32 := by decide +kernel

theorem fmul_self_le {u : Word} (h : u.toNat ≤ infinityPattern) : (fmul u u).toNat ≤ infinityPattern := by
  rcases h.lt_or_eq with hlt | heq
  · rw [fmul_self_toNat hlt]
    exact roundPattern_le _ _
  · rw [eq_infinity heq, fmul_infinity]
    decide

/-- The square does not fall as its operand grows from +0 to +infinity. -/
theorem fmul_self_mono {a b : Word} (hle : a.toNat ≤ b.toNat) (hb : b.toNat ≤ infinityPattern) :
    (fmul a a).toNat ≤ (fmul b b).toNat := by
  rcases hb.lt_or_eq with hlt | heq
  · rw [fmul_self_toNat (hle.trans_lt hlt), fmul_self_toNat hlt]
    have hmag := magnitude_mono hle hlt
    exact roundPattern_mono (by positivity) (by positivity) (Nat.mul_le_mul_right _ (Nat.mul_le_mul hmag hmag))
  · rw [eq_infinity heq, fmul_infinity]
    exact fmul_self_le (hle.trans hb)

theorem fdiv_one_toNat {u : Word} (h0 : 0 < u.toNat) (h : u.toNat < infinityPattern) :
    (fdiv ONE u).toNat = roundPattern (magnitude ONE * 2 ^ 149) (magnitude u) := by
  have hsign : signBit u = false := by
    unfold infinityPattern at h
    simpa [signBit_eq] using h.trans (by decide)
  rw [fdiv_of_isFinite (by decide) (isFinite_of_lt h) (magnitude_pos h0 h).ne', withSign_toNat _ (roundPattern_lt _ _),
    hsign, show signBit ONE = false by decide]
  exact if_neg (by decide)

theorem fdiv_one_zero : fdiv ONE 0#32 = 0x7F800000#32 := by decide +kernel

theorem fdiv_one_infinity : fdiv ONE 0x7F800000#32 = 0#32 := by decide +kernel

theorem fdiv_one_le {u : Word} (h : u.toNat ≤ infinityPattern) : (fdiv ONE u).toNat ≤ infinityPattern := by
  rcases h.lt_or_eq with hlt | heq
  · rcases Nat.eq_zero_or_pos u.toNat with h0 | h0
    · rw [show u = 0#32 from BitVec.eq_of_toNat_eq h0, fdiv_one_zero]
      decide
    · rw [fdiv_one_toNat h0 hlt]
      exact roundPattern_le _ _
  · rw [eq_infinity heq, fdiv_one_infinity]
    decide

/-- The reciprocal does not grow as its operand grows from +0 to +infinity. -/
theorem fdiv_one_antitone {a b : Word} (hle : a.toNat ≤ b.toNat) (hb : b.toNat ≤ infinityPattern) :
    (fdiv ONE b).toNat ≤ (fdiv ONE a).toNat := by
  rcases Nat.eq_zero_or_pos a.toNat with ha0 | ha0
  · rw [show a = 0#32 from BitVec.eq_of_toNat_eq ha0, fdiv_one_zero]
    exact fdiv_one_le hb
  · rcases hb.lt_or_eq with hlt | heq
    · have hpos := magnitude_pos ha0 (hle.trans_lt hlt)
      have hmag := magnitude_mono hle hlt
      rw [fdiv_one_toNat ha0 (hle.trans_lt hlt), fdiv_one_toNat (ha0.trans_le hle) hlt]
      exact roundPattern_mono (hpos.trans_le hmag) hpos (Nat.mul_le_mul_left _ hmag)
    · rw [eq_infinity heq, fdiv_one_infinity]
      exact Nat.zero_le _

/-! ### kScale -/

theorem kScaleOf_le {u : Word} (h : u.toNat ≤ infinityPattern) : (kScaleOf u).toNat ≤ infinityPattern :=
  fdiv_one_le (fmul_self_le h)

/-- kScale does not grow as the maximum grows from +0 to +infinity. -/
theorem kScaleOf_antitone {a b : Word} (hle : a.toNat ≤ b.toNat) (hb : b.toNat ≤ infinityPattern) :
    (kScaleOf b).toNat ≤ (kScaleOf a).toNat :=
  fdiv_one_antitone (fmul_self_mono hle hb) (fmul_self_le hb)

theorem kScaleOf_of_isNaN {u : Word} (h : isNaN u = true) : kScaleOf u = canonicalNaN := by
  rw [kScaleOf, fmul_of_isNaN (.inl h), fdiv_of_isNaN (.inr isNaN_canonicalNaN)]

/-- The values of kScale at the ends of its corner cases (40_command_engine.md R134). -/
theorem kScaleOf_at_ends :
    kScaleOf 0x1F800000#32 = 0x7F800000#32 ∧ kScaleOf 0x1F800001#32 = 0x7F7FFFF8#32 ∧
      kScaleOf 0x5EFFFFFF#32 = 0x00800001#32 ∧ kScaleOf 0x5F000001#32 = 0x007FFFFE#32 ∧
      kScaleOf 0x5F7FFFFF#32 = 0x00200000#32 := by decide +kernel

/-! ### kScale at the accept -/

/-- Every CMD write while IDLE latches the maximum and kScale, and shows kScale in K_SCALE, whatever its outcome
(40_command_engine.md R133, R134). -/
theorem commandWrite_kScale (w : Word) {s : State} (he : s.engine = .idle) :
    ∃ t, commandWrite p w s = .next t ∧ t.sMax = s.maxValue ∧ t.sKScale = kScaleOf s.maxValue ∧
      t.kScale = kScaleOf s.maxValue := by
  obtain ⟨hrun, -⟩ | ⟨-, i, -, ht⟩ | ⟨-, -, ht⟩ := commandWrite_cases (p := p) w s
  · simp [he] at hrun
  · refine ⟨_, ht, ?_⟩
    obtain ⟨code, -, -, ha⟩ | ⟨-, -, ha⟩ | ⟨-, -, ha⟩ := accept_cases (p := p) i (shapeOf i).checksKScale s <;> rw [ha] <;>
      exact ⟨rfl, rfl, rfl⟩
  · exact ⟨_, ht, rfl, rfl, rfl⟩

/-- Settles O13: each corner case lies between two ends of `kScaleOf_at_ends`, since kScale does not grow with the maximum. -/
theorem kScaleFollowsMaxValue : Obligations.KScaleFollowsMaxValue := by
  refine ⟨fun p w s he => ?_, ?_⟩
  · obtain ⟨t, ht, hmax, hks, hk⟩ := commandWrite_kScale (p := p) w he
    refine ⟨t, ht, hmax, ?_, hk.trans hks.symm⟩
    rw [hks, hmax]
    rfl
  obtain ⟨hsub, hsub', hnorm, hnorm', htiny⟩ := kScaleOf_at_ends
  refine ⟨by decide +kernel, by decide +kernel, by decide +kernel, by decide +kernel, by decide +kernel, hsub',
    by decide +kernel, fun u => ⟨?_, ?_, ?_, ?_, ?_, kScaleOf_of_isNaN⟩⟩
  · rintro ⟨-, hu⟩
    have hge := kScaleOf_antitone (a := u) (b := 0x1F800000#32) hu (by decide)
    rw [hsub] at hge
    exact eq_infinity (le_antisymm (kScaleOf_le (hu.trans (by decide))) hge)
  · rintro ⟨-, hu⟩
    have hle := fmul_self_mono (a := u) (b := 0x1A000000#32) hu (by decide)
    rw [show fmul 0x1A000000#32 0x1A000000#32 = 0#32 by decide +kernel] at hle
    exact BitVec.eq_of_toNat_eq (Nat.le_zero.1 hle)
  · rintro ⟨hlo, hhi⟩
    have hge := kScaleOf_antitone (a := u) (b := 0x5EFFFFFF#32) (Nat.le_pred_of_lt hhi) (by decide)
    have hle := kScaleOf_antitone (a := 0x1F800001#32) (b := u) hlo (hhi.le.trans (by decide))
    rw [hnorm] at hge
    rw [hsub'] at hle
    exact ⟨le_trans (by decide) hge, hle.trans_lt (by decide)⟩
  · rintro ⟨hlo, hhi⟩
    have hge := kScaleOf_antitone (a := u) (b := 0x5F7FFFFF#32) (Nat.le_pred_of_lt hhi) (by decide)
    have hle := kScaleOf_antitone (a := 0x5F000001#32) (b := u) hlo (hhi.le.trans (by decide))
    rw [htiny] at hge
    rw [hnorm'] at hle
    exact ⟨lt_of_lt_of_le (by decide) hge, hle.trans_lt (by decide)⟩
  · rintro ⟨hlo, hhi⟩
    have hsq : fmul u u = 0x7F800000#32 := by
      have hge := fmul_self_mono (a := 0x5F800000#32) (b := u) hlo hhi
      rw [show fmul 0x5F800000#32 0x5F800000#32 = 0x7F800000#32 by decide +kernel] at hge
      exact eq_infinity (le_antisymm (fmul_self_le hhi) hge)
    exact ⟨hsq, (congrArg (fdiv ONE) hsq).trans fdiv_one_infinity⟩

end Sys2Proof.Machine
end

section
/-! SUPPORT. The CMYK Bridge commands: a step of either writes the complement, and the complement taken twice gives an
integer back, because both differences are exact (41_cmyk_bridge.md R170 to R173). -/

namespace Sys2Proof.Machine

variable {p : Platform}

/-! ### A completed step of any command -/

/-- A step whose accesses complete writes the command's outputs, from the words in memory, to its elements and to no other
byte, and changes PROGRESS, the lane registers and what completion sets (40_command_engine.md R147, R149). -/
theorem execOn_completes {i : Instr} {s : State} (hl : legal p s = true) (hs : canStep s = true)
    (hok : stepAccessesOk p (shapeOf i).reads (shapeOf i).writes s = true) :
    ∃ mem lane, execOn p i s = .next (steppedTo p s mem lane) ∧
      (∀ c ∈ (shapeOf i).writes, ∀ j < stepSize p s, mem.readWord (elementAddress s c (s.progress.toNat + j)) =
        commandOutput i s.precision (elementInputs s (s.progress.toNat + j)) c) ∧
      (∀ addr, (∀ c ∈ (shapeOf i).writes, ∀ j < stepSize p s, holdsByte s c (s.progress.toNat + j) addr = false) →
        mem.readByte addr = s.mem.readByte addr) := by
  obtain ⟨he, ho⟩ := canStep_iff.1 hs
  have hf := (legal_iff.1 hl).runFacts he
  have hnodup : (shapeOf i).writes.Nodup := by rw [shapeOf_writes]; decide
  obtain ⟨mem, lane, hstep, -, -, hout, hkept⟩ := engineStep_completes hf hnodup hok
  exact ⟨mem, lane, (exec_run he ho).trans hstep,
    fun c hc j hj => (hout c hc j hj).trans (outputOf_stepInputs i s.precision s j _ hc), hkept⟩

theorem elementInputs_get (s : State) (k : Nat) (c : Component) : (elementInputs s k).get c = elementWord s c k := by
  cases c <;> rfl

/-! ### The two commands -/

/-- RGB2CMY and CMY2RGB have one shape: they read and write components 0 to 2, and their element functions are the same
(41_cmyk_bridge.md R171, R172). -/
theorem shapeOf_of_complement {i : Instr} (hi : i ∈ [Instr.rgb2cmy, .cmy2rgb]) : shapeOf i = shapeRgb2cmy := by
  cases i with
  | rgb2cmy => rfl
  | cmy2rgb => rfl
  | ycck2rgb => simp at hi
  | rgb2ycck => simp at hi

/-- The output of RGB2CMY and of CMY2RGB in components 0 to 2 is the complement (41_cmyk_bridge.md R170, R171). -/
theorem commandOutput_of_complement {i : Instr} (hi : i ∈ [Instr.rgb2cmy, .cmy2rgb]) (q : Precision) (x : Quad Word)
    {c : Component} (hc : c ∈ [Component.component0, .component1, .component2]) :
    commandOutput i q x c = fsub q.sMax (x.get c) := by
  cases c with
  | component3 => simp at hc
  | _ => rw [commandOutput, shapeOf_of_complement hi]; rfl

/-- Settles O14: a completed step writes the command's outputs, and those are the complements. -/
theorem complementStepsComplement : Obligations.ComplementStepsComplement := by
  intro p i hi s hl hs hok
  have hshape := shapeOf_of_complement hi
  obtain ⟨mem, lane, hstep, hout, hkept⟩ := execOn_completes (i := i) hl hs (by rw [hshape]; exact hok)
  rw [shapeOf_writes] at hout hkept
  refine ⟨mem, lane, hstep, exec_of_execOn hstep, fun c hc j hj => ?_, hkept⟩
  rw [hout c hc j hj, commandOutput_of_complement hi s.precision _ hc, elementInputs_get]
  rfl

/-! ### A word is its sign and its value -/

theorem fractionField_lt (u : Word) : fractionField u < 2 ^ 23 := by
  rw [fractionField_eq]
  exact Nat.mod_lt _ (by decide)

theorem magnitude_lt_of_exponentField_lt {a b : Word} (h : exponentField a < exponentField b) :
    magnitude a < magnitude b := by
  have hfa := fractionField_lt a
  have hb : 2 ^ 23 * 2 ^ (exponentField b - 1) ≤ magnitude b := by
    rw [magnitude, if_neg (by omega)]
    exact Nat.mul_le_mul_right _ (by omega)
  refine lt_of_lt_of_le ?_ hb
  have hpow {d e : Nat} (hde : d ≤ e) : 2 ^ d ≤ 2 ^ e := Nat.pow_le_pow_right (by decide) hde
  by_cases ha : exponentField a = 0
  · have := hpow (Nat.zero_le (exponentField b - 1))
    rw [magnitude, if_pos ha]
    omega
  · rw [magnitude, if_neg ha]
    calc (2 ^ 23 + fractionField a) * 2 ^ (exponentField a - 1)
        < 2 ^ 24 * 2 ^ (exponentField a - 1) := Nat.mul_lt_mul_of_pos_right (by omega) (by positivity)
      _ = 2 ^ 23 * 2 ^ (exponentField a - 1 + 1) := by ring
      _ ≤ 2 ^ 23 * 2 ^ (exponentField b - 1) := Nat.mul_le_mul_left _ (hpow (by omega))

/-- One magnitude has one pattern (00_scope.md R16). -/
theorem fields_eq_of_magnitude_eq {a b : Word} (h : magnitude a = magnitude b) :
    exponentField a = exponentField b ∧ fractionField a = fractionField b := by
  obtain hlt | heq | hgt := Nat.lt_trichotomy (exponentField a) (exponentField b)
  · exact absurd h (magnitude_lt_of_exponentField_lt hlt).ne
  · refine ⟨heq, ?_⟩
    simp only [magnitude, heq] at h
    split at h
    · exact h
    · exact Nat.add_left_cancel (Nat.eq_of_mul_eq_mul_right (by positivity) h)
  · exact absurd h (magnitude_lt_of_exponentField_lt hgt).ne'

theorem eq_of_signBit_of_magnitude {a b : Word} (hs : signBit a = signBit b) (hm : magnitude a = magnitude b) : a = b := by
  obtain ⟨he, hf⟩ := fields_eq_of_magnitude_eq hm
  have ha := a.isLt
  have hb := b.isLt
  simp only [signBit_eq, exponentField_eq, fractionField_eq, decide_eq_decide] at hs he hf
  exact BitVec.eq_of_toNat_eq (by omega)

/-- The sign of a word is that of its value, where that is not zero. -/
theorem signBit_of_unitValue_ne_zero {u : Word} (h : unitValue u ≠ 0) : signBit u = decide (unitValue u < 0) := by
  unfold unitValue at h ⊢
  cases hs : signBit u with
  | false => simp
  | true =>
    simp only [hs, if_true] at h ⊢
    exact (decide_eq_true (by omega)).symm

/-- Words of one value are equal, but for the two zeros. -/
theorem eq_of_unitValue {a b : Word} (h : unitValue a = unitValue b) (hs : unitValue a = 0 → signBit a = signBit b) :
    a = b := by
  have hsign : signBit a = signBit b := by
    by_cases hz : unitValue a = 0
    · exact hs hz
    · rw [signBit_of_unitValue_ne_zero hz, signBit_of_unitValue_ne_zero (h ▸ hz), h]
  refine eq_of_signBit_of_magnitude hsign ?_
  unfold unitValue at h
  rw [hsign] at h
  split at h <;> omega

theorem eq_zero_of_unitValue {u : Word} (h : unitValue u = 0) (hn : u ≠ 0x80000000#32) : u = 0x00000000#32 := by
  have hm : magnitude u = 0 := by
    unfold unitValue at h
    split at h <;> omega
  cases hs : signBit u with
  | false => exact eq_of_signBit_of_magnitude hs hm
  | true => exact absurd (eq_of_signBit_of_magnitude (b := 0x80000000#32) hs hm) hn

/-! ### Exact differences -/

/-- A multiple of 2^e up to 2^24 of them, that bound included, is a binary32 value, and rounding leaves it as it is. -/
theorem roundPattern_exact_le (negative : Bool) {n e : Nat} (hn : n ≤ 2 ^ 24) (he : e ≤ 229) :
    isFinite (withSign negative (roundPattern (n * 2 ^ e) 1)) = true ∧
      magnitude (withSign negative (roundPattern (n * 2 ^ e) 1)) = n * 2 ^ e := by
  obtain hlt | rfl := hn.lt_or_eq
  · exact roundPattern_exact negative hlt (by omega)
  · rw [show 2 ^ 24 * 2 ^ e = 1 * 2 ^ (24 + e) by ring]
    exact roundPattern_exact negative (by decide) (by omega)

theorem fsub_of_isFinite {a b : Word} (ha : isFinite a = true) (hb : isFinite b = true) :
    fsub a b =
      if unitValue a - unitValue b = 0 then withSign (signBit a && !signBit b) 0
      else withSign (decide (unitValue a - unitValue b < 0)) (roundPattern (unitValue a - unitValue b).natAbs 1) := by
  rw [fsub, fadd_of_isFinite ha (by simpa using hb), unitValue_fneg, signBit_fneg, ← sub_eq_add_neg]

/-- A difference that is an integer of magnitude 2^24 at most is exact (00_scope.md R17). -/
theorem fsub_exact {a b : Word} {d : Int} (ha : isFinite a = true) (hb : isFinite b = true)
    (hd : unitValue a - unitValue b = d * 2 ^ 149) (hle : d.natAbs ≤ 2 ^ 24) :
    isFinite (fsub a b) = true ∧ unitValue (fsub a b) = d * 2 ^ 149 := by
  rw [fsub_of_isFinite ha hb, hd]
  split
  · next hz =>
    rw [hz]
    cases signBit a && !signBit b <;> decide
  · have habs : (d * 2 ^ 149).natAbs = d.natAbs * 2 ^ 149 := Int.natAbs_mul d (2 ^ 149)
    obtain ⟨hfin, hmag⟩ := roundPattern_exact_le (decide (d * 2 ^ 149 < 0)) hle (e := 149) (by decide)
    rw [habs]
    refine ⟨hfin, ?_⟩
    rw [unitValue, signBit_withSign _ (roundPattern_lt _ _), hmag, ← habs]
    simp only [decide_eq_true_eq]
    split <;> omega

theorem fsub_zero {a : Word} (ha : isFinite a = true) {d : Int} (hd : unitValue a = d * 2 ^ 149)
    (hle : d.natAbs ≤ 2 ^ 24) : fsub a 0x00000000#32 = a := by
  have hzero : unitValue 0x00000000#32 = 0 := by decide
  have hval := (fsub_exact ha (b := 0x00000000#32) (by decide) (by rw [hzero, hd, sub_zero]) hle).2
  refine eq_of_unitValue (hval.trans hd.symm) fun hz => ?_
  rw [hval, ← hd] at hz
  rw [fsub_of_isFinite ha (by decide), if_pos (by rw [hz, hzero, sub_zero]), signBit_withSign _ (by decide),
    show signBit 0x00000000#32 = false by decide, Bool.not_false, Bool.and_true]

/-! ### The complement taken twice -/

/-- `s - (s - x)` is x for integers with exact differences: by its value where x is not zero, and as `s - s` for +0. -/
theorem fsub_fsub_cancel {s x : Word} {m n : Int} (hs : isFinite s = true) (hx : isFinite x = true)
    (hm : unitValue s = m * 2 ^ 149) (hn : unitValue x = n * 2 ^ 149) (hne : x ≠ 0x80000000#32)
    (hnle : n.natAbs ≤ 2 ^ 24) (hmle : m.natAbs ≤ 2 ^ 24) (hdle : (m - n).natAbs ≤ 2 ^ 24) : fsub s (fsub s x) = x := by
  obtain ⟨hfin, honce⟩ := fsub_exact hs hx (by rw [hm, hn, sub_mul]) hdle
  have htwice := (fsub_exact (d := n) hs hfin (by rw [hm, honce]; ring) hnle).2
  refine eq_of_unitValue (htwice.trans hn.symm) fun hz => ?_
  have hx0 : x = 0x00000000#32 := eq_zero_of_unitValue (by rw [hn, ← htwice, hz]) hne
  rw [hx0, fsub_zero hs hm hmle, listedSpecialCasesHold.1 s hs]

/-- Settles O59: both commands give the complement, and the second difference is exact as the first is. -/
theorem complementTwiceReturnsIntegers : Obligations.ComplementTwiceReturnsIntegers := by
  intro q x n m c hc hs hx hm hn hne hnle hmle hdle once
  rw [commandOutput_of_complement (by decide) q _ hc]
  have honce : Quad.get ⟨once .component0, once .component1, once .component2, once .component3⟩ c = once c := by
    cases c <;> rfl
  rw [honce, show once c = fsub q.sMax (x.get c) from commandOutput_of_complement (by decide) q x hc]
  exact fsub_fsub_cancel hs hx hm hn hne hnle hmle hdle

end Sys2Proof.Machine
end

section
/-! SUPPORT. YCCK2RGB: a step of it writes the conversion formula, and what the black component does to its outputs: signed zeros
at K = +0, and magnitudes that do not fall as K grows (42_ycck_to_rgb.md R181, R190 to R192). -/

namespace Sys2Proof.Machine

/-! ### The formula of a step -/

/-- The three outputs of YCCK2RGB as the rule writes them (42_ycck_to_rgb.md R181), the constants by their patterns
(00_scope.md R21). -/
theorem commandOutput_ycck2rgb (q : Precision) (x : Quad Word) :
    let y := x.c0
    let cb := fsub x.c1 q.sHalf
    let cr := fsub x.c2 q.sHalf
    let kp := fmul x.c3 q.sKScale
    commandOutput .ycck2rgb q x .component0 = fmul (fsub q.sMax (roundTA (fadd y (fmul 0x3FB374BC#32 cr)))) kp ∧
      commandOutput .ycck2rgb q x .component1 =
        fmul (fsub q.sMax (roundTA (fsub (fsub y (fmul 0x3EB03298#32 cb)) (fmul 0x3F36D19E#32 cr)))) kp ∧
      commandOutput .ycck2rgb q x .component2 = fmul (fsub q.sMax (roundTA (fadd y (fmul 0x3FE2D0E5#32 cb)))) kp :=
  ⟨rfl, rfl, rfl⟩

/-- Settles O15: a completed step writes the command's outputs, and those are the formula's. -/
theorem ycck2rgbStepConverts : Obligations.Ycck2rgbStepConverts := by
  intro p s hl hs hok
  obtain ⟨mem, lane, hstep, hout, hkept⟩ := execOn_completes (i := .ycck2rgb) hl hs hok
  rw [shapeOf_writes] at hout hkept
  refine ⟨mem, lane, hstep, exec_of_execOn hstep, fun j hj => ?_, hkept⟩
  obtain ⟨hr, hg, hb⟩ := commandOutput_ycck2rgb s.precision (elementInputs s (s.progress.toNat + j))
  exact ⟨(hout _ (by simp) j hj).trans hr, (hout _ (by simp) j hj).trans hg, (hout _ (by simp) j hj).trans hb⟩

/-! ### Products by a finite factor -/

/-- A word from +0 to +infinity has sign 0. -/
theorem signBit_of_le_infinity {u : Word} (h : u.toNat ≤ infinityPattern) : signBit u = false := by
  unfold infinityPattern at h
  rw [signBit_eq, decide_eq_false_iff_not]
  omega

theorem lt_infinity_of_isFinite {u : Word} (hfin : isFinite u = true) (h : u.toNat ≤ infinityPattern) :
    u.toNat < infinityPattern := by
  refine h.lt_of_ne fun heq => ?_
  rw [eq_infinity heq] at hfin
  exact absurd hfin (by decide)

theorem roundPattern_zero (den : Nat) : roundPattern 0 den = 0 := by
  simp [roundPattern, excessBits, roundDivEven]

theorem magnitude_zero : magnitude 0x00000000#32 = 0 := by decide

/-- A product with a zero factor is a zero, its sign the exclusive or of the signs. -/
theorem fmul_of_magnitude_mul_eq_zero {a b : Word} (ha : isFinite a = true) (hb : isFinite b = true)
    (h : magnitude a * magnitude b = 0) : fmul a b = withSign (signBit a != signBit b) 0 := by
  rw [fmul_of_isFinite ha hb, h, roundPattern_zero]

theorem absPattern_fmul {a b : Word} (ha : isFinite a = true) (hb : isFinite b = true) :
    absPattern (fmul a b) = roundPattern (magnitude a * magnitude b) (2 ^ 149) := by
  rw [fmul_of_isFinite ha hb, absPattern_withSign _ (roundPattern_lt _ _)]

theorem fmul_toNat_of_signBit_eq {a b : Word} (ha : isFinite a = true) (hb : isFinite b = true)
    (hs : signBit a = signBit b) : (fmul a b).toNat = roundPattern (magnitude a * magnitude b) (2 ^ 149) := by
  rw [fmul_of_isFinite ha hb, hs, bne_self_eq_false, withSign_toNat _ (roundPattern_lt _ _)]
  exact if_neg (by decide)

/-! ### No black -/

/-- A finite minuend and an infinite subtrahend give the infinity of the other sign. -/
theorem fsub_of_isInfinite {a b : Word} (ha : isFinite a = true) (hb : isInfinite b = true) : fsub a b = fneg b := by
  simp [fsub, fadd, isNaN_of_isFinite ha, isInfinite_of_isFinite ha, isNaN_of_isInfinite hb, hb]

/-- `(s - x) * (+0)` where x is not finite: a NaN times a zero, or an infinity times a zero. -/
theorem fmul_fsub_zero_of_not_isFinite {s x : Word} (hs : isFinite s = true) (hx : isFinite x = false) :
    fmul (fsub s x) 0x00000000#32 = canonicalNaN := by
  cases hn : isNaN x with
  | true => rw [fsub_of_isNaN (.inr hn), fmul_of_isNaN (.inl isNaN_canonicalNaN)]
  | false =>
    have hinf : isInfinite x = true := by
      by_contra hni
      exact absurd ((predicatesReadThePattern x).1.2 ⟨by simpa using hni, hn⟩) (by simp [hx])
    rw [fsub_of_isInfinite hs hinf]
    exact fmul_of_zero_and_infinity (.inr ⟨by simpa using hinf, by decide⟩)

theorem fmul_zero_of_isFinite {d : Word} (hd : isFinite d = true) :
    fmul d 0x00000000#32 = withSign (signBit d) 0 := by
  rw [fmul_of_magnitude_mul_eq_zero hd (by decide) (by rw [magnitude_zero, Nat.mul_zero]),
    show signBit 0x00000000#32 = false by decide, Bool.bne_false]

/-- `(s - x) * (+0)` by the difference: a zero of its sign where it is finite, the canonical NaN where x is not finite
(42_ycck_to_rgb.md R190). -/
theorem fmul_fsub_zero {s : Word} (hs : isFinite s = true) (x : Word) :
    let d := fsub s x
    (isFinite d = true → signBit d = false → fmul d 0x00000000#32 = 0x00000000#32) ∧
      (isFinite d = true → signBit d = true → fmul d 0x00000000#32 = 0x80000000#32) ∧
      (isFinite x = false → fmul d 0x00000000#32 = canonicalNaN) := by
  refine ⟨fun hd hsign => ?_, fun hd hsign => ?_, fmul_fsub_zero_of_not_isFinite hs⟩
  · rw [fmul_zero_of_isFinite hd, hsign]
    rfl
  · rw [fmul_zero_of_isFinite hd, hsign]
    rfl

/-- Settles O57: K = +0 gives kp = +0, and an output is then `S_MAX - r` times +0. -/
theorem zeroBlackGivesSignedZeros : Obligations.ZeroBlackGivesSignedZeros := by
  intro p y cb cr hmax _ hk hkpos out b r
  have hkp : fmul 0x00000000#32 p.sKScale = 0x00000000#32 := by
    rw [fmul_of_magnitude_mul_eq_zero (by decide) hk (by rw [magnitude_zero, Nat.zero_mul]),
      signBit_of_le_infinity ((isPositive_iff _).1 hkpos).2]
    decide
  refine ⟨hkp, fun q hq => ?_⟩
  simp only [out, elementYcck2rgb, hkp, List.mem_cons, List.not_mem_nil, or_false] at hq
  obtain rfl | rfl | rfl := hq
  · exact fmul_fsub_zero hmax (ycckRed y r)
  · exact fmul_fsub_zero hmax (ycckGreen y b r)
  · exact fmul_fsub_zero hmax (ycckBlue y b)

/-! ### Growing black -/

/-- A product by a finite factor does not fall in magnitude as the other factor grows from +0. -/
theorem absPattern_fmul_mono {d a b : Word} (hd : isFinite d = true) (hle : a.toNat ≤ b.toNat)
    (hb : b.toNat < infinityPattern) : absPattern (fmul d a) ≤ absPattern (fmul d b) := by
  rw [absPattern_fmul hd (isFinite_of_lt (hle.trans_lt hb)), absPattern_fmul hd (isFinite_of_lt hb)]
  exact roundPattern_mono (by positivity) (by positivity)
    (Nat.mul_le_mul_right _ (Nat.mul_le_mul_left _ (magnitude_mono hle hb)))

/-- A black scaled by a positive kScale, kp, does not fall as K grows from +0 and stays from +0 to +infinity. -/
theorem fmul_kScale_mono {k k' c : Word} (hc : isFinite c = true) (hpos : isPositive c = true) (hle : k.toNat ≤ k'.toNat)
    (hk' : k'.toNat < infinityPattern) :
    (fmul k c).toNat ≤ (fmul k' c).toNat ∧ (fmul k' c).toNat ≤ infinityPattern := by
  have hsign : signBit c = false := signBit_of_le_infinity ((isPositive_iff c).1 hpos).2
  have hkp {u : Word} (hu : u.toNat < infinityPattern) :
      (fmul u c).toNat = roundPattern (magnitude u * magnitude c) (2 ^ 149) :=
    fmul_toNat_of_signBit_eq (isFinite_of_lt hu) hc ((signBit_of_le_infinity hu.le).trans hsign.symm)
  rw [hkp hk', hkp (hle.trans_lt hk')]
  exact ⟨roundPattern_mono (by positivity) (by positivity)
    (Nat.mul_le_mul_right _ (Nat.mul_le_mul_right _ (magnitude_mono hle hk'))), roundPattern_le _ _⟩

/-- Settles O58: kp does not fall as K grows, and each output is the finite `S_MAX - r`, which K does not change, times kp. -/
theorem blackScalingIsMonotonic : Obligations.BlackScalingIsMonotonic := by
  intro p y cb cr k k' hc hpos hle hk' hfin out out' b r
  obtain ⟨hkp, hinf⟩ := fmul_kScale_mono hc hpos hle hk'
  have hlt := lt_infinity_of_isFinite hfin hinf
  exact ⟨fun hd => absPattern_fmul_mono hd hkp hlt, fun hd => absPattern_fmul_mono hd hkp hlt,
    fun hd => absPattern_fmul_mono hd hkp hlt⟩

/-! ### The worked example -/

/-- Settles O60: the chroma is +0, so that r, g and b are Y, and each output is `(255 - 128) * kp`. -/
theorem workedExampleHolds : Obligations.WorkedExampleHolds := by
  have hchroma : fsub 0x43000000#32 0x43000000#32 = 0x00000000#32 := by decide +kernel
  have hscale : kScaleOf 0x437F0000#32 = 0x37810182#32 := by decide +kernel
  have hkp : fmul 0x437F0000#32 0x37810182#32 = 0x3B808080#32 := by decide +kernel
  have hr : ycckRed 0x43000000#32 0#32 = 0x43000000#32 := by decide +kernel
  have hg : ycckGreen 0x43000000#32 0#32 0#32 = 0x43000000#32 := by decide +kernel
  have hb : ycckBlue 0x43000000#32 0#32 = 0x43000000#32 := by decide +kernel
  have hout : fmul (fsub 0x437F0000#32 0x43000000#32) 0x3B808080#32 = 0x3EFEFEFE#32 := by decide +kernel
  refine ⟨hchroma, hscale, by rw [hscale, hkp], hr, hg, hb, ?_⟩
  rw [elementYcck2rgb, hchroma, hscale, hkp, hr, hg, hb, hout]

end Sys2Proof.Machine
end

section
/-! SUPPORT. RGB2YCCK: a step of it writes luma and the two chroma of the color that the double subtraction gives
(43_rgb_to_ycck.md R202 to R206). -/

namespace Sys2Proof.Machine

/-- The three outputs of RGB2YCCK as the rules write them, over the `r`, `g`, `b` that both subtractions leave
(43_rgb_to_ycck.md R202 to R206), the constants by their patterns (00_scope.md R21). -/
theorem commandOutput_rgb2ycck (q : Precision) (x : Quad Word) :
    let r := fsub q.sMax (fsub q.sMax x.c0)
    let g := fsub q.sMax (fsub q.sMax x.c1)
    let b := fsub q.sMax (fsub q.sMax x.c2)
    commandOutput .rgb2ycck q x .component0 =
        fadd (fadd (fmul 0x3E991687#32 r) (fmul 0x3F1645A2#32 g)) (fmul 0x3DE978D5#32 b) ∧
      commandOutput .rgb2ycck q x .component1 =
        fadd (fsub (fsub q.sHalf (fmul 0x3E2CC921#32 r)) (fmul 0x3EA99B6F#32 g)) (fmul 0x3F000000#32 b) ∧
      commandOutput .rgb2ycck q x .component2 =
        fsub (fsub (fadd q.sHalf (fmul 0x3F000000#32 r)) (fmul 0x3ED65E46#32 g)) (fmul 0x3DA686E8#32 b) :=
  ⟨rfl, rfl, rfl⟩

/-- Settles O16: a completed step writes the command's outputs, and those are the formulas'. -/
theorem rgb2ycckStepConverts : Obligations.Rgb2ycckStepConverts := by
  intro p s hl hs hok
  obtain ⟨mem, lane, hstep, hout, hkept⟩ := execOn_completes (i := .rgb2ycck) hl hs hok
  rw [shapeOf_writes] at hout hkept
  refine ⟨mem, lane, hstep, exec_of_execOn hstep, fun j hj => ?_, hkept⟩
  obtain ⟨hy, hcb, hcr⟩ := commandOutput_rgb2ycck s.precision (elementInputs s (s.progress.toNat + j))
  exact ⟨(hout _ (by simp) j hj).trans hy, (hout _ (by simp) j hj).trans hcb, (hout _ (by simp) j hj).trans hcr⟩

end Sys2Proof.Machine
end

section
/-! SUPPORT. The buffers of a running command stay consistent: an event of the host reaches no byte of an active region
(20_memory.md R89; 70_reset_and_hazards.md R267), an accept starts with every input in place, and a completed step moves its
elements from their inputs to their outputs (60_exceptions.md R231; 40_command_engine.md R146, R157). -/

namespace Sys2Proof.Machine

variable {p : Platform} {s : State}

/-! ### When the predicate says something -/

theorem buffersConsistent_iff :
    buffersConsistent s = true ↔ (canStep s = true → ∀ k < s.sLen.toNat, ∀ c,
      elementWord s c k = if k < s.progress.toNat then valueWritten s c k else (inputsAtAccept s k).get c) := by
  refine ⟨fun hc hs k hk c => buffersConsistent_of_canStep hc hs hk c, fun h => ?_⟩
  cases hb : busy s with
  | false => simp [buffersConsistent, hb]
  | true =>
    cases ho : s.outstanding with
    | some a => simp [buffersConsistent, ho]
    | none =>
      simp only [buffersConsistent, hb, ho, Bool.not_true, Option.isSome_none, Bool.false_or, List.all_eq_true,
        List.mem_range, beq_iff_eq]
      exact fun k hk c _ => h (by simp [canStep, hb, ho]) k hk c

/-- It says nothing of an engine that is IDLE or waits inside a step. -/
theorem buffersConsistent_of_not_canStep (h : s.engine = .idle ∨ s.outstanding.isSome = true) :
    buffersConsistent s = true := by
  rcases h with he | ho
  · simp [buffersConsistent, busy_of_idle he]
  · simp [buffersConsistent, ho]

/-! ### Events of the host -/

/-- Events of the host that leave the active regions as they are keep the buffers consistent. -/
theorem buffersConsistent_hostSide (hl : LegalParts p s) (hc : buffersConsistent s = true) {mem : Memory}
    (hmem : ∀ addr, activeComponent s addr ≠ none → mem.readByte addr = s.mem.readByte addr) (cache : List CachedWord)
    (es : List HostEvent) (r : Response) (n : Nat) : buffersConsistent (hostSide s mem cache es r n) = true := by
  rw [buffersConsistent_iff]
  intro (hs : canStep s = true) k hk c
  have he := (canStep_iff.1 hs).1
  have hf := hl.runFacts he
  have hword : mem.readWord (elementAddress s c k) = elementWord s c k :=
    readWord_congr (elementAddress_aligned hf c hk) fun y hlo hhi => hmem y (by
      rw [activeComponent_of_inRegion hf he (inRegion_of_element hf hk hlo hhi)]
      simp)
  exact hword.trans (buffersConsistent_of_canStep hc hs hk c)

theorem portRead_buffers (hc : buffersConsistent s = true) {size addr : Nat} {t : State}
    (h : portRead p size addr s = .next t) : buffersConsistent t = true := by
  obtain ⟨-, ht⟩ | ⟨-, ⟨-, ht⟩ | ⟨-, ht⟩ | ⟨r, -, ht⟩⟩ := portRead_cases (p := p) size addr s <;>
    cases ht.symm.trans h <;> exact hc

theorem waitRound_buffers (hc : buffersConsistent s = true) {t : State} (h : waitRound s = .next t) :
    buffersConsistent t = true := by
  obtain ⟨-, ht⟩ | ⟨-, -, ht⟩ | ⟨-, -, ht⟩ := waitRound_cases s <;> cases ht.symm.trans h <;> exact hc

theorem hostRead_buffers (hc : buffersConsistent s = true) {addr count : Nat} {t : State}
    (h : hostRead p addr count s = .next t) : buffersConsistent t = true := by
  obtain ⟨-, ht⟩ | ⟨-, ht⟩ := hostRead_cases (p := p) addr count s <;> cases ht.symm.trans h
  exact hc

/-- A host write that is performed reaches no active byte (20_memory.md R89). -/
theorem hostWrite_buffers (hl : LegalParts p s) (hc : buffersConsistent s = true) {addr : Nat} {bytes : List Byte} {t : State}
    (h : hostWrite p addr bytes s = .next t) : buffersConsistent t = true := by
  obtain ⟨-, ht⟩ | ⟨-, -, ht⟩ | ⟨hin, hfree, ⟨-, ht⟩ | ⟨-, ht⟩⟩ := hostWrite_cases (p := p) addr bytes s <;>
    cases ht.symm.trans h
  · refine buffersConsistent_hostSide hl hc (fun y hy => ?_) s.hostCache s.inputs .written s.freeCount
    rw [Memory.readByte_writeBytes bytes y hl.memWf hin, if_neg]
    rintro ⟨hlo, hhi⟩
    have hnone := hfree (y - addr) (by omega)
    rw [Nat.add_sub_cancel' hlo] at hnone
    exact hy hnone
  · exact hc

/-- A write-back that is performed reaches no active byte (70_reset_and_hazards.md R267). -/
theorem cacheClean_buffers (hl : LegalParts p s) (hc : buffersConsistent s = true) {addr count : Nat} {t : State}
    (h : cacheClean addr count s = .next t) : buffersConsistent t = true := by
  obtain ⟨-, ht⟩ | ⟨hfree, ht⟩ := cacheClean_cases addr count s <;> cases ht.symm.trans h
  have hcache := ((cacheLegal_iff s).1 hl.cache).1
  refine buffersConsistent_hostSide hl hc (fun y hy => ?_) _ s.inputs s.response s.freeCount
  refine readByte_writeBack_of_not_dirty hcache hl.memWf fun e ⟨htouched, he, hd⟩ => ?_
  have hi := (cacheLookup_mem he).2
  have hin : e ∈ dirtyIn addr count s.hostCache := (mem_dirtyIn hcache).2 (by rw [hi]; exact ⟨htouched, he, hd⟩)
  have hnone := (wordActive_eq_false s e.index).1 (hfree e hin) (y % 4) (Nat.mod_lt y (by decide))
  rw [hi, Nat.div_add_mod] at hnone
  exact hy hnone

/-! ### Writes of the register port, the accept among them -/

/-- No register that the host writes is in the predicate (10_state.md R47). -/
theorem buffersConsistent_writeRegister (r : Reg) (v : Word) (s : State) :
    buffersConsistent (writeRegister r v s) = buffersConsistent s := by
  cases r with
  | status => rw [writeRegister, writeStatus_eq]; rfl
  | _ => rfl

/-- A command starts with no element done and every buffer as it is at accept. -/
theorem accept_buffers (i : Instr) (k : Bool) (he : s.engine = .idle) : buffersConsistent (accept p i k s) = true := by
  obtain ⟨code, -, -, ht⟩ | ⟨-, -, ht⟩ | ⟨-, -, ht⟩ := accept_cases (p := p) i k s <;> rw [ht]
  · exact buffersConsistent_of_not_canStep (.inl rfl)
  · exact buffersConsistent_of_not_canStep (.inl he)
  · rw [buffersConsistent_iff]
    intro _ k _ c
    refine Eq.trans ?_ (if_neg (Nat.not_lt_zero k)).symm
    cases c <;> rfl

theorem commandWrite_buffers (hc : buffersConsistent s = true) {w : Word} {t : State} (h : commandWrite p w s = .next t) :
    buffersConsistent t = true := by
  obtain ⟨-, ht⟩ | ⟨he, i, -, ht⟩ | ⟨-, -, ht⟩ := commandWrite_cases (p := p) w s <;> cases ht.symm.trans h
  · exact hc
  · exact accept_buffers i _ he
  · exact buffersConsistent_of_not_canStep (.inl rfl)

theorem portWrite_buffers (hc : buffersConsistent s = true) {size addr : Nat} {v : Word} {t : State}
    (h : portWrite p size addr v s = .next t) : buffersConsistent t = true := by
  obtain ⟨-, ht⟩ | ⟨-, ⟨-, ht⟩ | ⟨-, ht⟩ | ⟨-, ht⟩ | ⟨r, -, -, ht⟩⟩ := portWrite_cases (p := p) size addr v s
  · cases ht.symm.trans h
  · cases ht.symm.trans h
  · cases ht.symm.trans h
    exact hc
  · exact commandWrite_buffers (s := s.setResponse .written) hc (ht.symm.trans h)
  · cases ht.symm.trans h
    rw [buffersConsistent_writeRegister]
    exact hc

/-! ### The engine's turn -/

/-- A completed step leaves every element that is not done yet as it was at accept. -/
theorem completed_step_inputs (h : RunFacts p s) (hc : buffersConsistent s = true) (hs : canStep s = true) {mem : Memory}
    (hkept : ∀ addr, (∀ c ∈ (shapeOf s.op).writes, ∀ j < stepSize p s, holdsByte s c (s.progress.toNat + j) addr = false) →
      mem.readByte addr = s.mem.readByte addr) {k : Nat} (hk : k < s.sLen.toNat)
    (hi : s.progress.toNat + stepSize p s ≤ k) (c : Component) :
    mem.readWord (elementAddress s c k) = (inputsAtAccept s k).get c := by
  have hle := (stepSize_bounds h).2.2
  have hword : mem.readWord (elementAddress s c k) = elementWord s c k :=
    readWord_congr (elementAddress_aligned h c hk) fun y hlo hhi => hkept y fun d _ j hj =>
      holdsByte_of_ne h hk (by omega) (by omega) hlo hhi
  rw [hword, buffersConsistent_of_canStep hc hs hk c, if_neg (by omega)]

/-- A step whose accesses all complete moves its elements below PROGRESS with their outputs. -/
theorem completed_step_buffers (hl : legal p s = true) (hc : buffersConsistent s = true) (hs : canStep s = true)
    (hok : stepAccessesOk p (shapeOf s.op).reads (shapeOf s.op).writes s = true) {t : State}
    (h : execOn p s.op s = .next t) : buffersConsistent t = true := by
  have hf := (legal_iff.1 hl).runFacts (canStep_iff.1 hs).1
  obtain ⟨mem, lane, hstep, hwords⟩ := completed_step_words hf hc hs hok
  obtain ⟨mem', lane', hstep', -, hkept⟩ := execOn_completes hl hs hok
  have hmem : mem = mem' := congrArg State.mem (Host.Outcome.next.inj (hstep.symm.trans hstep'))
  subst hmem
  cases hstep.symm.trans h
  by_cases hend : s.progress + BitVec.ofNat 32 (stepSize p s) = s.sLen
  · rw [steppedTo_of_last mem lane hend]
    exact buffersConsistent_of_not_canStep (.inl rfl)
  · rw [steppedTo_of_not_last mem lane hend, buffersConsistent_iff]
    intro _ k hk c
    show mem.readWord (elementAddress s c k) =
      if k < (s.progress + BitVec.ofNat 32 (stepSize p s)).toNat then valueWritten s c k else (inputsAtAccept s k).get c
    rw [progress_add_toNat hf]
    split
    · next hlt => exact hwords c k hlt
    · next hge => exact completed_step_inputs hf hc hs hkept hk (Nat.le_of_not_lt hge) c

theorem engineTurn_buffers (hl : legal p s = true) (hc : buffersConsistent s = true) {t : State}
    (h : engineTurn p s = .next t) : buffersConsistent t = true := by
  obtain ⟨-, ht⟩ | ⟨-, he, ht⟩ := engineTurn_cases (p := p) s <;> replace h := ht.symm.trans h
  · cases h
    exact hc
  cases ho : s.outstanding with
  | some a =>
    cases (exec_stuck he (by rw [ho]; rfl)).symm.trans h
    exact hc
  | none =>
    cases hok : stepAccessesOk p (shapeOf s.op).reads (shapeOf s.op).writes s with
    | true => exact completed_step_buffers hl hc (canStep_iff.2 ⟨he, ho⟩) hok h
    | false =>
      rw [exec_run he ho] at h
      exact buffersConsistent_of_not_canStep (engineStep_halts h hok).2.2

/-- Settles O49: each event keeps the buffers of a running command consistent, and the engine's turn is the one that moves its
elements. -/
theorem everyStepKeepsBuffersConsistent : Obligations.EveryStepKeepsBuffersConsistent := by
  intro p s t hl hc h
  obtain ⟨hi, hs⟩ | ⟨e, es, hi, hs⟩ := step_cases (p := p) s <;> replace h := hs.symm.trans h
  · exact engineTurn_buffers hl hc h
  · have hl : LegalParts p (s.setInputs es) := (legal_iff.1 hl).setInputs es
    have hc : buffersConsistent (s.setInputs es) = true := hc
    cases e with
    | portRead size addr => exact portRead_buffers hc h
    | portWrite size addr v => exact portWrite_buffers hc h
    | engineTurn => exact engineTurn_buffers (legal_iff.2 hl) hc h
    | wait => exact waitRound_buffers hc h
    | memRead addr count => exact hostRead_buffers hc h
    | memWrite addr bytes => exact hostWrite_buffers hl hc h
    | assertReset n landed =>
      cases h
      exact buffersConsistent_of_not_canStep (.inl rfl)
    | releaseReset => cases h; exact hc
    | cacheClean addr count => exact cacheClean_buffers hl hc h
    | cacheInvalidate addr count => cases h; exact hc

end Sys2Proof.Machine
end

section
/-! SUPPORT. Errors and flags: what a rejection records (60_exceptions.md R224), what an access that ends in a bus error leaves of
its step (60_exceptions.md R228, R229, R231), how long OVR stays (60_exceptions.md R225), and the interrupt output (60_exceptions.md
R236). -/

namespace Sys2Proof.Machine

variable {p : Platform} {s : State}

/-! ### The interrupt output -/

/-- Bits 1, 2 and 3 of STATUS are DONE, ERR and OVR (10_state.md R35). -/
theorem statusWord_getLsbD_flags (s : State) :
    (statusWord s).getLsbD 1 = s.done ∧ (statusWord s).getLsbD 2 = s.err ∧ (statusWord s).getLsbD 3 = s.ovr := by
  simp only [statusWord, BitVec.getLsbD_setWidth, BitVec.getLsbD_append]
  simp [flagBit]

/-- The enables of IRQ_EN read in its low three bits (10_state.md R37). -/
theorem readRegister_irqEn_getLsbD (p : Platform) (s : State) {k : Nat} (hk : k < 3) :
    (readRegister p .irqEn s).getLsbD k = s.irqEn.getLsbD k := by
  rw [readRegister, BitVec.getLsbD_setWidth, decide_eq_true (by omega), Bool.true_and]

/-- Settles O30: the flags and their enables are bits of STATUS and IRQ_EN. -/
theorem irqFollowsStatusAndEnables : Obligations.IrqFollowsStatusAndEnables := by
  intro p s
  obtain ⟨hdone, herr, hovr⟩ := statusWord_getLsbD_flags s
  rw [hdone, herr, hovr, readRegister_irqEn_getLsbD p s (by omega), readRegister_irqEn_getLsbD p s (by omega),
    readRegister_irqEn_getLsbD p s (by omega), irq]

/-! ### OVR -/

/-- A register write clears OVR only as a STATUS write with bit 3 set (10_state.md R36). -/
theorem writeRegister_ovr (r : Reg) (v : Word) (s : State) :
    (writeRegister r v s).ovr = s.ovr ∨ (r = .status ∧ v.getLsbD 3 = true) := by
  cases r with
  | status =>
    rw [writeRegister, writeStatus_eq]
    cases v.getLsbD 3 <;> simp
  | _ => exact .inl rfl

/-- An accept keeps OVR, whatever its outcome (40_command_engine.md R131). -/
theorem accept_ovr (i : Instr) (k : Bool) (s : State) : (accept p i k s).ovr = s.ovr := by
  obtain ⟨code, -, -, h⟩ | ⟨-, -, h⟩ | ⟨-, -, h⟩ := accept_cases (p := p) i k s <;> rw [h] <;> rfl

/-- An engine step keeps OVR, however it ends. -/
theorem execOn_run_ovr {i : Instr} {t : State} (he : s.engine = .run) (h : execOn p i s = .next t) : t.ovr = s.ovr := by
  cases ho : s.outstanding with
  | some a =>
    cases (exec_stuck he (by rw [ho]; rfl)).symm.trans h
    rfl
  | none => cases engineStep_end ((exec_run he ho).symm.trans h) <;> rfl

/-- Settles O32: of everything a step can do, a STATUS write and a reset alone clear OVR. -/
theorem overrunStaysUntilCleared : Obligations.OverrunStaysUntilCleared := by
  intro p s t h hovr
  cases stepOn_outcome h with
  | host mem cache es r n => exact .inl hovr
  | wrote r size addr v es hi ht =>
    obtain hkept | ⟨rfl, hv⟩ := writeRegister_ovr r v (writeAnswered s es)
    · exact .inl (hkept.trans hovr)
    · obtain ⟨rfl, rfl⟩ := portTarget_eq_register ht (by decide)
      exact .inr (.inl ⟨v, es, hi, hv⟩)
  | overran w es => exact .inl rfl
  | accepted i es => exact .inl ((accept_ovr i _ (writeAnswered s es)).trans hovr)
  | rejected w es => exact .inl hovr
  | ran es t hr he hx => exact .inl ((execOn_run_ovr (s := s.setInputs es) he hx).trans hovr)
  | reset n landed es hi => exact .inr (.inr ⟨n, landed, es, hi⟩)
  | released es => exact .inl hovr

/-! ### Rejections -/

/-- A rejection while IDLE, field by field (60_exceptions.md R224). -/
theorem rejection_of_idle (code : ErrorCode) (w : Word) (he : s.engine = .idle) :
    raiseError code 0#32 (beginAccept w s) = { acceptedBase w s with err := true, errCode := code } := by
  show { acceptedBase w s with engine := .idle, err := true, errCode := code } = _
  rw [← he]
  rfl

/-- An accept while IDLE records no error, or is a rejection. -/
theorem accept_error_cases (i : Instr) (k : Bool) (he : s.engine = .idle) :
    ((accept p i k s).errCode = .none ∧ (accept p i k s).err = false) ∨
      ∃ code, code ≠ .none ∧ accept p i k s = { acceptedBase (encode i) s with err := true, errCode := code } := by
  obtain ⟨code, hne, -, h⟩ | ⟨-, -, h⟩ | ⟨-, -, h⟩ := accept_cases (p := p) i k s <;> rw [h]
  · exact .inr ⟨code, hne, rejection_of_idle code (encode i) he⟩
  · exact .inl ⟨rfl, rfl⟩
  · exact .inl ⟨rfl, rfl⟩

/-- Settles O10: an illegal word is rejected, and the accept of a legal one sets no error or is a rejection. -/
theorem rejectionLeavesEverythingElse : Obligations.RejectionLeavesEverythingElse := by
  intro p w s he
  obtain ⟨hrun, -⟩ | ⟨-, i, hd, ht⟩ | ⟨-, -, ht⟩ := commandWrite_cases (p := p) w s
  · simp [he] at hrun
  · rw [← encode_of_decode hd] at ht ⊢
    refine ⟨_, ht, ?_⟩
    obtain ⟨hcode, herr⟩ | ⟨code, hne, heq⟩ := accept_error_cases (p := p) i (shapeOf i).checksKScale he
    · exact ⟨fun _ => herr, fun hne => absurd hcode hne⟩
    · rw [heq]
      exact ⟨fun hnone => absurd hnone hne, fun _ => rfl⟩
  · rw [acceptIllegal_of_idle w he] at ht
    exact ⟨_, ht, (nomatch ·), fun _ => rfl⟩

/-! ### A phase up to the first access that does not complete -/

theorem busAnswer_of_not_busOk {addr : Word} {kind : AccessKind} (h : busOk p addr kind = false) :
    busAnswer p addr kind = .error := by
  simpa [busOk] using h

/-- A read phase passes the reads that complete, changing lane registers only. -/
theorem readPhase_append (pre rest : List (Component × Nat)) (s : State)
    (h : ∀ x ∈ pre, busAnswer p (elementAddress s x.1 (s.progress.toNat + x.2)) .read = .ok) :
    ∃ lane, readPhase p (pre ++ rest) s = readPhase p rest { s with lane := lane } := by
  induction pre generalizing s with
  | nil => exact ⟨s.lane, rfl⟩
  | cons x pre ih =>
    obtain ⟨c, j⟩ := x
    obtain ⟨hok, hpre⟩ := List.forall_mem_cons.1 h
    obtain ⟨lane, hrest⟩ := ih (s.setLaneReg c j (s.mem.readWord (elementAddress s c (s.progress.toNat + j)))) hpre
    refine ⟨lane, ?_⟩
    rw [List.cons_append, readPhase]
    simp only [hok]
    exact hrest

/-- A write phase passes the writes that complete, performing them. -/
theorem writePhase_append (pre rest : List (Word × Word)) (s : State) (h : ∀ w ∈ pre, busAnswer p w.1 .write = .ok) :
    writePhase p (pre ++ rest) s = writePhase p rest (s.setMem (writeAll pre s.mem)) := by
  induction pre generalizing s with
  | nil => rfl
  | cons w pre ih =>
    obtain ⟨a, v⟩ := w
    obtain ⟨hok, hpre⟩ := List.forall_mem_cons.1 h
    rw [List.cons_append, writePhase]
    simp only [hok]
    exact ih _ hpre

/-! ### A bus error in the read phase -/

/-- Settles O21: the read phase ends at the failing read, with lane registers changed alone. -/
theorem readBusErrorAborts : Obligations.ReadBusErrorAborts := by
  intro p i s pre post c j hs horder hpre hbus
  obtain ⟨he, ho⟩ := canStep_iff.1 hs
  obtain ⟨lane, hpass⟩ := readPhase_append pre ((c, j) :: post) s hpre
  have hread : readPhase p (accessOrder (shapeOf i).reads (stepSize p s)) s =
      .busError { s with lane := lane } (elementAddress s c (s.progress.toNat + j)) := by
    have herr : busAnswer p (elementAddress { s with lane := lane } c (s.progress.toNat + j)) .read = .error :=
      busAnswer_of_not_busOk hbus
    rw [horder, hpass, readPhase]
    simp only [herr]
    rfl
  exact ⟨lane, by rw [exec_run he ho, engineStep, hread]; rfl⟩

/-! ### A bus error in the write phase -/

/-- The write that a step of command i makes to element j of component c: the command's output for what memory holds. -/
def outputWrite (i : Instr) (s : State) (x : Component × Nat) : Word × Word :=
  (elementAddress s x.1 (s.progress.toNat + x.2),
    commandOutput i s.precision (elementInputs s (s.progress.toNat + x.2)) x.1)

/-- A step whose reads all complete goes on to write its outputs, with lane registers changed alone (40_command_engine.md
R147). -/
theorem engineStep_of_reads_ok {i : Instr} (h : RunFacts p s) (hok : stepAccessesOk p (shapeOf i).reads [] s = true) :
    ∃ lane, engineStep p (shapeOf i) s =
      afterPhase (writePhase p ((accessOrder (shapeOf i).writes (stepSize p s)).map (outputWrite i s)) { s with lane := lane })
        fun u => .next (finishStep (stepSize p s) u) := by
  simp only [stepAccessesOk, Bool.and_eq_true, List.all_eq_true, beq_iff_eq] at hok
  obtain ⟨u, hr⟩ := readPhase_done (p := p) (accessOrder (shapeOf i).reads (stepSize p s)) s (fun x hx => hok.1 x hx)
  have hout := fun c j (hj : j < stepSize p s) => laneReg_after_compute (shape := shapeOf i) h hr (c := c) hj
  have hcases := readPhase_cases (p := p) (accessOrder (shapeOf i).reads (stepSize p s)) s
  rw [hr] at hcases
  obtain ⟨⟨lane', rfl⟩, -⟩ := hcases
  obtain ⟨⟨lane, hc⟩, -⟩ := computePhase_frame (shapeOf i).element (stepSize p s) { s with lane := lane' }
  replace hc : computePhase (shapeOf i).element (stepSize p s) { s with lane := lane' } = { s with lane := lane } := hc
  rw [hc] at hout
  have hwrites : stepWrites (shapeOf i).writes (stepSize p s) { s with lane := lane } =
      (accessOrder (shapeOf i).writes (stepSize p s)).map (outputWrite i s) := by
    refine List.map_congr_left fun x hx => ?_
    obtain ⟨hcw, hj⟩ := (mem_accessOrder (c := x.1) (j := x.2)).1 hx
    exact Prod.ext rfl ((hout x.1 x.2 hj).trans (outputOf_stepInputs i s.precision s x.2 _ hcw))
  exact ⟨lane, by rw [engineStep, hr, afterPhase, hc, ← hwrites]⟩

/-- What the writes of some elements of the step leave: their outputs, and every byte outside those elements. -/
theorem writeAll_outputWrite {i : Instr} (h : RunFacts p s) {order : List (Component × Nat)}
    (hsub : order.Sublist (accessOrder (shapeOf i).writes (stepSize p s))) :
    (∀ x ∈ order, (writeAll (order.map (outputWrite i s)) s.mem).readWord (elementAddress s x.1 (s.progress.toNat + x.2)) =
        commandOutput i s.precision (elementInputs s (s.progress.toNat + x.2)) x.1) ∧
      ∀ addr, (∀ x ∈ order, holdsByte s x.1 (s.progress.toNat + x.2) addr = false) →
        (writeAll (order.map (outputWrite i s)) s.mem).readByte addr = s.mem.readByte addr := by
  have halign : ∀ w ∈ order.map (outputWrite i s), w.1.toNat % 4 = 0 := by
    intro w hw
    obtain ⟨x, hx, rfl⟩ := List.mem_map.1 hw
    exact stepElement_aligned h x.1 ((mem_accessOrder (c := x.1) (j := x.2)).1 (hsub.subset hx)).2
  have hnodup : ((order.map (outputWrite i s)).map Prod.fst).Nodup := by
    have hall := nodup_stepWrites h (cs := (shapeOf i).writes) (by rw [shapeOf_writes]; decide) (stepSize_bounds h).2.2 s
      rfl rfl
    rw [stepWrites_fst] at hall
    rw [List.map_map]
    exact hall.sublist (hsub.map _)
  refine ⟨fun x hx => readWord_writeAll_mem _ h.memWf halign hnodup (List.mem_map.2 ⟨x, hx, rfl⟩), fun addr hout => ?_⟩
  refine readByte_writeAll_outside _ h.memWf halign addr fun w hw hin => ?_
  obtain ⟨x, hx, rfl⟩ := List.mem_map.1 hw
  exact Bool.eq_false_iff.1 (hout x hx) ((holdsByte_iff s x.1 _ addr).2 hin)

/-- Settles O22: the write phase ends at the failing write, with the outputs before it performed. -/
theorem writeBusErrorAborts : Obligations.WriteBusErrorAborts := by
  intro p i s pre post c j hl hs hreads horder hpre hbus
  obtain ⟨he, ho⟩ := canStep_iff.1 hs
  have hf := (legal_iff.1 hl).runFacts he
  obtain ⟨lane, hstep⟩ := engineStep_of_reads_ok hf hreads
  have hwrite : writePhase p ((accessOrder (shapeOf i).writes (stepSize p s)).map (outputWrite i s)) { s with lane := lane } =
      .busError { s with mem := writeAll (pre.map (outputWrite i s)) s.mem, lane := lane }
        (elementAddress s c (s.progress.toNat + j)) := by
    rw [horder, List.map_append, writePhase_append _ _ _ (List.forall_mem_map.2 hpre), List.map_cons, outputWrite, writePhase]
    simp only [busAnswer_of_not_busOk hbus]
    rfl
  obtain ⟨hout, hkept⟩ := writeAll_outputWrite hf (horder ▸ List.sublist_append_left pre _)
  exact ⟨_, lane, by rw [exec_run he ho, hstep, hwrite]; rfl, hout, hkept⟩

end Sys2Proof.Machine
end

section
/-! SUPPORT. The reset input and a bus that never answers: what a reset leaves of memory, between steps and inside one
(70_reset_and_hazards.md R260, R262, R263), what is refused while reset is held (70_reset_and_hazards.md R261), and the
engine that waits for ever (70_reset_and_hazards.md R273). -/

namespace Sys2Proof.Machine

variable {p : Platform} {s : State}

/-! ### A reset while IDLE -/

theorem memoryAtReset_of_idle (he : s.engine = .idle) (n : Nat) (landed : Bool) : memoryAtReset p n landed s = s.mem := by
  rw [memoryAtReset, he]

/-- A step whose event is a reset, with the memory that the reset leaves. -/
theorem stepOn_assertReset {n : Nat} {landed : Bool} {es : List HostEvent} (hi : s.inputs = .assertReset n landed :: es) :
    stepOn p s = .next { State.resetOn p with
      mem := memoryAtReset p n landed (s.setInputs es)
      resetHeld := true
      hostCache := s.hostCache
      inputs := es
      freeCount := s.freeCount } :=
  stepOn_of_event hi

/-- Settles O44: of what a reset leaves, memory alone depends on what the engine does, and while IDLE it stays. -/
theorem resetWhileIdle : Obligations.ResetWhileIdle := by
  intro p s rest n b hi he
  rw [stepOn_assertReset hi, memoryAtReset_of_idle (s := s.setInputs rest) he]
  rfl

/-! ### While reset is held -/

theorem portRead_of_resetHeld (h : s.resetHeld = true) (size addr : Nat) :
    portRead p size addr s = .refused .portAccessDuringReset := by
  simp [portRead, h]

theorem portWrite_of_resetHeld (h : s.resetHeld = true) (size addr : Nat) (v : Word) :
    portWrite p size addr v s = .refused .portAccessDuringReset := by
  simp [portWrite, h]

theorem waitRound_of_resetHeld (h : s.resetHeld = true) : waitRound s = .refused .portAccessDuringReset := by
  simp [waitRound, h]

/-- Settles O46: the register port and `wait` are refused, and the engine's turn, an event or not, does nothing. -/
theorem portAccessDuringResetIsRefused : Obligations.PortAccessDuringResetIsRefused := by
  intro p s h
  refine ⟨fun size addr es hi => ?_, fun size addr v es hi => ?_, fun es hi => ?_, fun hi => ?_, fun es hi => ?_⟩
  · exact (stepOn_of_event hi).trans (portRead_of_resetHeld (s := s.setInputs es) h size addr)
  · exact (stepOn_of_event hi).trans (portWrite_of_resetHeld (s := s.setInputs es) h size addr v)
  · exact (stepOn_of_event hi).trans (waitRound_of_resetHeld (s := s.setInputs es) h)
  · exact (stepOn_of_no_event hi).trans (engineTurn_of_idle_or_held (.inr h))
  · exact (stepOn_of_event hi).trans (engineTurn_of_idle_or_held (s := s.setInputs es) (.inr h))

/-! ### A reset inside a step -/

/-- After the reads and the compute phase, the writes to come are the command's outputs (40_command_engine.md R147). -/
theorem stepWrites_eq_map_outputWrite {i : Instr} {s1 : State} (h : RunFacts p s)
    (hr : readPhase p (accessOrder (shapeOf i).reads (stepSize p s)) s = .done s1) :
    stepWrites (shapeOf i).writes (stepSize p s) (computePhase (shapeOf i).element (stepSize p s) s1) =
      (accessOrder (shapeOf i).writes (stepSize p s)).map (outputWrite i s) := by
  have hcases := readPhase_cases (p := p) (accessOrder (shapeOf i).reads (stepSize p s)) s
  rw [hr] at hcases
  obtain ⟨⟨lane, hs1⟩, -⟩ := hcases
  obtain ⟨⟨lane', hc⟩, -⟩ := computePhase_frame (shapeOf i).element (stepSize p s) s1
  refine List.map_congr_left fun x hx => ?_
  obtain ⟨hcw, hj⟩ := (mem_accessOrder (c := x.1) (j := x.2)).1 hx
  refine Prod.ext ?_ ((laneReg_after_compute h hr hj).trans (outputOf_stepInputs i s.precision s x.2 _ hcw))
  rw [hc, hs1]
  rfl

/-- A reset of an engine that can step leaves memory with the first few of the step's outputs written
(70_reset_and_hazards.md R262). -/
theorem memoryAtReset_of_canStep (h : RunFacts p s) (hs : canStep s = true) (n : Nat) (landed : Bool) :
    ∃ order : List (Component × Nat), order <+: accessOrder (shapeOf s.op).writes (stepSize p s) ∧
      memoryAtReset p n landed s = writeAll (order.map (outputWrite s.op s)) s.mem := by
  obtain hm | ⟨-, a, ho, -⟩ | ⟨-, -, s1, pre, post, hr, hsplit, hm⟩ := memoryAtReset_cases (p := p) n landed s
  · exact ⟨[], ⟨_, rfl⟩, hm⟩
  · cases (canStep_iff.1 hs).2.symm.trans ho
  · rw [stepWrites_eq_map_outputWrite h hr] at hsplit
    obtain ⟨order, others, horder, rfl, -⟩ := List.map_eq_append_iff.1 hsplit
    exact ⟨order, ⟨others, horder.symm⟩, hm⟩

/-- What the writes of some elements of a consistent command's step leave in each element: what it held, or, for an element of
the step in a component that is written, its output. -/
theorem readWord_writeAll_outputWrite (h : RunFacts p s) (hc : buffersConsistent s = true) (hs : canStep s = true)
    {order : List (Component × Nat)} (hsub : order.Sublist (accessOrder (shapeOf s.op).writes (stepSize p s)))
    {c : Component} {k : Nat} (hk : k < s.sLen.toNat) :
    (writeAll (order.map (outputWrite s.op s)) s.mem).readWord (elementAddress s c k) = elementWord s c k ∨
      (c ≠ .component3 ∧ s.progress.toNat ≤ k ∧ k < s.progress.toNat + stepSize p s ∧
        (writeAll (order.map (outputWrite s.op s)) s.mem).readWord (elementAddress s c k) = valueWritten s c k) := by
  have hle := (stepSize_bounds h).2.2
  have hstep : ∀ x ∈ order, x.1 ∈ (shapeOf s.op).writes ∧ x.2 < stepSize p s := fun x hx =>
    (mem_accessOrder (c := x.1) (j := x.2)).1 (hsub.subset hx)
  obtain ⟨hout, hkept⟩ := writeAll_outputWrite h hsub
  by_cases hw : ∃ x ∈ order, c = x.1 ∧ k = s.progress.toNat + x.2
  · obtain ⟨x, hx, rfl, rfl⟩ := hw
    obtain ⟨hcw, hj⟩ := hstep x hx
    refine .inr ⟨(mem_writes_iff s.op x.1).1 hcw, by omega, by omega, ?_⟩
    rw [hout x hx, elementInputs_of_not_done hc hs hk (by omega)]
    rfl
  · refine .inl (readWord_of_not_written h
      (written := fun d l => ∃ x ∈ order, d = x.1 ∧ l = s.progress.toNat + x.2) ?_ ?_ hk hw)
    · rintro d l ⟨x, hx, -, rfl⟩
      have := (hstep x hx).2
      omega
    · exact fun addr hfree => hkept addr fun x hx => hfree x.1 _ ⟨x, hx, rfl, rfl⟩

/-- The writes of a step stay inside the regions. -/
theorem readByte_writeAll_outputWrite_outside (h : RunFacts p s) {order : List (Component × Nat)}
    (hsub : order.Sublist (accessOrder (shapeOf s.op).writes (stepSize p s))) {addr : Nat}
    (hfree : ∀ c, inRegion s c addr = false) :
    (writeAll (order.map (outputWrite s.op s)) s.mem).readByte addr = s.mem.readByte addr := by
  have hle := (stepSize_bounds h).2.2
  refine (writeAll_outputWrite h hsub).2 addr fun x hx => Bool.eq_false_iff.2 fun hin => ?_
  have hj := ((mem_accessOrder (c := x.1) (j := x.2)).1 (hsub.subset hx)).2
  obtain ⟨hlo, hhi⟩ := (holdsByte_iff s x.1 _ addr).1 hin
  exact Bool.eq_false_iff.1 (hfree x.1) (inRegion_of_element h (by omega) hlo hhi)

/-- Settles O45: the reset performs the first few of the step's writes, each the output of its element. -/
theorem resetDuringRunLeavesInputsOrOutputs : Obligations.ResetDuringRunLeavesInputsOrOutputs := by
  intro p s rest n b hl hc hs hi
  have hf : RunFacts p (s.setInputs rest) := ((legal_iff.1 hl).setInputs rest).runFacts (canStep_iff.1 hs).1
  obtain ⟨order, hfirst, hm⟩ := memoryAtReset_of_canStep hf hs n b
  refine ⟨_, stepOn_assertReset hi, fun c k hk => ?_, fun addr hfree => ?_⟩
  · rw [hm]
    exact readWord_writeAll_outputWrite hf hc hs hfirst.sublist hk
  · rw [hm]
    exact readByte_writeAll_outputWrite_outside hf hfirst.sublist hfree

/-! ### A bus that never answers -/

/-- An engine that waits inside a step is BUSY, and stays as it is whatever is executed. -/
theorem stays_of_waiting (he : s.engine = .run) (ho : s.outstanding.isSome = true) :
    busy s = true ∧ ∀ i, execOn p i s = .next s :=
  ⟨busy_iff.2 he, fun _ => exec_stuck he ho⟩

/-- A step whose first read that does not complete is never answered waits for it, with lane registers changed alone. -/
theorem execOn_of_unanswered_read {i : Instr} {pre post : List (Component × Nat)} {c : Component} {j : Nat}
    (hs : canStep s = true) (horder : accessOrder (shapeOf i).reads (stepSize p s) = pre ++ (c, j) :: post)
    (hpre : ∀ x ∈ pre, busAnswer p (elementAddress s x.1 (s.progress.toNat + x.2)) .read = .ok)
    (hbus : busAnswer p (elementAddress s c (s.progress.toNat + j)) .read = .never) :
    ∃ lane, execOn p i s = .next { s with
      lane := lane
      outstanding := some ⟨.read, elementAddress s c (s.progress.toNat + j), 0#32⟩ } := by
  obtain ⟨he, ho⟩ := canStep_iff.1 hs
  obtain ⟨lane, hpass⟩ := readPhase_append pre ((c, j) :: post) s hpre
  have hread : readPhase p (accessOrder (shapeOf i).reads (stepSize p s)) s =
      .unanswered { s with lane := lane } ⟨.read, elementAddress s c (s.progress.toNat + j), 0#32⟩ := by
    have hnever : busAnswer p (elementAddress { s with lane := lane } c (s.progress.toNat + j)) .read = .never := hbus
    rw [horder, hpass, readPhase]
    simp only [hnever]
    rfl
  exact ⟨lane, by rw [exec_run he ho, engineStep, hread]; rfl⟩

/-- A step whose reads all complete and whose first write that does not is never answered waits for it, with the writes before
it performed. -/
theorem execOn_of_unanswered_write {i : Instr} {pre post : List (Component × Nat)} {c : Component} {j : Nat}
    (hf : RunFacts p s) (hs : canStep s = true) (hreads : stepAccessesOk p (shapeOf i).reads [] s = true)
    (horder : accessOrder (shapeOf i).writes (stepSize p s) = pre ++ (c, j) :: post)
    (hpre : ∀ x ∈ pre, busAnswer p (elementAddress s x.1 (s.progress.toNat + x.2)) .write = .ok)
    (hbus : busAnswer p (elementAddress s c (s.progress.toNat + j)) .write = .never) :
    ∃ lane, execOn p i s = .next { s with
      mem := writeAll (pre.map (outputWrite i s)) s.mem
      lane := lane
      outstanding := some ⟨.write, elementAddress s c (s.progress.toNat + j),
        commandOutput i s.precision (elementInputs s (s.progress.toNat + j)) c⟩ } := by
  obtain ⟨he, ho⟩ := canStep_iff.1 hs
  obtain ⟨lane, hstep⟩ := engineStep_of_reads_ok hf hreads
  have hwrite : writePhase p ((accessOrder (shapeOf i).writes (stepSize p s)).map (outputWrite i s)) { s with lane := lane } =
      .unanswered { s with mem := writeAll (pre.map (outputWrite i s)) s.mem, lane := lane }
        ⟨.write, elementAddress s c (s.progress.toNat + j),
          commandOutput i s.precision (elementInputs s (s.progress.toNat + j)) c⟩ := by
    rw [horder, List.map_append, writePhase_append _ _ _ (List.forall_mem_map.2 hpre), List.map_cons, outputWrite, writePhase]
    simp only [hbus]
    rfl
  exact ⟨lane, by rw [exec_run he ho, hstep, hwrite]; rfl⟩

/-- Settles O23: the phase stops at the access, and the engine then waits. -/
theorem unansweredAccessStaysBusy : Obligations.UnansweredAccessStaysBusy := by
  intro p i s pre post c j hs
  have he := (canStep_iff.1 hs).1
  refine ⟨fun horder hpre hbus => ?_, fun hl hreads horder hpre hbus => ?_⟩
  · obtain ⟨lane, hx⟩ := execOn_of_unanswered_read hs horder hpre hbus
    exact ⟨_, lane, hx, rfl, stays_of_waiting he rfl⟩
  · have hf := (legal_iff.1 hl).runFacts he
    obtain ⟨lane, hx⟩ := execOn_of_unanswered_write hf hs hreads horder hpre hbus
    obtain ⟨hout, hkept⟩ := writeAll_outputWrite hf (horder ▸ List.sublist_append_left pre _)
    exact ⟨_, _, lane, hx, rfl, hout, hkept, stays_of_waiting he rfl⟩

end Sys2Proof.Machine
end
